-- ==== Sys2Proof/Word.lean ====
section
/-! DEFINITION. Word.lean: the byte of the infrared frame and the operation word of the model's operation port. -/

namespace Sys2Proof

/-- One byte of the frame buffer, a `u8` (10_state.md R24). -/
abbrev Byte := BitVec 8

/-- One operation word of the model's operation port (notes/assumptions/1.md): the opcode byte and up to eight bytes of
operands. The hardware has no operation code (R100); 72 bits hold the longest row, an opcode byte and a `u64`. -/
abbrev Word := BitVec 72

end Sys2Proof
end

