-- ==== Sys2Proof/Syntax.lean ====
section
/-! DEFINITION. Syntax.lean: levels, pins, modes, actions, and the operations: one constructor per row of
spec/opcode_table.json. -/

namespace Sys2Proof

/-- A pin's level: `LOW = 0 = false`, `HIGH = 1 = true` (R11). -/
inductive Level where
  | low
  | high
  deriving DecidableEq, Repr, Inhabited

/-- The four output pins (R61), `PIN_MOT_IN1`, `PIN_MOT_IN2`, `PIN_SRV_L`, `PIN_SRV_R`. -/
inductive OutPin where
  | motIn1
  | motIn2
  | srvL
  | srvR
  deriving DecidableEq, Repr

/-- The five pins the block uses (R61): pairwise distinct identifiers (R71, notes/assumptions/23.md). -/
inductive Pin where
  | ir
  | out (o : OutPin)
  deriving DecidableEq, Repr

/-- The three input modes of `configure` (R61): `input`, `input_pullup`, `input_pulldown`. -/
inductive Pull where
  | floating
  | up
  | down
  deriving DecidableEq, Repr, Inhabited

/-- The four drive strengths of an output mode, in mA (R61). -/
inductive Drive where
  | ma2
  | ma4
  | ma8
  | ma12
  deriving DecidableEq, Repr, Inhabited

/-- The mode of a pin (R61, R111). -/
inductive PinMode where
  | input (p : Pull)
  | output (d : Drive)
  deriving DecidableEq, Repr

/-- The servo instance, SERVO_L or SERVO_R (R32). -/
inductive Side where
  | left
  | right
  deriving DecidableEq, Repr

/-- The closed enumeration of actions (R88); a digit is 0 to 9. -/
inductive Action where
  | noseUp
  | noseDown
  | rollLeft
  | rollRight
  | volumeUp
  | volumeDown
  | powerToggle
  | select
  | numeric (digit : Fin 10)
  | raw (byte : Byte)
  deriving DecidableEq, Repr, Inhabited

/-- One constructor per row of spec/opcode_table.json: the fifteen operations (R100), then the encodings of signals and
values (R102) as events of the block: the infrared frame and symbols (R81, R82), the actions (R88), the motor pin codes
(R92) and the servo pulse code (R95). -/
inductive Instr where
  | configure (pin : Pin) (mode : PinMode)
  | read (pin : Pin)
  | write (pin : Pin) (level : Level)
  | now
  | sleepFor (d : Nat)
  | sleepUntil (t : Nat)
  | measureRun (level : Level) (cap : Nat)
  | poll
  | actionFor (code : Byte)
  | setThrottle (percent : Int)
  | service (now : Nat)
  | update (x : Side) (rollCmd : Int) (isLeft : Bool)
  | applyAction (a : Action)
  | iterate
  | boot
  | necFrame (addr addrInv cmd cmdInv : Byte)
  | start (cLow cHigh : Nat)
  | bit0 (cLow cHigh : Nat)
  | bit1 (cLow cHigh : Nat)
  | noSymbol (stuck : Level) (cLow : Nat)
  | noseUp
  | noseDown
  | rollLeft
  | rollRight
  | volumeUp
  | volumeDown
  | powerToggle
  | select
  | numeric (digit : Fin 10)
  | raw (byte : Byte)
  | motorForward
  | motorReverse
  | motorCoast
  | motorUndefined
  | servoPulse (x : Side)
  deriving DecidableEq, Repr

end Sys2Proof
end

