-- ==== Sys2Proof/Config.lean ====
section
/-! DEFINITION. Config.lean: the construction-time parameters of R7 with their constraints (R8), the open parameters as
constants without a value, and the free values of the environment. -/

namespace Sys2Proof

/-- `MOTOR_WRITE_ORDER` (R157). -/
inductive WriteOrder where
  | in1First
  | in2First
  deriving DecidableEq, Repr, Inhabited

/-- The parameters of R7, under the spec's names. `N_BITS` is 32 by the frame's format (R82) and the pin identifiers are the
constructors of `Pin`, so neither is a field. They are fixed before boot and no operation writes them (R40). -/
structure Params where
  tSUs : Nat
  startLowMax : Nat
  startHighMax : Nat
  bitLowMax : Nat
  bitHighMax : Nat
  bitThreshold : Nat
  actionTable : List (Byte × Action)
  motorFreqHz : Nat
  motorWriteOrder : WriteOrder
  servoFrameUs : Nat
  servoMinUs : Nat
  servoMaxUs : Nat
  rollMaxDeg : Nat
  hardLimitDeg : Nat
  slewPerFrameDeg : Nat
  throttleStep : Nat
  rollStep : Nat
  armedThrottle : Nat
  irPinMode : Pull
  outDrive : Drive
  deriving DecidableEq, Repr

/-- `MOTOR_PERIOD_US = 1000000 div MOTOR_FREQ_HZ` (R7, R150). -/
def Params.motorPeriodUs (c : Params) : Nat := 1000000 / c.motorFreqHz

/-- No entry of an action table is a `Raw` (R8, R89). -/
def Action.isNamed : Action → Bool
  | .raw _ => false
  | .noseUp | .noseDown | .rollLeft | .rollRight | .volumeUp | .volumeDown | .powerToggle | .select => true
  | .numeric _ => true

/-- An action table has exactly 12 entries, pairwise distinct codes and no `Raw` (R8, R89). -/
def legalActionTable (t : List (Byte × Action)) : Bool :=
  decide (t.length = 12) && decide ((t.map Prod.fst).Nodup) && t.all (fun e => e.2.isNamed)

/-- The constraints the parameters must meet for the rules to hold as written (R8). -/
def Params.legal (c : Params) : Bool :=
  decide (1 ≤ c.tSUs) && decide (1 ≤ c.startLowMax) && decide (1 ≤ c.startHighMax)
  && decide (1 ≤ c.bitLowMax) && decide (c.bitThreshold + 2 ≤ c.bitHighMax)
  && decide (1 ≤ c.motorFreqHz) && decide (c.motorFreqHz ≤ 1000000)
  && decide (1 ≤ c.servoMinUs) && decide (c.servoMinUs ≤ c.servoMaxUs) && decide (c.servoMaxUs < c.servoFrameUs)
  && decide (1 ≤ c.rollStep) && decide (c.rollStep ≤ 100) && decide (c.armedThrottle ≤ 100)
  && legalActionTable c.actionTable

/-! ## Open parameters
Constants without a value: nothing can be proved of them but their type. Each is brought into the range R8 allows, and
every legal value is reached by some value of the constant (notes/assumptions/7.md, 8.md). -/

/-- OPEN parameter `BIT_LOW_MAX` (R7), less 1. -/
opaque Config.openBitLowMax : Nat
/-- OPEN parameter `BIT_HIGH_MAX` (R7), less its least legal value. -/
opaque Config.openBitHighMax : Nat
/-- OPEN parameter `ACTION_TABLE` (R89). -/
opaque Config.openActionTable : List (Byte × Action)
/-- Configurable parameter `MOTOR_FREQ_HZ` (R7; 400 is only an example). -/
opaque Config.openMotorFreqHz : Nat
/-- OPEN parameter `MOTOR_WRITE_ORDER` (R157). -/
opaque Config.openMotorWriteOrder : WriteOrder
/-- OPEN parameter `ROLL_MAX_DEG` (R7). -/
opaque Config.openRollMaxDeg : Nat
/-- OPEN parameter `HARD_LIMIT_DEG` (R7). -/
opaque Config.openHardLimitDeg : Nat
/-- OPEN parameter `SLEW_PER_FRAME_DEG` (R7). -/
opaque Config.openSlewPerFrameDeg : Nat
/-- OPEN parameter `ROLL_STEP` (R7), less 1. -/
opaque Config.openRollStep : Nat
/-- OPEN parameter `ARMED_THROTTLE` (R7). -/
opaque Config.openArmedThrottle : Nat
/-- OPEN parameter `IR_PIN_MODE` (R7, R252). -/
opaque Config.openIrPinMode : Pull
/-- OPEN parameter `OUT_DRIVE_MA` (R7, R252). -/
opaque Config.openOutDrive : Drive

/-- The arbitrary table `T1` of 95_test_vectors.md section 0, "made up for this file and not the repository's". It stands in
only where the open table is not a legal one (U8), so that the reset parameters are legal; see notes/assumptions/8.md. -/
def Config.tableT1 : List (Byte × Action) :=
  [(0x45, .powerToggle), (0x46, .volumeUp), (0x15, .volumeDown), (0x44, .rollLeft), (0x43, .rollRight), (0x40, .noseUp),
   (0x19, .noseDown), (0x09, .select), (0x16, .numeric 0), (0x0C, .numeric 1), (0x18, .numeric 2), (0x5E, .numeric 3)]

/-- `ACTION_TABLE`: any legal table. -/
def Config.actionTable : List (Byte × Action) :=
  if legalActionTable Config.openActionTable then Config.openActionTable else Config.tableT1

/-- The parameters of the block at construction (R7): the values the source gives, and the open ones. -/
def Config.params : Params where
  tSUs := 60
  startLowMax := 200
  startHighMax := 80
  bitLowMax := Config.openBitLowMax + 1
  bitHighMax := Config.openBitHighMax + 10
  bitThreshold := 8
  actionTable := Config.actionTable
  motorFreqHz := Config.openMotorFreqHz % 1000000 + 1
  motorWriteOrder := Config.openMotorWriteOrder
  servoFrameUs := 20000
  servoMinUs := 600
  servoMaxUs := 2400
  rollMaxDeg := Config.openRollMaxDeg
  hardLimitDeg := Config.openHardLimitDeg
  slewPerFrameDeg := Config.openSlewPerFrameDeg
  throttleStep := 5
  rollStep := Config.openRollStep % 100 + 1
  armedThrottle := Config.openArmedThrottle % 101
  irPinMode := Config.openIrPinMode
  outDrive := Config.openOutDrive

/-! ## Free values
Each is applied to the counter `freeUsed` of State, so that every use is a fresh value (notes/assumptions/9.md). -/

/-- The level of an input pin at a read the environment's list does not answer (R66, U7), and the level an output pin drives
between `PinConfigure` and its first write (R41, U2). -/
opaque Config.freeLevel : Nat → Level
/-- How much longer than asked a clock reading or a sleep takes (R68, U5). -/
opaque Config.freeDelay : Nat → Nat
/-- The run counts of a `NEC_FRAME` row, which gives only the bits (R81, R82). -/
opaque Config.freeCount : Nat → Nat
/-- What the clock shows when the machine has just booted: its epoch is unspecified (R231). -/
opaque Config.freeBootTime : Nat

end Sys2Proof
end

