-- ==== Sys2Proof/WellFormed.lean ====
section
/-! DEFINITION. WellFormed.lean: the operand ranges of the operations (R99, R100) and of the operation word. -/

namespace Sys2Proof

/-- A `u64` operand (R10). -/
def isU64 (n : Nat) : Bool := decide (n < 2 ^ 64)

/-- An `i32` operand (R10). -/
def isI32 (v : Int) : Bool := decide (-(2 ^ 31) ≤ v) && decide (v < 2 ^ 31)

/-- A cap of `measure_run`: `cap >= 1` (R131); the operation word holds caps up to 2^32 (notes/assumptions/1.md). -/
def isCap (n : Nat) : Bool := decide (1 ≤ n) && decide (n ≤ 2 ^ 32)

/-- A run count of a symbol row; the operation word holds counts below 2^16 (notes/assumptions/1.md). -/
def isCount (n : Nat) : Bool := decide (n < 2 ^ 16)

/-- Every operand lies in the range its operation declares. -/
def Instr.wellFormed : Instr → Bool
  | .configure _ _ => true
  | .read _ => true
  | .write _ _ => true
  | .now => true
  | .sleepFor d => isU64 d
  | .sleepUntil t => isU64 t
  | .measureRun _ cap => isCap cap
  | .poll => true
  | .actionFor _ => true
  | .setThrottle percent => isI32 percent
  | .service t => isU64 t
  | .update _ rollCmd _ => isI32 rollCmd
  | .applyAction _ => true
  | .iterate => true
  | .boot => true
  | .necFrame _ _ _ _ => true
  | .start cLow cHigh => isCount cLow && isCount cHigh
  | .bit0 cLow cHigh => isCount cLow && isCount cHigh
  | .bit1 cLow cHigh => isCount cLow && isCount cHigh
  | .noSymbol _ cLow => isCount cLow
  | .noseUp => true
  | .noseDown => true
  | .rollLeft => true
  | .rollRight => true
  | .volumeUp => true
  | .volumeDown => true
  | .powerToggle => true
  | .select => true
  | .numeric _ => true
  | .raw _ => true
  | .motorForward => true
  | .motorReverse => true
  | .motorCoast => true
  | .motorUndefined => true
  | .servoPulse _ => true

end Sys2Proof
end

