-- ==== Sys2Proof/Decode.lean ====
section
/-! DEFINITION. Decode.lean: the operation word, its decoder (total, rejecting by name) and its encoder.

The block has no instruction words (R80, R100): the low four bits of an operation's opcode byte are the id of R100, which the
table matches; everything else of the layout is the model's own (notes/assumptions/1.md). Bit 0 is the least significant bit
of the first byte. Operands follow the opcode byte from bit 8 upwards without gaps:

| opcode byte | row | operands, from bit 8 |
|---|---|---|
| 0x00 | configure | pin 3 bits, mode 3 bits |
| 0x01 | read | pin 3 |
| 0x02 | write | pin 3 (outputs first), level 1 |
| 0x03 | now | |
| 0x04, 0x05 | sleep_for, sleep_until | u64 |
| 0x06 | measure_run | level 1, cap - 1 in 32 |
| 0x07 | poll | |
| 0x08 | action_for | code 8 |
| 0x09 | set_throttle | i32 |
| 0x0A | service | u64 |
| 0x0B | update | roll_cmd i32, is_left 1, instance 1 (1 is SERVO_R) |
| 0x0C | apply_action | constructor 4, value 8 |
| 0x0D, 0x0E | iterate, boot | |
| 0x0F | NEC_FRAME | the 32 bits of R82 in arrival order |
| 0x1F, 0x2F, 0x3F | START, BIT0, BIT1 | c_low 16, c_high 16 |
| 0x4F | NO_SYMBOL | level of the run that reaches its cap 1, c_low 16 |
| 0x5F | the ten actions | constructor 4, value 8 |
| 0x6F | the four motor pin codes | in2 1, in1 1 |
| 0x7F | SERVO_PULSE | instance 1 |
-/

namespace Sys2Proof

/-- Why a word is rejected. -/
inductive DecodeError where
  /-- The opcode byte names no row of the table. -/
  | unknownOpcode (op : Nat)
  /-- A bit above the row's operands is not 0. -/
  | strayBits (op : Nat)
  /-- The pin field names no pin. -/
  | badPin (code : Nat)
  /-- The mode field names no mode. -/
  | badMode (code : Nat)
  /-- The action fields name no action of R88. -/
  | badAction (ctor value : Nat)
  deriving DecidableEq, Repr

/-! ## Fields -/

/-- Bits `lo + n - 1` down to `lo` of `v`. -/
def bitField (v lo n : Nat) : Nat := v / 2 ^ lo % 2 ^ n

/-- `sext_32` (R10). -/
def sext32 (n : Nat) : Int := if n < 2 ^ 31 then (n : Int) else (n : Int) - 2 ^ 32

/-- The low 32 bits of a signed value. -/
def low32 (v : Int) : Nat := (v % 2 ^ 32).toNat

def Level.ofCode (n : Nat) : Level := if n = 0 then .low else .high

def Level.code : Level → Nat
  | .low => 0
  | .high => 1

def Side.ofCode (n : Nat) : Side := if n = 0 then .left else .right

def Side.code : Side → Nat
  | .left => 0
  | .right => 1

def boolOfCode (n : Nat) : Bool := n != 0

def codeOfBool : Bool → Nat
  | false => 0
  | true => 1

/-- The pin field of `configure` and `read`: `PIN_IR` first. -/
def Pin.ofCode : Nat → Except DecodeError Pin
  | 0 => .ok .ir
  | 1 => .ok (.out .motIn1)
  | 2 => .ok (.out .motIn2)
  | 3 => .ok (.out .srvL)
  | 4 => .ok (.out .srvR)
  | n => .error (.badPin n)

def Pin.code : Pin → Nat
  | .ir => 0
  | .out .motIn1 => 1
  | .out .motIn2 => 2
  | .out .srvL => 3
  | .out .srvR => 4

/-- The pin field of `write`: the four outputs first ("one of the four output pins", R113). -/
def Pin.ofWriteCode : Nat → Except DecodeError Pin
  | 0 => .ok (.out .motIn1)
  | 1 => .ok (.out .motIn2)
  | 2 => .ok (.out .srvL)
  | 3 => .ok (.out .srvR)
  | 4 => .ok .ir
  | n => .error (.badPin n)

def Pin.writeCode : Pin → Nat
  | .out .motIn1 => 0
  | .out .motIn2 => 1
  | .out .srvL => 2
  | .out .srvR => 3
  | .ir => 4

/-- The mode field, in the order of R111. -/
def PinMode.ofCode : Nat → Except DecodeError PinMode
  | 0 => .ok (.input .floating)
  | 1 => .ok (.input .up)
  | 2 => .ok (.input .down)
  | 3 => .ok (.output .ma2)
  | 4 => .ok (.output .ma4)
  | 5 => .ok (.output .ma8)
  | 6 => .ok (.output .ma12)
  | n => .error (.badMode n)

def PinMode.code : PinMode → Nat
  | .input .floating => 0
  | .input .up => 1
  | .input .down => 2
  | .output .ma2 => 3
  | .output .ma4 => 4
  | .output .ma8 => 5
  | .output .ma12 => 6

/-- The action fields, constructors in the order of R88; only `Numeric` and `Raw` carry a value. -/
def Action.ofCode (ctor value : Nat) : Except DecodeError Action :=
  match ctor with
  | 8 => if h : value < 10 then .ok (.numeric ⟨value, h⟩) else .error (.badAction 8 value)
  | 9 => .ok (.raw (BitVec.ofNat 8 value))
  | n =>
    if value = 0 then
      match n with
      | 0 => .ok .noseUp
      | 1 => .ok .noseDown
      | 2 => .ok .rollLeft
      | 3 => .ok .rollRight
      | 4 => .ok .volumeUp
      | 5 => .ok .volumeDown
      | 6 => .ok .powerToggle
      | 7 => .ok .select
      | k => .error (.badAction k value)
    else .error (.badAction n value)

def Action.ctorCode : Action → Nat
  | .noseUp => 0
  | .noseDown => 1
  | .rollLeft => 2
  | .rollRight => 3
  | .volumeUp => 4
  | .volumeDown => 5
  | .powerToggle => 6
  | .select => 7
  | .numeric _ => 8
  | .raw _ => 9

def Action.valueCode : Action → Nat
  | .numeric d => d.val
  | .raw b => b.toNat
  | .noseUp | .noseDown | .rollLeft | .rollRight | .volumeUp | .volumeDown | .powerToggle | .select => 0

/-- The row of an action (opcode_table.json, format ACTION). -/
def Action.toInstr : Action → Instr
  | .noseUp => .noseUp
  | .noseDown => .noseDown
  | .rollLeft => .rollLeft
  | .rollRight => .rollRight
  | .volumeUp => .volumeUp
  | .volumeDown => .volumeDown
  | .powerToggle => .powerToggle
  | .select => .select
  | .numeric d => .numeric d
  | .raw b => .raw b

/-- The row of a motor pin code, `in1 in2` (R92, R102). -/
def motorRow (in1 in2 : Nat) : Instr :=
  if in1 = 0 then (if in2 = 0 then .motorCoast else .motorReverse)
  else (if in2 = 0 then .motorForward else .motorUndefined)

/-! ## The decoder -/

/-- `k` is decoded from the operands `x`, which fill `n` bits; a bit above them is stray. -/
def withOperands (op x n : Nat) (k : Except DecodeError Instr) : Except DecodeError Instr :=
  if x < 2 ^ n then k else .error (.strayBits op)

/-- The row of opcode byte `op` with the operands `x` (the word above its first byte). -/
def decodeFields (op x : Nat) : Except DecodeError Instr :=
  match op with
  | 0x00 => withOperands op x 6 (do
      let p ← Pin.ofCode (bitField x 0 3)
      let m ← PinMode.ofCode (bitField x 3 3)
      .ok (.configure p m))
  | 0x01 => withOperands op x 3 (do
      let p ← Pin.ofCode (bitField x 0 3)
      .ok (.read p))
  | 0x02 => withOperands op x 4 (do
      let p ← Pin.ofWriteCode (bitField x 0 3)
      .ok (.write p (Level.ofCode (bitField x 3 1))))
  | 0x03 => withOperands op x 0 (.ok .now)
  | 0x04 => withOperands op x 64 (.ok (.sleepFor (bitField x 0 64)))
  | 0x05 => withOperands op x 64 (.ok (.sleepUntil (bitField x 0 64)))
  | 0x06 => withOperands op x 33 (.ok (.measureRun (Level.ofCode (bitField x 0 1)) (bitField x 1 32 + 1)))
  | 0x07 => withOperands op x 0 (.ok .poll)
  | 0x08 => withOperands op x 8 (.ok (.actionFor (BitVec.ofNat 8 (bitField x 0 8))))
  | 0x09 => withOperands op x 32 (.ok (.setThrottle (sext32 (bitField x 0 32))))
  | 0x0A => withOperands op x 64 (.ok (.service (bitField x 0 64)))
  | 0x0B => withOperands op x 34
      (.ok (.update (Side.ofCode (bitField x 33 1)) (sext32 (bitField x 0 32)) (boolOfCode (bitField x 32 1))))
  | 0x0C => withOperands op x 12 (do
      let a ← Action.ofCode (bitField x 0 4) (bitField x 4 8)
      .ok (.applyAction a))
  | 0x0D => withOperands op x 0 (.ok .iterate)
  | 0x0E => withOperands op x 0 (.ok .boot)
  | 0x0F => withOperands op x 32
      (.ok (.necFrame (BitVec.ofNat 8 (bitField x 0 8)) (BitVec.ofNat 8 (bitField x 8 8))
        (BitVec.ofNat 8 (bitField x 16 8)) (BitVec.ofNat 8 (bitField x 24 8))))
  | 0x1F => withOperands op x 32 (.ok (.start (bitField x 0 16) (bitField x 16 16)))
  | 0x2F => withOperands op x 32 (.ok (.bit0 (bitField x 0 16) (bitField x 16 16)))
  | 0x3F => withOperands op x 32 (.ok (.bit1 (bitField x 0 16) (bitField x 16 16)))
  | 0x4F => withOperands op x 17 (.ok (.noSymbol (Level.ofCode (bitField x 0 1)) (bitField x 1 16)))
  | 0x5F => withOperands op x 12 (do
      let a ← Action.ofCode (bitField x 0 4) (bitField x 4 8)
      .ok a.toInstr)
  | 0x6F => withOperands op x 2 (.ok (motorRow (bitField x 1 1) (bitField x 0 1)))
  | 0x7F => withOperands op x 1 (.ok (.servoPulse (Side.ofCode (bitField x 0 1))))
  | n => .error (.unknownOpcode n)

/-- The decoder: total on every word. -/
def decode (w : Word) : Except DecodeError Instr := decodeFields (w.toNat % 256) (w.toNat / 256)

/-- The instruction the decoder reads from a table row's word: `nbits` bits of `w`, every bit above them 0. -/
def decodeTableWord (nbits w : Nat) : Option Instr :=
  match decode (BitVec.ofNat 72 (w % 2 ^ nbits)) with
  | .ok i => some i
  | .error _ => none

/-! ## The encoder -/

/-- The opcode byte of each row. -/
def Instr.opcode : Instr → Nat
  | .configure _ _ => 0x00
  | .read _ => 0x01
  | .write _ _ => 0x02
  | .now => 0x03
  | .sleepFor _ => 0x04
  | .sleepUntil _ => 0x05
  | .measureRun _ _ => 0x06
  | .poll => 0x07
  | .actionFor _ => 0x08
  | .setThrottle _ => 0x09
  | .service _ => 0x0A
  | .update _ _ _ => 0x0B
  | .applyAction _ => 0x0C
  | .iterate => 0x0D
  | .boot => 0x0E
  | .necFrame _ _ _ _ => 0x0F
  | .start _ _ => 0x1F
  | .bit0 _ _ => 0x2F
  | .bit1 _ _ => 0x3F
  | .noSymbol _ _ => 0x4F
  | .noseUp => 0x5F
  | .noseDown => 0x5F
  | .rollLeft => 0x5F
  | .rollRight => 0x5F
  | .volumeUp => 0x5F
  | .volumeDown => 0x5F
  | .powerToggle => 0x5F
  | .select => 0x5F
  | .numeric _ => 0x5F
  | .raw _ => 0x5F
  | .motorForward => 0x6F
  | .motorReverse => 0x6F
  | .motorCoast => 0x6F
  | .motorUndefined => 0x6F
  | .servoPulse _ => 0x7F

/-- The two action fields. -/
def actionOperand (ctor value : Nat) : Nat := ctor + 2 ^ 4 * value

/-- The operands of each row, as a number whose bit 0 is bit 8 of the word. -/
def Instr.operands : Instr → Nat
  | .configure p m => p.code + 2 ^ 3 * m.code
  | .read p => p.code
  | .write p v => p.writeCode + 2 ^ 3 * v.code
  | .now => 0
  | .sleepFor d => d
  | .sleepUntil t => t
  | .measureRun v cap => v.code + 2 * (cap - 1)
  | .poll => 0
  | .actionFor code => code.toNat
  | .setThrottle percent => low32 percent
  | .service t => t
  | .update x rollCmd isLeft => low32 rollCmd + 2 ^ 32 * codeOfBool isLeft + 2 ^ 33 * x.code
  | .applyAction a => actionOperand a.ctorCode a.valueCode
  | .iterate => 0
  | .boot => 0
  | .necFrame a an c cn => a.toNat + 2 ^ 8 * an.toNat + 2 ^ 16 * c.toNat + 2 ^ 24 * cn.toNat
  | .start cl ch => cl + 2 ^ 16 * ch
  | .bit0 cl ch => cl + 2 ^ 16 * ch
  | .bit1 cl ch => cl + 2 ^ 16 * ch
  | .noSymbol v cl => v.code + 2 * cl
  | .noseUp => actionOperand 0 0
  | .noseDown => actionOperand 1 0
  | .rollLeft => actionOperand 2 0
  | .rollRight => actionOperand 3 0
  | .volumeUp => actionOperand 4 0
  | .volumeDown => actionOperand 5 0
  | .powerToggle => actionOperand 6 0
  | .select => actionOperand 7 0
  | .numeric d => actionOperand 8 d.val
  | .raw b => actionOperand 9 b.toNat
  | .motorForward => 2
  | .motorReverse => 1
  | .motorCoast => 0
  | .motorUndefined => 3
  | .servoPulse x => x.code

/-- The word of an instruction. -/
def encode (i : Instr) : Word := BitVec.ofNat 72 (i.opcode + 256 * i.operands)

end Sys2Proof
end

