-- ==== Sys2Proof/Machine/State.lean ====
section
/-! DEFINITION. State.lean: everything the spec gives the block (R20, R41, R61), the environment it observes (R42), the
model's own fields, the reasons a step can stop, and the state after reset (R46). -/

namespace Sys2Proof.Machine

/-! ## IRDEC (R21 to R24) -/

/-- `IRDEC.phase` (R21). -/
inductive IrPhase where
  | idle
  | startLow
  | startHigh
  | bitLow
  | bitHigh
  | check
  deriving DecidableEq, Repr

/-- The frame buffer `IRDEC.data[0..3]` (R24). -/
structure Payload where
  d0 : Byte
  d1 : Byte
  d2 : Byte
  d3 : Byte
  deriving DecidableEq, Repr

/-- The registers of IRDEC. -/
structure Irdec where
  phase : IrPhase
  count : Nat
  bitIdx : Fin 32
  data : Payload
  deriving DecidableEq, Repr

/-- Why a `poll` aborted (R221). Not state of the block (R222, U13): it occurs in `result` only, and SCHED never looks at
it. -/
inductive AbortReason where
  | startLowTimeout
  | startHighTimeout
  | bitLowTimeout (i : Fin 32)
  | bitHighTimeout (i : Fin 32)
  | checksumAddress
  | checksumCommand
  deriving DecidableEq, Repr

/-- How a `poll` ended. Its result is `None` in the first two cases (R132, R220), `Some a` in the third (R140). -/
inductive PollOutcome where
  | noSignal
  | aborted (r : AbortReason)
  | decoded (a : Action)
  deriving DecidableEq, Repr

/-- The `Option<Action>` that `poll` returns to its caller (R99, R140). -/
def PollOutcome.returned : PollOutcome → Option Action
  | .noSignal => none
  | .aborted _ => none
  | .decoded a => some a

/-! ## MOTOR (R26 to R28) -/

/-- `MOTOR.direction` (R26). -/
inductive Direction where
  | forward
  | reverse
  deriving DecidableEq, Repr

/-- `MOTOR.phase` (R28): what the most recent `service` put on the pins. -/
inductive MotorPhase where
  | driving
  | coasting
  deriving DecidableEq, Repr

/-- The registers of MOTOR. -/
structure Motor where
  direction : Direction
  dutyUs : Nat
  phase : MotorPhase
  deriving DecidableEq, Repr

/-! ## SERVO_L and SERVO_R (R30, R31) -/

/-- `SERVO_x.pulse_phase` (R31): the level the most recent `update` of that instance drove. -/
inductive PulsePhase where
  | highPhase
  | lowPhase
  deriving DecidableEq, Repr

/-- The registers of one servo instance. It holds no pulse width (R33). -/
structure Servo where
  positionDeg : Int
  pulsePhase : PulsePhase
  deriving DecidableEq, Repr

/-! ## SCHED (R34 to R38) -/

/-- The registers of SCHED. Times are natural numbers of microseconds (R69). -/
structure Sched where
  rollCmd : Int
  throttleCmd : Int
  engineEnabled : Bool
  nextServoL : Nat
  nextServoR : Nat
  nextMotor : Nat
  now : Nat
  deriving DecidableEq, Repr

/-! ## The pins (R41, R61) -/

/-- An output pin: its mode, `none` before `PinConfigure` (R111), and its latch (R41). -/
structure OutCell where
  mode : Option PinMode
  latch : Level
  deriving DecidableEq, Repr

/-- The five pins. -/
structure Pins where
  irMode : Option PinMode
  motIn1 : OutCell
  motIn2 : OutCell
  srvL : OutCell
  srvR : OutCell
  deriving DecidableEq, Repr

def Pins.cell (p : Pins) : OutPin → OutCell
  | .motIn1 => p.motIn1
  | .motIn2 => p.motIn2
  | .srvL => p.srvL
  | .srvR => p.srvR

def Pins.setCell (p : Pins) (o : OutPin) (c : OutCell) : Pins :=
  match o with
  | .motIn1 => { p with motIn1 := c }
  | .motIn2 => { p with motIn2 := c }
  | .srvL => { p with srvL := c }
  | .srvR => { p with srvR := c }

/-- The mode of a pin (R61). -/
def Pins.mode (p : Pins) : Pin → Option PinMode
  | .ir => p.irMode
  | .out o => (p.cell o).mode

/-! ## The environment and the model's own fields -/

/-- What the block observes and does not own (R42): the clock, and the environment's answers to come. A list that has run
out is continued by the free values of Config, indexed by `freeUsed`. -/
structure Env where
  /-- The microsecond clock (R68). -/
  clock : Nat
  /-- The levels the next reads of `PIN_IR` return, the next one first (R66). -/
  line : List Level
  /-- How late the next clock readings and sleeps are, the next one first (R68, U5). -/
  delays : List Nat
  /-- How many free values have been used. -/
  freeUsed : Nat
  deriving DecidableEq, Repr

/-- A port transaction (R11, R14). -/
inductive Txn where
  | pinConfigure (p : Pin) (m : PinMode)
  | pinRead (p : Pin) (v : Level)
  | pinWrite (p : Pin) (v : Level)
  | now (t : Nat)
  | sleepFor (d : Nat)
  | sleepUntil (t : Nat)
  deriving DecidableEq, Repr

/-- What the last operation returned (the column "result" of R100). -/
inductive Result where
  | nothing
  | level (v : Level)
  | time (t : Nat)
  | count (n : Nat)
  | polled (o : PollOutcome)
  | action (a : Action)
  | delta (us : Nat)
  deriving DecidableEq, Repr

/-- Whether the boot sequence has run (R250, R252). -/
inductive RunPhase where
  | powerOn
  | running
  deriving DecidableEq, Repr

/-- The state of the machine. -/
structure State where
  /-- The construction-time parameters (R7, R40): an argument of every operation, written by none. -/
  cfg : Params
  /-- Model's own: the boot sequence is still to come, or SCHED runs (R205, R252). -/
  run : RunPhase
  irdec : Irdec
  motor : Motor
  servoL : Servo
  servoR : Servo
  sched : Sched
  pins : Pins
  env : Env
  /-- Model's own: what the last operation returned. -/
  result : Result
  /-- Model's own: the port transactions issued so far, the newest first (R14). -/
  trace : List Txn
  /-- Model's own: operation words waiting to be executed (notes/assumptions/2.md). -/
  program : List Word
  deriving DecidableEq, Repr

/-! ## One setter per field -/

def State.setRun (s : State) (v : RunPhase) : State := { s with run := v }
def State.setIrdec (s : State) (v : Irdec) : State := { s with irdec := v }
def State.setMotor (s : State) (v : Motor) : State := { s with motor := v }
def State.setServoL (s : State) (v : Servo) : State := { s with servoL := v }
def State.setServoR (s : State) (v : Servo) : State := { s with servoR := v }
def State.setSched (s : State) (v : Sched) : State := { s with sched := v }
def State.setPins (s : State) (v : Pins) : State := { s with pins := v }
def State.setEnv (s : State) (v : Env) : State := { s with env := v }
def State.setResult (s : State) (v : Result) : State := { s with result := v }
def State.setTrace (s : State) (v : List Txn) : State := { s with trace := v }
def State.setProgram (s : State) (v : List Word) : State := { s with program := v }

/-- The registers of one servo instance. -/
def State.servo (s : State) : Side → Servo
  | .left => s.servoL
  | .right => s.servoR

def State.setServo (s : State) (x : Side) (v : Servo) : State :=
  match x with
  | .left => s.setServoL v
  | .right => s.setServoR v

/-! ## Why a step can stop -/

/-- The block has no exceptions, traps or crashes (R220): there is no fault. -/
inductive Fault where
  deriving DecidableEq, Repr

/-- Why the model gives a transition no successor. -/
inductive Refusal where
  /-- Raised by `exec` for a row that has no meaning yet; no arm does. Safe. -/
  | notModelled (mnemonic : String)
  /-- Raised by `step`: the waiting word encodes no row of the table. Safe. -/
  | undecodable (e : DecodeError)
  /-- Raised by whatever reads a pin that is not configured as an input (R112, U3). Safe. -/
  | pinNotInput (p : Pin)
  /-- Raised by whatever writes a pin that is not configured as an output, or `PIN_IR` (R113, U3). Safe. -/
  | pinNotOutput (p : Pin)
  /-- Raised by `configure` and `boot` on a pin that has a mode already (R111, U3). Safe. -/
  | pinReconfigured (p : Pin)
  /-- Raised by `boot` when the block is running (R250, U22). Safe. -/
  | secondBoot
  /-- Raised by START, BIT0 and BIT1 when the run counts given are not those of the symbol (R81). Safe. -/
  | notThatSymbol
  deriving DecidableEq, Repr

/-! ## Reset (R46, R250, R251) -/

/-- The registers of IRDEC after boot: idle; the others are unspecified (notes/assumptions/4.md). -/
def Irdec.reset : Irdec := { phase := .idle, count := 0, bitIdx := 0, data := { d0 := 0, d1 := 0, d2 := 0, d3 := 0 } }

def Motor.reset : Motor := { direction := .forward, dutyUs := 0, phase := .coasting }

def Servo.reset : Servo := { positionDeg := 0, pulsePhase := .lowPhase }

/-- The registers of SCHED after a boot that read `t0`; `now` is unspecified and keeps `n`. -/
def Sched.reset (t0 n : Nat) : Sched :=
  { rollCmd := 0, throttleCmd := 0, engineEnabled := false, nextServoL := t0, nextServoR := t0, nextMotor := t0, now := n }

/-- An output pin as boot leaves it: `output@OUT_DRIVE_MA`, driven `LOW` (R252). -/
def OutCell.reset (c : Params) : OutCell := { mode := some (.output c.outDrive), latch := .low }

/-- The pins as boot leaves them (R252). -/
def Pins.reset (c : Params) : Pins :=
  { irMode := some (.input c.irPinMode), motIn1 := OutCell.reset c, motIn2 := OutCell.reset c, srvL := OutCell.reset c,
    srvR := OutCell.reset c }

/-- The block with parameters `c` right after a boot that read the clock as `t0`. -/
def State.afterBoot (c : Params) (t0 : Nat) : State where
  cfg := c
  run := .running
  irdec := Irdec.reset
  motor := Motor.reset
  servoL := Servo.reset
  servoR := Servo.reset
  sched := Sched.reset t0 0
  pins := Pins.reset c
  env := { clock := t0, line := [], delays := [], freeUsed := 0 }
  result := .nothing
  trace := []
  program := []

/-- Reset means construction: the parameters are fixed and the boot sequence has run, once (R250). -/
def State.reset : State := State.afterBoot Config.params Config.freeBootTime

/-- The block with parameters `c` before its boot sequence: no pin has a mode yet. Every register holds what
`State.afterBoot` gives it, which boot writes anyway (notes/assumptions/3.md). -/
def State.beforeBoot (c : Params) (t : Nat) : State :=
  let cell : OutCell := { mode := none, latch := .low }
  ((State.afterBoot c t).setRun .powerOn).setPins
    { irMode := none, motIn1 := cell, motIn2 := cell, srvL := cell, srvR := cell }

end Sys2Proof.Machine
end

