-- ==== Sys2Proof/Machine/Operands.lean ====
section
/-! DEFINITION. Operands.lean: the arithmetic of the operands (R10): clamps, divisions, duty, mixing, slew, pulse width, the
8-bit check and the frame's bits. -/

namespace Sys2Proof.Machine

/-- `clamp(v, lo, hi)` (R10). -/
def clamp (v lo hi : Int) : Int := if v < lo then lo else if v > hi then hi else v

/-! ## MOTOR -/

/-- The clamped throttle percentage (R94, R151). -/
def clampPercent (percent : Int) : Int := clamp percent (-100) 100

/-- `duty_us = (MOTOR_PERIOD_US * abs(p)) div 100` (R151). -/
def dutyOf (c : Params) (percent : Int) : Nat := c.motorPeriodUs * (clampPercent percent).natAbs / 100

/-! ## SERVO -/

/-- `raw_deg = tdiv(signed_cmd * ROLL_MAX_DEG, 100)` (R96, R172). -/
def rawDeg (c : Params) (rollCmd : Int) (isLeft : Bool) : Int :=
  ((if isLeft then rollCmd else -rollCmd) * c.rollMaxDeg).tdiv 100

/-- The target deflection (R173). -/
def targetDeg (c : Params) (rollCmd : Int) (isLeft : Bool) : Int :=
  clamp (rawDeg c rollCmd isLeft) (-c.hardLimitDeg) c.hardLimitDeg

/-- One slew step from `p` toward `target` (R174). -/
def slewToward (c : Params) (p target : Int) : Int :=
  if target > p then p + min (c.slewPerFrameDeg : Int) (target - p)
  else if target < p then p - min (c.slewPerFrameDeg : Int) (p - target)
  else p

/-- `pseudo = clamp(position_deg + 90, 0, 180)` (R95, R175). -/
def pseudoAngle (p : Int) : Nat := (clamp (p + 90) 0 180).toNat

/-- `width_us` (R95, R175): product first, then floor division. -/
def pulseWidthUs (c : Params) (p : Int) : Nat :=
  c.servoMinUs + pseudoAngle p * (c.servoMaxUs - c.servoMinUs) / 180

/-- The length of the low sub-phase after a pulse of position `p`, floored at 1 (R177). -/
def lowIntervalUs (c : Params) (p : Int) : Nat := max 1 (c.servoFrameUs - pulseWidthUs c p)

/-! ## IRDEC -/

/-- `add8`, the 8-bit wrapping addition of the check (R10, R138). -/
def add8 (a b : Byte) : Byte := a + b

/-- A byte and its complement pass the check when their `add8` is `0xFF` (R85). -/
def checkPair (a b : Byte) : Bool := add8 a b == 0xFF

/-- Bit `j` of `b` set to `v`. -/
def writeBit (b : Byte) (j : Nat) (v : Bool) : Byte :=
  if v then b ||| (1#8 <<< j) else b &&& ~~~(1#8 <<< j)

/-- `data[k]` (R11, R24). -/
def Payload.byte (d : Payload) (k : Nat) : Byte :=
  match k with
  | 0 => d.d0
  | 1 => d.d1
  | 2 => d.d2
  | _ => d.d3

def Payload.setByte (d : Payload) (k : Nat) (b : Byte) : Payload :=
  match k with
  | 0 => { d with d0 := b }
  | 1 => { d with d1 := b }
  | 2 => { d with d2 := b }
  | _ => { d with d3 := b }

def Payload.zero : Payload := { d0 := 0, d1 := 0, d2 := 0, d3 := 0 }

/-- Payload bit `i`, which is bit `i mod 8` of `data[i div 8]` (R83). -/
def Payload.bit (d : Payload) (i : Nat) : Bool := (d.byte (i / 8)).getLsbD (i % 8)

/-- `data[i div 8][i mod 8] <- v` (R83, R136). -/
def Payload.setBit (d : Payload) (i : Nat) (v : Bool) : Payload :=
  d.setByte (i / 8) (writeBit (d.byte (i / 8)) (i % 8) v)

/-- Bit assembly (R81, R136): 1 when the high run is strictly longer than the threshold. -/
def bitOfRun (c : Params) (cHigh : Nat) : Bool := decide (cHigh > c.bitThreshold)

/-- `action_for` (R139): the table's action, `Raw` for every other byte (R90). -/
def actionFor (c : Params) (code : Byte) : Action :=
  match c.actionTable.find? (fun e => e.1 == code) with
  | some e => e.2
  | none => .raw code

/-- The checksum phase (R138): the address pair is tested first (R225). -/
def checkPayload (c : Params) (d : Payload) : PollOutcome :=
  if !checkPair d.d0 d.d1 then .aborted .checksumAddress
  else if !checkPair d.d2 d.d3 then .aborted .checksumCommand
  else .decoded (actionFor c d.d2)

/-! ## Samples on the line (R80, R81, 95_test_vectors.md section 0) -/

/-- The samples of a low run of `cLow` and the high run of `cHigh` after it, each with the read that ends it. -/
def runPair (cLow cHigh : Nat) : List Level :=
  List.replicate cLow .low ++ [.high] ++ List.replicate cHigh .high ++ [.low]

/-- The samples of the bit symbols of `d` from bit `i` on, `n` of them; `runs j` are the counts of bit `j`. -/
def bitSamples (runs : Nat → Nat × Nat) : Nat → Nat → List Level
  | _, 0 => []
  | i, n + 1 => runPair (runs i).1 (runs i).2 ++ bitSamples runs (i + 1) n

/-- The samples of a whole frame: the fast-path read, START, 32 bit symbols (R82). -/
def frameSamples (startLow startHigh : Nat) (runs : Nat → Nat × Nat) : List Level :=
  .low :: (runPair startLow startHigh ++ bitSamples runs 0 32)

/-- A low run and a high run are a START symbol (R81). -/
def isStart (c : Params) (cLow cHigh : Nat) : Bool := decide (cLow < c.startLowMax) && decide (cHigh < c.startHighMax)

/-- A low run and a high run are a BIT0 symbol (R81). -/
def isBit0 (c : Params) (cLow cHigh : Nat) : Bool :=
  decide (cLow < c.bitLowMax) && decide (cHigh ≤ c.bitThreshold) && decide (cHigh < c.bitHighMax)

/-- A low run and a high run are a BIT1 symbol (R81). -/
def isBit1 (c : Params) (cLow cHigh : Nat) : Bool :=
  decide (cLow < c.bitLowMax) && decide (c.bitThreshold < cHigh) && decide (cHigh < c.bitHighMax)

/-- The counts of the `j`-th run pair of a `NEC_FRAME`, whose row gives only the bit `v`: free values within the symbol's
ranges (R81), taken from the free counter's value `k` on (notes/assumptions/17.md). -/
def freeBitRuns (c : Params) (k j : Nat) (v : Bool) : Nat × Nat :=
  (Config.freeCount (k + 2 * j) % c.bitLowMax,
    if v then c.bitThreshold + 1 + Config.freeCount (k + 2 * j + 1) % (c.bitHighMax - (c.bitThreshold + 1))
    else Config.freeCount (k + 2 * j + 1) % (c.bitThreshold + 1))

/-- The samples of a frame that carries `d`, every run count free within its symbol's range. -/
def freeFrame (c : Params) (k : Nat) (d : Payload) : List Level :=
  frameSamples (Config.freeCount k % c.startLowMax) (Config.freeCount (k + 1) % c.startHighMax)
    (fun j => freeBitRuns c (k + 2) j (d.bit j))

end Sys2Proof.Machine
end

