-- ==== Sys2Proof/Machine/Flags.lean ====
section
/-! DEFINITION. Flags.lean: the block's flags (R44): motor direction and phase, servo pulse phase, engine enable. There are
no condition codes. -/

namespace Sys2Proof.Machine

/-- `REVERSE` for a negative percentage, `FORWARD` for zero and positive (R151). -/
def directionOf (percent : Int) : Direction := if clampPercent percent < 0 then .reverse else .forward

/-- `dircode`, the levels of `PIN_MOT_IN1` and `PIN_MOT_IN2` (R92, R152). -/
def dirCode : Direction → Level × Level
  | .forward => (.high, .low)
  | .reverse => (.low, .high)

/-- The coast code (R92). -/
def coastCode : Level × Level := (.low, .low)

/-- The phase a `service` enters (R152 to R155). -/
def servicePhase (c : Params) (m : Motor) : MotorPhase :=
  if m.dutyUs = 0 then .coasting
  else if m.dutyUs ≥ c.motorPeriodUs then .driving
  else if m.phase = .coasting then .driving
  else .coasting

/-- The code a `service` writes: the direction's in the drive phase, coast otherwise (R152). -/
def serviceCode (c : Params) (m : Motor) : Level × Level :=
  match servicePhase c m with
  | .driving => dirCode m.direction
  | .coasting => coastCode

/-- What a `service` returns (R152 to R155). -/
def serviceDelta (c : Params) (m : Motor) : Nat :=
  if m.dutyUs = 0 then c.motorPeriodUs
  else if m.dutyUs ≥ c.motorPeriodUs then c.motorPeriodUs
  else if m.phase = .coasting then m.dutyUs
  else max 1 (c.motorPeriodUs - m.dutyUs)

/-- The level an `update` drives, from the level last driven (R177). -/
def emittedLevel : PulsePhase → Level
  | .lowPhase => .high
  | .highPhase => .low

/-- `pulse_phase` after an `update`: it records the level just driven (R177). -/
def emittedPhase : PulsePhase → PulsePhase
  | .lowPhase => .highPhase
  | .highPhase => .lowPhase

/-- What an `update` returns at position `p` (R177). -/
def emittedDelta (c : Params) (p : Int) : PulsePhase → Nat
  | .lowPhase => pulseWidthUs c p
  | .highPhase => lowIntervalUs c p

end Sys2Proof.Machine
end

