-- ==== Sys2Proof/Machine/Ops.lean ====
section
/-! DEFINITION. Ops.lean: the named operations: port transactions (R11, R110 to R116), the guards of what the spec has a model
refuse (U3), the decode abort (R220) and the decoder's phases (R131 to R138). -/

namespace Sys2Proof.Machine

/-! ## Environment and transactions -/

/-- One transaction is recorded (R14). -/
def record (t : Txn) (s : State) : State := s.setTrace (t :: s.trace)

/-- A fresh value of the free counter is taken. -/
def useFree (n : Nat) (s : State) : State := s.setEnv { s.env with freeUsed := s.env.freeUsed + n }

/-- The environment makes the next clock reading or sleep late by some amount (R68, U5). -/
def nextDelay (e : Env) : Nat × Env :=
  match e.delays with
  | d :: rest => (d, { e with delays := rest })
  | [] => (Config.freeDelay e.freeUsed, { e with freeUsed := e.freeUsed + 1 })

/-- The clock advances to at least `t` (R68). -/
def advanceTo (t : Nat) (e : Env) : Env :=
  let (d, e') := nextDelay e
  { e' with clock := max e.clock t + d }

/-- The next level of the infrared line (R66). -/
def nextLevel (e : Env) : Level × Env :=
  match e.line with
  | v :: rest => (v, { e with line := rest })
  | [] => (Config.freeLevel e.freeUsed, { e with freeUsed := e.freeUsed + 1 })

/-- `PinRead(PIN_IR)` (R112). -/
def readIr (s : State) : Level × State :=
  let (v, e) := nextLevel s.env
  (v, record (.pinRead .ir v) (s.setEnv e))

/-- `PinRead(pin)` of any pin: a pin other than `PIN_IR` returns a level of the environment's choice (R66, R112). -/
def pinRead (p : Pin) (s : State) : Level × State :=
  match p with
  | .ir => readIr s
  | .out o =>
    let v := Config.freeLevel s.env.freeUsed
    (v, record (.pinRead (.out o) v) (useFree 1 s))

/-- `PinWrite(pin, level)` (R113): the latch takes the level. -/
def pinWrite (o : OutPin) (v : Level) (s : State) : State :=
  record (.pinWrite (.out o) v) (s.setPins (s.pins.setCell o { (s.pins.cell o) with latch := v }))

/-- `PinConfigure(pin, mode)` (R111). The level an output drives until its first write is a free value (R41, U2). -/
def pinConfigure (p : Pin) (m : PinMode) (s : State) : State :=
  match p, m with
  | .ir, m => record (.pinConfigure .ir m) (s.setPins { s.pins with irMode := some m })
  | .out o, .input q =>
    record (.pinConfigure (.out o) (.input q))
      (s.setPins (s.pins.setCell o { (s.pins.cell o) with mode := some (.input q) }))
  | .out o, .output d =>
    record (.pinConfigure (.out o) (.output d))
      (useFree 1 (s.setPins (s.pins.setCell o { mode := some (.output d), latch := Config.freeLevel s.env.freeUsed })))

/-- `Now()` (R114): not smaller than any earlier value (R68). -/
def clockRead (s : State) : Nat × State :=
  let e := advanceTo s.env.clock s.env
  (e.clock, record (.now e.clock) (s.setEnv e))

/-- `SleepFor(d)` (R115): returns no earlier than `d` after the call. -/
def sleepFor (d : Nat) (s : State) : State :=
  record (.sleepFor d) (s.setEnv (advanceTo (s.env.clock + d) s.env))

/-- `SleepUntil(t)` (R116): returns no earlier than the moment the clock shows `t`. -/
def sleepUntil (t : Nat) (s : State) : State :=
  record (.sleepUntil t) (s.setEnv (advanceTo t s.env))

/-- Time that passes on a pin without a transaction of the block: at least `d` (R68). -/
def hold (d : Nat) (s : State) : State := s.setEnv (advanceTo (s.env.clock + d) s.env)

/-! ## Guards -/

/-- What the operations answer. -/
abbrev Answer := Host.Outcome State Fault Refusal

def PinMode.isInput : PinMode → Bool
  | .input _ => true
  | .output _ => false

/-- An input mode makes `PinRead` legal (R111). -/
def readable (s : State) (p : Pin) : Bool :=
  match s.pins.mode p with
  | some m => PinMode.isInput m
  | none => false

/-- An output mode makes `PinWrite` legal, on one of the four output pins (R111, R113). -/
def writable (s : State) (o : OutPin) : Bool :=
  match (s.pins.cell o).mode with
  | some m => !PinMode.isInput m
  | none => false

/-- Misuse of the boundary has no rule: a model refuses it (R112, U3). -/
def needInput (p : Pin) (s : State) (k : Answer) : Answer :=
  if readable s p then k else .refused (.pinNotInput p)

/-- The same for a write (R113, U3). -/
def needOutput (o : OutPin) (s : State) (k : Answer) : Answer :=
  if writable s o then k else .refused (.pinNotOutput (.out o))

/-- Configuring a pin twice has no rule (R111, U3). -/
def needFresh (p : Pin) (s : State) (k : Answer) : Answer :=
  if (s.pins.mode p).isNone then k else .refused (.pinReconfigured p)

/-- All five pins are in the modes `iterate` uses. -/
def needPins (s : State) (k : Answer) : Answer :=
  needInput .ir s (needOutput .motIn1 s (needOutput .motIn2 s (needOutput .srvL s (needOutput .srvR s k))))

/-! ## IRDEC -/

def setPhase (p : IrPhase) (s : State) : State := s.setIrdec { s.irdec with phase := p }

def setCount (n : Nat) (s : State) : State := s.setIrdec { s.irdec with count := n }

/-- The one early end of an operation, shared by all 68 reasons (R220, R221, R227): IRDEC is idle again, `poll` returns
`None`, nothing else changes; the other IRDEC registers keep their values, which is the model's choice
(notes/assumptions/28.md). -/
def abortPoll (r : AbortReason) (s : State) : State := (setPhase .idle s).setResult (.polled (.aborted r))

/-- The ordinary return from a `poll` (R140). What `IRDEC.count`, `bit_idx` and `data` hold from here to the next `poll` is
left open (U1); that they keep what this `poll` wrote is the model's choice (DESIGN CHOICE, notes/assumptions/28.md). -/
def returnPoll (o : PollOutcome) (s : State) : State := (setPhase .idle s).setResult (.polled o)

/-- The loop of `measure_run` with `fuel = cap - count` (R131). -/
def measureLoop (level : Level) : Nat → State → State
  | 0, s => s
  | fuel + 1, s =>
    match readIr s with
    | (v, s1) =>
      if v ≠ level then s1
      else measureLoop level fuel (sleepFor s1.cfg.tSUs (setCount (s1.irdec.count + 1) s1))

/-- `measure_run(level, cap)` (R131); the count stands in `IRDEC.count`. -/
def measureRun (level : Level) (cap : Nat) (s : State) : State := measureLoop level cap (setCount 0 s)

/-- A run is measured; at its cap the `poll` aborts for reason `r` (R133), below it `k` goes on. -/
def measureOrAbort (level : Level) (cap : Nat) (r : AbortReason) (k : State → State) (s : State) : State :=
  let s1 := measureRun level cap s
  if s1.irdec.count = cap then abortPoll r s1 else k s1

/-- The payload phase begins: data cleared, bit 0 awaited (R136). -/
def beginPayload (s : State) : State :=
  s.setIrdec { s.irdec with phase := .bitLow, bitIdx := 0, data := Payload.zero }

/-- A bit's high run has been accepted: the bit is stored, and the next bit or the checksum phase follows (R136, R138). -/
def storeBit (s : State) : State :=
  let i := s.irdec.bitIdx
  let d := s.irdec.data.setBit i.val (bitOfRun s.cfg s.irdec.count)
  if h : i.val + 1 < 32 then s.setIrdec { s.irdec with data := d, phase := .bitLow, bitIdx := ⟨i.val + 1, h⟩ }
  else s.setIrdec { s.irdec with data := d, phase := .check }

/-- One phase of the decode attempt: R134, R135, R136 (its two runs), R138. -/
def decodePhase (s : State) : State :=
  match s.irdec.phase with
  | .idle => s
  | .startLow => measureOrAbort .low s.cfg.startLowMax .startLowTimeout (setPhase .startHigh) s
  | .startHigh => measureOrAbort .high s.cfg.startHighMax .startHighTimeout beginPayload s
  | .bitLow => measureOrAbort .low s.cfg.bitLowMax (.bitLowTimeout s.irdec.bitIdx) (setPhase .bitHigh) s
  | .bitHigh => measureOrAbort .high s.cfg.bitHighMax (.bitHighTimeout s.irdec.bitIdx) storeBit s
  | .check => returnPoll (checkPayload s.cfg s.irdec.data) s

/-- At most `n` phases, until the attempt ends. -/
def runPhases : Nat → State → State
  | 0, s => s
  | n + 1, s => if s.irdec.phase = .idle then s else runPhases n (decodePhase s)

/-- START has two runs, each of the 32 bits two more, and the checksum phase ends the attempt (R134 to R138). -/
def phasesPerPoll : Nat := 2 + 32 * 2 + 1

/-- `poll()` (R132, R140): the fast path, or one decode attempt. The outcome stands in `result`. -/
def poll (s : State) : State :=
  match readIr s with
  | (.high, s1) => s1.setResult (.polled .noSignal)
  | (.low, s1) => runPhases phasesPerPoll (setPhase .startLow s1)

/-- The attempt in progress, if there is one, runs on to completion or to one of its timeouts (R141). An idle decoder is left
as it is. -/
@[irreducible] def finishAttempt (s : State) : State := runPhases phasesPerPoll s

/-- An operation completes before the next one starts (R13): one that is given while a decode attempt is in progress starts
in the state the attempt ends in (R141, U19; notes/assumptions/26.md). -/
def afterAttempt (s : State) (k : State → Answer) : Answer :=
  if s.irdec.phase = .idle then k s else needInput .ir s (k (finishAttempt s))

/-- One `poll` makes one attempt (R141): a new one from idle, or else the one in progress, to its end
(notes/assumptions/26.md). -/
def runPoll (s : State) : State := if s.irdec.phase = .idle then poll s else finishAttempt s

/-- The `Option<Action>` the last `poll` returned; the abort reason is not looked at (R222). -/
def polledAction (s : State) : Option Action :=
  match s.result with
  | .polled o => o.returned
  | .nothing | .level _ | .time _ | .count _ | .action _ | .delta _ => none

/-- The environment puts samples on the line, before whatever it had in store (R66). -/
def present (samples : List Level) (s : State) : State :=
  s.setEnv { s.env with line := samples ++ s.env.line }

/-- The level of the fast-path read that a `poll` makes before its first run, if none is in progress (R132). -/
def leadIn (s : State) : List Level := if s.irdec.phase = .idle then [.low] else []

/-- An idle decoder starts an attempt on a line seen `LOW` (R132). -/
def beginAttempt (s : State) : State :=
  if s.irdec.phase = .idle then
    match readIr s with
    | (.high, s1) => s1.setResult (.polled .noSignal)
    | (.low, s1) => setPhase .startLow s1
  else s

/-- The decoder receives one symbol: it begins an attempt if it is idle, measures the two runs, and checks the payload
after the last bit (R134 to R138; notes/assumptions/15.md). -/
def receive (s : State) : State :=
  let s1 := decodePhase (beginAttempt (s.setResult .nothing))
  let s2 := if s1.irdec.phase = .idle then s1 else decodePhase s1
  if s2.irdec.phase = .check then decodePhase s2 else s2

/-- The caps of the two runs the decoder awaits (R81). -/
def awaitedCaps (s : State) : Nat × Nat :=
  match s.irdec.phase with
  | .idle | .startLow | .startHigh => (s.cfg.startLowMax, s.cfg.startHighMax)
  | .bitLow | .bitHigh | .check => (s.cfg.bitLowMax, s.cfg.bitHighMax)

/-! ## MOTOR and SERVO -/

/-- The two pin writes of one motor code, in the order `MOTOR_WRITE_ORDER` (R156, R157). -/
def writePins (code : Level × Level) (s : State) : State :=
  match s.cfg.motorWriteOrder with
  | .in1First => pinWrite .motIn2 code.2 (pinWrite .motIn1 code.1 s)
  | .in2First => pinWrite .motIn1 code.1 (pinWrite .motIn2 code.2 s)

/-- `set_throttle(percent)` (R151). -/
def setThrottle (percent : Int) (s : State) : State :=
  s.setMotor { s.motor with direction := directionOf percent, dutyUs := dutyOf s.cfg percent }

/-- `service` (R152): the returned delta and the new state. -/
def serviceMotor (s : State) : Nat × State :=
  let m := s.motor
  (serviceDelta s.cfg m, (writePins (serviceCode s.cfg m) s).setMotor { m with phase := servicePhase s.cfg m })

/-- The pin of a servo instance (R170). -/
def servoPin : Side → OutPin
  | .left => .srvL
  | .right => .srvR

/-- `update` (R171): target, slew, width, emission in that order (R176); the returned delta and the new state. -/
def updateServo (x : Side) (rollCmd : Int) (isLeft : Bool) (s : State) : Nat × State :=
  let v := s.servo x
  let p := slewToward s.cfg v.positionDeg (targetDeg s.cfg rollCmd isLeft)
  (emittedDelta s.cfg p v.pulsePhase,
    (pinWrite (servoPin x) (emittedLevel v.pulsePhase) s).setServo x
      { positionDeg := p, pulsePhase := emittedPhase v.pulsePhase })

/-! ## SCHED: action application (R193 to R197) -/

def setThrottleCmd (v : Int) (s : State) : State := s.setSched { s.sched with throttleCmd := v }

def setRollCmd (v : Int) (s : State) : State := s.setSched { s.sched with rollCmd := v }

/-- `VolumeUp` (R194). -/
def volumeUp (s : State) : State := setThrottleCmd (clamp (s.sched.throttleCmd + s.cfg.throttleStep) 0 100) s

/-- `VolumeDown` (R194). -/
def volumeDown (s : State) : State := setThrottleCmd (clamp (s.sched.throttleCmd - s.cfg.throttleStep) 0 100) s

/-- `PowerToggle` (R195): newly enabled loads `ARMED_THROTTLE`, newly disabled loads 0. -/
def powerToggle (s : State) : State :=
  let on := !s.sched.engineEnabled
  s.setSched { s.sched with engineEnabled := on, throttleCmd := if on then s.cfg.armedThrottle else 0 }

/-- `RollLeft` (R196). -/
def rollLeft (s : State) : State := setRollCmd (clamp (s.sched.rollCmd - s.cfg.rollStep) (-100) 100) s

/-- `RollRight` (R196). -/
def rollRight (s : State) : State := setRollCmd (clamp (s.sched.rollCmd + s.cfg.rollStep) (-100) 100) s

/-- `apply_action(a)` (R193 to R197). -/
def applyAction (a : Action) (s : State) : State :=
  match a with
  | .noseUp => s
  | .noseDown => s
  | .rollLeft => rollLeft s
  | .rollRight => rollRight s
  | .volumeUp => volumeUp s
  | .volumeDown => volumeDown s
  | .powerToggle => powerToggle s
  | .select => s
  | .numeric _ => s
  | .raw _ => s

end Sys2Proof.Machine
end

