-- ==== Sys2Proof/Machine/Hal.lean ====
section
/-! DEFINITION. Hal.lean: the meanings of the boundary operations (40_hal_ops.md). -/

namespace Sys2Proof.Machine

/-- `configure(pin, mode)` (R111). -/
def execConfigure (p : Pin) (m : PinMode) (s : State) : Answer :=
  afterAttempt s fun s => needFresh p s (.next ((pinConfigure p m s).setResult .nothing))

/-- `read(pin) -> bool` (R112). A `poll` in progress makes it itself, so it runs there as it stands. -/
def execRead (p : Pin) (s : State) : Answer :=
  needInput p s (.next ((pinRead p s).2.setResult (.level (pinRead p s).1)))

/-- `write(pin, bool)` (R113): one of the four output pins. -/
def execWrite (p : Pin) (v : Level) (s : State) : Answer :=
  match p with
  | .ir => .refused (.pinNotOutput .ir)
  | .out o => afterAttempt s fun s => needOutput o s (.next ((pinWrite o v s).setResult .nothing))

/-- `now() -> u64` (R114). -/
def execNow (s : State) : Answer :=
  afterAttempt s fun s => .next ((clockRead s).2.setResult (.time (clockRead s).1))

/-- `sleep_for(d)` (R115). A `poll` in progress makes it itself, so it runs there as it stands. -/
def execSleepFor (d : Nat) (s : State) : Answer := .next ((sleepFor d s).setResult .nothing)

/-- `sleep_until(t)` (R116). -/
def execSleepUntil (t : Nat) (s : State) : Answer := afterAttempt s fun s => .next ((sleepUntil t s).setResult .nothing)

end Sys2Proof.Machine
end

