-- ==== Sys2Proof/Machine/Irdec.lean ====
section
/-! DEFINITION. Irdec.lean: the meanings of the decoder's operations and of the infrared symbols and frame
(41_ir_decoder.md, 30_encoding.md section 1). -/

namespace Sys2Proof.Machine

/-- `measure_run(level, cap) -> count` (R131). A `poll` in progress makes it itself, so it runs there as it stands. -/
def execMeasureRun (level : Level) (cap : Nat) (s : State) : Answer :=
  needInput .ir s (.next ((measureRun level cap s).setResult (.count (measureRun level cap s).irdec.count)))

/-- `poll() -> Option<Action>` (R132, R140, R141). -/
def execPoll (s : State) : Answer := needInput .ir s (.next (runPoll s))

/-- `action_for(code) -> Action` (R139): it reads and writes no state but the result. -/
def execActionFor (code : Byte) (s : State) : Answer := .next (s.setResult (.action (actionFor s.cfg code)))

/-- NEC_FRAME (R82 to R86): a frame with these four bytes stands on the line and one `poll` decodes it. The row gives the
bits and no run counts, so every count is a free value within its symbol's range (notes/assumptions/17.md). -/
def execNecFrame (a an c cn : Byte) (s : State) : Answer :=
  afterAttempt s fun s => needInput .ir s (.next (poll (useFree 66
    (present (freeFrame s.cfg s.env.freeUsed { d0 := a, d1 := an, d2 := c, d3 := cn }) s))))

/-- START (R81, R134, R135), received in whatever phase the decoder is in (notes/assumptions/15.md). -/
def execStart (cLow cHigh : Nat) (s : State) : Answer :=
  needInput .ir s
    (if isStart s.cfg cLow cHigh then .next (receive (present (leadIn s ++ runPair cLow cHigh) s))
     else .refused .notThatSymbol)

/-- BIT0 (R81, R136). -/
def execBit0 (cLow cHigh : Nat) (s : State) : Answer :=
  needInput .ir s
    (if isBit0 s.cfg cLow cHigh then .next (receive (present (leadIn s ++ runPair cLow cHigh) s))
     else .refused .notThatSymbol)

/-- BIT1 (R81, R136). -/
def execBit1 (cLow cHigh : Nat) (s : State) : Answer :=
  needInput .ir s
    (if isBit1 s.cfg cLow cHigh then .next (receive (present (leadIn s ++ runPair cLow cHigh) s))
     else .refused .notThatSymbol)

/-- The samples of a pair of runs one of which reaches its cap: the low run, or the high run after a low run of `cLow`;
a `cLow` at or above the low cap reaches that cap first (R133). -/
def stuckSamples (stuck : Level) (cLow : Nat) (s : State) : List Level :=
  match stuck with
  | .low => List.replicate (awaitedCaps s).1 .low
  | .high =>
    if cLow < (awaitedCaps s).1 then
      List.replicate cLow .low ++ [.high] ++ List.replicate (awaitedCaps s).2 .high
    else List.replicate (awaitedCaps s).1 .low

/-- NO_SYMBOL (R81, R133): a run whose count equals its cap aborts the `poll` (notes/assumptions/16.md). -/
def execNoSymbol (stuck : Level) (cLow : Nat) (s : State) : Answer :=
  needInput .ir s (.next (receive (present (leadIn s ++ stuckSamples stuck cLow s) s)))

end Sys2Proof.Machine
end

