-- ==== Sys2Proof/Machine/Motor.lean ====
section
/-! DEFINITION. Motor.lean: the meanings of the motor's operations and pin codes (42_motor.md, 30_encoding.md section 3). -/

namespace Sys2Proof.Machine

/-- `set_throttle(percent)` (R151): no pin, no phase. -/
def execSetThrottle (percent : Int) (s : State) : Answer :=
  afterAttempt s fun s => .next ((setThrottle percent s).setResult .nothing)

/-- `service(now) -> delta_us` (R152): `now` is used in no computation. -/
def execService (_now : Nat) (s : State) : Answer :=
  afterAttempt s fun s => needOutput .motIn1 s (needOutput .motIn2 s
    (.next ((serviceMotor s).2.setResult (.delta (serviceMotor s).1))))

/-- A motor pin code stands on the two pins (R92; notes/assumptions/19.md): the two writes of R156, no register. -/
def putCode (code : Level × Level) (s : State) : Answer :=
  afterAttempt s fun s => needOutput .motIn1 s (needOutput .motIn2 s (.next ((writePins code s).setResult .nothing)))

/-- MOTOR_FORWARD: in1 high, in2 low (R92). -/
def execMotorForward (s : State) : Answer := putCode (.high, .low) s

/-- MOTOR_REVERSE: in1 low, in2 high (R92). -/
def execMotorReverse (s : State) : Answer := putCode (.low, .high) s

/-- MOTOR_COAST: both low (R92). -/
def execMotorCoast (s : State) : Answer := putCode (.low, .low) s

/-- MOTOR_UNDEFINED: both high has no meaning (R93); "when it occurs the model records the two latch levels and nothing
more" (U6). -/
def execMotorUndefined (s : State) : Answer := putCode (.high, .high) s

end Sys2Proof.Machine
end

