-- ==== Sys2Proof/Machine/Sched.lean ====
section
/-! DEFINITION. Sched.lean: the meanings of the actions, of `apply_action`, `iterate` and `boot` (44_scheduler.md,
70_reset_and_hazards.md). -/

namespace Sys2Proof.Machine

/-- `apply_action(a)` (R193). -/
def execApplyAction (a : Action) (s : State) : Answer := afterAttempt s fun s => .next ((applyAction a s).setResult .nothing)

/-! ## The rows of the actions: each is its effect on the command state (R194 to R197) -/

/-- NoseUp changes nothing (R197). -/
def execNoseUp (s : State) : Answer := afterAttempt s fun s => .next (s.setResult .nothing)

/-- NoseDown changes nothing (R197). -/
def execNoseDown (s : State) : Answer := afterAttempt s fun s => .next (s.setResult .nothing)

/-- RollLeft (R196). -/
def execRollLeft (s : State) : Answer := afterAttempt s fun s => .next ((rollLeft s).setResult .nothing)

/-- RollRight (R196). -/
def execRollRight (s : State) : Answer := afterAttempt s fun s => .next ((rollRight s).setResult .nothing)

/-- VolumeUp (R194). -/
def execVolumeUp (s : State) : Answer := afterAttempt s fun s => .next ((volumeUp s).setResult .nothing)

/-- VolumeDown (R194). -/
def execVolumeDown (s : State) : Answer := afterAttempt s fun s => .next ((volumeDown s).setResult .nothing)

/-- PowerToggle (R195). -/
def execPowerToggle (s : State) : Answer := afterAttempt s fun s => .next ((powerToggle s).setResult .nothing)

/-- Select changes nothing (R197). -/
def execSelect (s : State) : Answer := afterAttempt s fun s => .next (s.setResult .nothing)

/-- Numeric(d) changes nothing, for every `d` (R197). -/
def execNumeric (_digit : Fin 10) (s : State) : Answer := afterAttempt s fun s => .next (s.setResult .nothing)

/-- Raw(b) changes nothing, for every `b` (R197). -/
def execRaw (_byte : Byte) (s : State) : Answer := afterAttempt s fun s => .next (s.setResult .nothing)

/-! ## iterate (R190) -/

/-- Step 1 (R191): the one clock reading of the iteration. -/
def readNow (s : State) : State :=
  let (t, s1) := clockRead s
  s1.setSched { s1.sched with now := t }

/-- Step 2 (R192): one poll; an action it returns is applied once. -/
def pollAndApply (s : State) : State :=
  let s1 := runPoll s
  match polledAction s1 with
  | some a => applyAction a s1
  | none => s1

/-- Step 3 (R198): the gated throttle. -/
def gateThrottle (s : State) : State :=
  setThrottle (if s.sched.engineEnabled then s.sched.throttleCmd else 0) s

/-- Step 4 for SERVO_L (R199). -/
def dispatchServoL (s : State) : State :=
  if s.sched.now ≥ s.sched.nextServoL then
    let (d, s1) := updateServo .left s.sched.rollCmd true s
    s1.setSched { s1.sched with nextServoL := s1.sched.nextServoL + d }
  else s

/-- Step 4 for SERVO_R (R199). -/
def dispatchServoR (s : State) : State :=
  if s.sched.now ≥ s.sched.nextServoR then
    let (d, s1) := updateServo .right s.sched.rollCmd false s
    s1.setSched { s1.sched with nextServoR := s1.sched.nextServoR + d }
  else s

/-- Step 4 for MOTOR (R199). -/
def dispatchMotor (s : State) : State :=
  if s.sched.now ≥ s.sched.nextMotor then
    let (d, s1) := serviceMotor s
    s1.setSched { s1.sched with nextMotor := s1.sched.nextMotor + d }
  else s

/-- The soonest deadline (R201). -/
def soonest (h : Sched) : Nat := min (min h.nextServoL h.nextServoR) h.nextMotor

/-- Step 5 (R201). -/
def sleepToSoonest (s : State) : State :=
  if soonest s.sched > s.sched.now then sleepUntil (soonest s.sched) s else s

/-- The five steps in the document's order (R190). -/
def iterateState (s : State) : State :=
  sleepToSoonest (dispatchMotor (dispatchServoR (dispatchServoL (gateThrottle (pollAndApply (readNow s))))))

/-- `iterate()` (R190). No rule places one before the boot sequence (R190, R250); that a waiting `iterate` word runs there too,
once the five pins have their modes, is the model's choice (DESIGN CHOICE, notes/assumptions/29.md). A decode attempt in
progress is the iteration's `poll`: it runs to its end and its action is applied, so SCHED never stops (R141, R205;
notes/assumptions/26.md). -/
def execIterate (s : State) : Answer := needPins s (.next ((iterateState s).setResult .nothing))

/-! ## boot (R252) -/

/-- One output pin's line of the boot sequence. -/
def bootPin (o : OutPin) (s : State) : State :=
  pinWrite o .low (pinConfigure (.out o) (.output s.cfg.outDrive) s)

/-- The pin lines of the boot sequence. -/
def bootPins (s : State) : State :=
  bootPin .srvR (bootPin .srvL (bootPin .motIn2 (bootPin .motIn1 (pinConfigure .ir (.input s.cfg.irPinMode) s))))

/-- Every register that R46 gives a value takes it; the unspecified ones keep theirs (U1, notes/assumptions/4.md). -/
def bootRegisters (s : State) : State :=
  let (t0, s1) := clockRead s
  (((((s1.setIrdec { s1.irdec with phase := .idle }).setMotor Motor.reset).setServoL Servo.reset).setServoR
    Servo.reset).setSched (Sched.reset t0 s1.sched.now)).setRun .running

/-- `boot()` (R252): once (U22), on pins that have no mode yet (U3). What comes after it, `iterate` for ever, is `step`'s. -/
def execBoot (s : State) : Answer :=
  match s.run with
  | .running => .refused .secondBoot
  | .powerOn =>
    afterAttempt s fun s => needFresh .ir s (needFresh (.out .motIn1) s (needFresh (.out .motIn2) s (needFresh (.out .srvL) s
      (needFresh (.out .srvR) s (.next ((bootRegisters (bootPins s)).setResult .nothing))))))

end Sys2Proof.Machine
end

