-- ==== Sys2Proof/Machine/Servo.lean ====
section
/-! DEFINITION. Servo.lean: the meanings of `update` and of the servo pulse code (43_servo.md, 30_encoding.md section 4). -/

namespace Sys2Proof.Machine

/-- `update(roll_cmd, is_left) -> delta_us` of instance `x` (R171). Any `is_left` is a legal argument (U16). -/
def execUpdate (x : Side) (rollCmd : Int) (isLeft : Bool) (s : State) : Answer :=
  afterAttempt s fun s => needOutput (servoPin x) s
    (.next ((updateServo x rollCmd isLeft s).2.setResult (.delta (updateServo x rollCmd isLeft s).1)))

/-- One whole pulse of the present position: `HIGH` for `width_us`, then `LOW` for the rest of the frame (R95, R177). It
writes no register: `position_deg` and `pulse_phase` are written by `update` only (R30, R31). -/
def emitPulse (x : Side) (s : State) : State :=
  let p := (s.servo x).positionDeg
  let up := hold (pulseWidthUs s.cfg p) (pinWrite (servoPin x) .high s)
  hold (lowIntervalUs s.cfg p) (pinWrite (servoPin x) .low up)

/-- SERVO_PULSE (R95, R175, R177; notes/assumptions/20.md); the result is the frame's length. -/
def execServoPulse (x : Side) (s : State) : Answer :=
  afterAttempt s fun s => needOutput (servoPin x) s
    (.next ((emitPulse x s).setResult
      (.delta (pulseWidthUs s.cfg (s.servo x).positionDeg + lowIntervalUs s.cfg (s.servo x).positionDeg))))

end Sys2Proof.Machine
end

