-- ==== Sys2Proof/Machine/Dispatch.lean ====
section
/-! DEFINITION. Dispatch.lean: one arm per row of spec/opcode_table.json. -/

namespace Sys2Proof.Machine

def exec (i : Instr) (s : State) : Host.Outcome State Fault Refusal :=
  match i with
  | .configure p m => Sys2Proof.Machine.execConfigure p m s
  | .read p => Sys2Proof.Machine.execRead p s
  | .write p v => Sys2Proof.Machine.execWrite p v s
  | .now => Sys2Proof.Machine.execNow s
  | .sleepFor d => Sys2Proof.Machine.execSleepFor d s
  | .sleepUntil t => Sys2Proof.Machine.execSleepUntil t s
  | .measureRun v cap => Sys2Proof.Machine.execMeasureRun v cap s
  | .poll => Sys2Proof.Machine.execPoll s
  | .actionFor code => Sys2Proof.Machine.execActionFor code s
  | .setThrottle percent => Sys2Proof.Machine.execSetThrottle percent s
  | .service t => Sys2Proof.Machine.execService t s
  | .update x rollCmd isLeft => Sys2Proof.Machine.execUpdate x rollCmd isLeft s
  | .applyAction a => Sys2Proof.Machine.execApplyAction a s
  | .iterate => Sys2Proof.Machine.execIterate s
  | .boot => Sys2Proof.Machine.execBoot s
  | .necFrame a an c cn => Sys2Proof.Machine.execNecFrame a an c cn s
  | .start cLow cHigh => Sys2Proof.Machine.execStart cLow cHigh s
  | .bit0 cLow cHigh => Sys2Proof.Machine.execBit0 cLow cHigh s
  | .bit1 cLow cHigh => Sys2Proof.Machine.execBit1 cLow cHigh s
  | .noSymbol stuck cLow => Sys2Proof.Machine.execNoSymbol stuck cLow s
  | .noseUp => Sys2Proof.Machine.execNoseUp s
  | .noseDown => Sys2Proof.Machine.execNoseDown s
  | .rollLeft => Sys2Proof.Machine.execRollLeft s
  | .rollRight => Sys2Proof.Machine.execRollRight s
  | .volumeUp => Sys2Proof.Machine.execVolumeUp s
  | .volumeDown => Sys2Proof.Machine.execVolumeDown s
  | .powerToggle => Sys2Proof.Machine.execPowerToggle s
  | .select => Sys2Proof.Machine.execSelect s
  | .numeric d => Sys2Proof.Machine.execNumeric d s
  | .raw b => Sys2Proof.Machine.execRaw b s
  | .motorForward => Sys2Proof.Machine.execMotorForward s
  | .motorReverse => Sys2Proof.Machine.execMotorReverse s
  | .motorCoast => Sys2Proof.Machine.execMotorCoast s
  | .motorUndefined => Sys2Proof.Machine.execMotorUndefined s
  | .servoPulse x => Sys2Proof.Machine.execServoPulse x s

end Sys2Proof.Machine
end

