-- ==== Sys2Proof/Machine/Fetch.lean ====
section
/-! DEFINITION. Fetch.lean: where the next operation comes from (notes/assumptions/2.md): the waiting operation words, or
else the block's fixed behaviour. -/

namespace Sys2Proof.Machine

/-- What the block does next. -/
inductive NextOp where
  /-- The first waiting word encodes this row; the other words wait on. -/
  | given (i : Instr) (rest : List Word)
  /-- Nothing waits: SCHED's own next operation (R190, R205, R252). -/
  | own (i : Instr)
  /-- The first waiting word encodes no row. -/
  | bad (e : DecodeError)
  deriving DecidableEq, Repr

/-- SCHED's own next operation: the boot sequence once, then one iteration after another (R43, R190, R205, R252). -/
def ownOp : RunPhase → Instr
  | .powerOn => .boot
  | .running => .iterate

def fetch (s : State) : NextOp :=
  match s.program with
  | [] => .own (ownOp s.run)
  | w :: rest =>
    match decode w with
    | .ok i => .given i rest
    | .error e => .bad e

/-- The word of a table row: `nbits` bits of `w`, every bit above them 0. -/
def tableWord (nbits w : Nat) : Word := BitVec.ofNat 72 (w % 2 ^ nbits)

end Sys2Proof.Machine
end

