-- ==== Sys2Proof/Machine/Step.lean ====
section
/-! DEFINITION. Step.lean: one step of the machine. -/

namespace Sys2Proof.Machine

/-- One step: a waiting operation word is decoded and run; with none waiting, the block does what it does by itself. -/
def step (s : State) : Host.Outcome State Fault Refusal :=
  match fetch s with
  | .given i rest => exec i (s.setProgram rest)
  | .own i => exec i s
  | .bad e => .refused (.undecodable e)

/-- `s` with a table row's word waiting as the next operation. -/
def State.withFetchWord (s : State) (nbits w : Nat) : State := s.setProgram (tableWord nbits w :: s.program)

end Sys2Proof.Machine
end

