-- ==== Sys2Proof/Safety.lean ====
section
/-! DEFINITION. Safety.lean: the ranges the spec gives the registers, what holds between SCHED's own iterations, and runs of
several operations, in the terms the statements use. -/

namespace Sys2Proof.Machine

/-- The ranges of the registers (R27, R30, R34, R35), for parameters that meet R8. -/
abbrev State.InRange (s : State) : Prop :=
  s.cfg.legal = true
  ∧ s.motor.dutyUs ≤ s.cfg.motorPeriodUs
  ∧ (-(s.cfg.hardLimitDeg : Int) ≤ s.servoL.positionDeg ∧ s.servoL.positionDeg ≤ s.cfg.hardLimitDeg)
  ∧ (-(s.cfg.hardLimitDeg : Int) ≤ s.servoR.positionDeg ∧ s.servoR.positionDeg ≤ s.cfg.hardLimitDeg)
  ∧ (-100 ≤ s.sched.rollCmd ∧ s.sched.rollCmd ≤ 100)
  ∧ (0 ≤ s.sched.throttleCmd ∧ s.sched.throttleCmd ≤ 100)

/-- `PIN_IR` is in an input mode and the four output pins are in output modes, as boot leaves them (R61, R252). -/
abbrev State.PinsReady (s : State) : Prop :=
  readable s .ir = true ∧ writable s .motIn1 = true ∧ writable s .motIn2 = true ∧ writable s .srvL = true
  ∧ writable s .srvR = true

/-- The level that a recorded pulse phase says the servo pin has (R31). -/
def levelOfPulse : PulsePhase → Level
  | .highPhase => .high
  | .lowPhase => .low

/-- The level that the recorded motor phase gives `PIN_MOT_IN1` while the direction is `FORWARD` (R28, R92). -/
def levelOfMotor : MotorPhase → Level
  | .driving => .high
  | .coasting => .low

/-- What holds between the iterations that SCHED makes by itself: no operation waits, the motor is only commanded forward
(R198), the latches agree with the recorded phases (R28, R31), and the registers are in range. The decoder may be in any
phase (R21). -/
abbrev State.Settled (s : State) : Prop :=
  s.InRange ∧ s.PinsReady ∧ s.run = .running ∧ s.program = []
  ∧ s.motor.direction = .forward
  ∧ s.pins.motIn1.latch = levelOfMotor s.motor.phase ∧ s.pins.motIn2.latch = .low
  ∧ s.pins.srvL.latch = levelOfPulse s.servoL.pulsePhase ∧ s.pins.srvR.latch = levelOfPulse s.servoR.pulsePhase

/-- `i` is a row START, BIT0 or BIT1 with these run counts, and the counts are those of its symbol (R81). -/
abbrev IsSymbol (c : Params) (i : Instr) (cLow cHigh : Nat) : Prop :=
  (i = .start cLow cHigh ∧ isStart c cLow cHigh = true) ∨ (i = .bit0 cLow cHigh ∧ isBit0 c cLow cHigh = true)
  ∨ (i = .bit1 cLow cHigh ∧ isBit1 c cLow cHigh = true)

/-- The 32 bit symbols of a frame as rows (R82); `runs j` are the counts of bit `j`. -/
def bitRows (c : Params) (runs : Nat → Nat × Nat) : List Instr :=
  (List.range 32).map fun j =>
    if bitOfRun c (runs j).2 then .bit1 (runs j).1 (runs j).2 else .bit0 (runs j).1 (runs j).2

/-- The rows that run at once in every phase of the decoder: those a `poll` in progress is made of, and `poll` and `iterate`,
which take an attempt in progress for their own. All others start when the attempt has ended (R13, R141). -/
def runsInsidePoll : Instr → Bool
  | .read _ => true
  | .sleepFor _ => true
  | .measureRun _ _ => true
  | .actionFor _ => true
  | .start _ _ => true
  | .bit0 _ _ => true
  | .bit1 _ _ => true
  | .noSymbol _ _ => true
  | .poll => true
  | .iterate => true
  | .configure _ _ | .write _ _ | .now | .sleepUntil _ | .setThrottle _ | .service _ | .update _ _ _
  | .applyAction _ | .boot | .necFrame _ _ _ _ => false
  | .noseUp | .noseDown | .rollLeft | .rollRight | .volumeUp | .volumeDown | .powerToggle | .select | .numeric _
  | .raw _ => false
  | .motorForward | .motorReverse | .motorCoast | .motorUndefined | .servoPulse _ => false

/-- Operations one after another, stopping at the first that does not answer a next state. -/
def execAll : List Instr → State → Host.Outcome State Fault Refusal
  | [], s => .next s
  | i :: is, s =>
    match exec i s with
    | .next t => execAll is t
    | .fault f => .fault f
    | .refused r => .refused r

/-- The two transactions of one motor code, the newest first (R156, R157). -/
def motorWrites (c : Params) (code : Level × Level) : List Txn :=
  match c.motorWriteOrder with
  | .in1First => [.pinWrite (.out .motIn2) code.2, .pinWrite (.out .motIn1) code.1]
  | .in2First => [.pinWrite (.out .motIn1) code.1, .pinWrite (.out .motIn2) code.2]

/-- The transactions a `poll` is made of: reads of `PIN_IR` and sleeps of `T_S_US` (R130, R131). -/
def isSampling (c : Params) : Txn → Bool
  | .pinRead .ir _ => true
  | .sleepFor d => d == c.tSUs
  | .pinRead (.out _) _ | .pinConfigure _ _ | .pinWrite _ _ | .now _ | .sleepUntil _ => false

/-- How many `SleepFor` transactions a trace holds (R142: the samples of a `poll`). -/
def sleepsIn : List Txn → Nat
  | [] => 0
  | .sleepFor _ :: rest => sleepsIn rest + 1
  | .pinConfigure _ _ :: rest => sleepsIn rest
  | .pinRead _ _ :: rest => sleepsIn rest
  | .pinWrite _ _ :: rest => sleepsIn rest
  | .now _ :: rest => sleepsIn rest
  | .sleepUntil _ :: rest => sleepsIn rest

end Sys2Proof.Machine
end

