-- ==== Sys2Proof/Certificates/Slice0/Obligations.lean ====
section
/-! DEFINITION. Obligations.lean: the statements for the provers. Each docstring says what of the spec it formalises; a
statement that rests on a choice of the model names the log entry. -/

open Sys2Proof Sys2Proof.Machine

/-! ## Words and steps (the operation word is the model's choice, notes/assumptions/1.md and 2.md) -/

/-- Decoding the word of a well-formed instruction gives the instruction back, for every row and operand. -/
def Obligations.DecodeOfEncode : Prop := ∀ i : Instr, i.wellFormed = true → decode (encode i) = .ok i

/-- A word that decodes is the word of the instruction it decodes to, and that instruction is well formed: no two words have
one meaning, and a stray bit is refused. -/
def Obligations.EncodeOfDecode : Prop :=
  ∀ (w : Word) (i : Instr), decode w = .ok i → i.wellFormed = true ∧ encode i = w

/-- Words written out: the ids of R100 in the low four bits, -40 percent as an `i32`, and the frame of P1 with its 32 bits in
the arrival order of R82. -/
def Obligations.WordsOfTheTableDecode : Prop :=
  decode 0x0D#72 = .ok .iterate ∧ decode 0x07#72 = .ok .poll ∧ decode 0xFFFFFFD809#72 = .ok (.setThrottle (-40))
    ∧ decode 0b10111010010001011111111100000000_00001111#72 = .ok (.necFrame 0x00 0xFF 0x45 0xBA)
    ∧ decode 0xB02#72 = .ok (.write (.out .srvR) .high)
    ∧ decode 0xFF#72 = .error (.unknownOpcode 0xFF) ∧ decode 0x10D#72 = .error (.strayBits 0x0D)

/-- A step runs the waiting word's instruction, consuming the word; a word that encodes no row is refused by name; with no
word waiting the block boots once and then iterates (R190, R205, R252). -/
def Obligations.StepRunsTheNextOperation : Prop :=
  (∀ (s : State) (w : Word) (rest : List Word) (i : Instr), s.program = w :: rest → decode w = .ok i →
      step s = exec i { s with program := rest })
  ∧ (∀ (s : State) (w : Word) (rest : List Word) (e : DecodeError), s.program = w :: rest → decode w = .error e →
      step s = .refused (.undecodable e))
  ∧ (∀ s : State, s.program = [] → s.run = .running → step s = exec .iterate s)
  ∧ (∀ s : State, s.program = [] → s.run = .powerOn → step s = exec .boot s)

/-- A table row's word placed by `withFetchWord` is what the very next step runs, and it changes nothing else. -/
def Obligations.FetchWordRunsNext : Prop :=
  ∀ (s : State) (nbits w : Nat) (i : Instr), decodeTableWord nbits w = some i →
    step (s.withFetchWord nbits w) = exec i s

/-! ## The boundary (40_hal_ops.md) -/

/-- `configure` gives a pin that has no mode its mode; every other pin and register is unchanged. The latch of a new output
is any value (R111, R41; the latch is free, notes/assumptions/11.md). -/
def Obligations.ConfigureSetsTheMode : Prop :=
  (∀ (s : State) (m : PinMode), s.irdec.phase = .idle → s.pins.irMode = none →
      exec (.configure .ir m) s = .next { s with
        pins := { s.pins with irMode := some m }, result := .nothing, trace := .pinConfigure .ir m :: s.trace })
  ∧ (∀ (s : State) (o : OutPin) (m : PinMode), s.irdec.phase = .idle → (s.pins.cell o).mode = none →
      ∃ t, exec (.configure (.out o) m) s = .next t ∧ (t.pins.cell o).mode = some m
        ∧ (∀ q, q ≠ o → t.pins.cell q = s.pins.cell q) ∧ t.pins.irMode = s.pins.irMode
        ∧ t.env = { s.env with freeUsed := t.env.freeUsed }
        ∧ t = { s with pins := t.pins, env := t.env, result := .nothing, trace := .pinConfigure (.out o) m :: s.trace })

/-- Misuse of the boundary is refused by name: a second `configure`, a read of a pin that is no input, a write of `PIN_IR`
or of a pin that is no output (U3, D35). -/
def Obligations.PinMisuseIsRefused : Prop :=
  (∀ (s : State) (p : Pin) (m m' : PinMode), s.irdec.phase = .idle → s.pins.mode p = some m' →
      exec (.configure p m) s = .refused (.pinReconfigured p))
  ∧ (∀ (s : State) (p : Pin), s.pins.mode p = none ∨ (∃ d, s.pins.mode p = some (.output d)) →
      exec (.read p) s = .refused (.pinNotInput p))
  ∧ (∀ (s : State) (v : Level), exec (.write .ir v) s = .refused (.pinNotOutput .ir))
  ∧ (∀ (s : State) (o : OutPin) (v : Level), s.irdec.phase = .idle →
      s.pins.mode (.out o) = none ∨ (∃ q, s.pins.mode (.out o) = some (.input q)) →
      exec (.write (.out o) v) s = .refused (.pinNotOutput (.out o)))

/-- `read` returns one level: of `PIN_IR`, the next level of the line, and some level when the environment's list is used up;
of another input pin, some level. It changes no pin, register or clock (R64, R66, R112). -/
def Obligations.ReadReturnsALevel : Prop :=
  (∀ (s : State) (v : Level) (rest : List Level) (q : Pull), s.pins.irMode = some (.input q) → s.env.line = v :: rest →
      exec (.read .ir) s = .next { s with
        env := { s.env with line := rest }, result := .level v, trace := .pinRead .ir v :: s.trace })
  ∧ (∀ (s : State) (p : Pin) (q : Pull), s.pins.mode p = some (.input q) → (p = .ir → s.env.line = []) →
      ∃ v, exec (.read p) s = .next { s with
        env := { s.env with freeUsed := s.env.freeUsed + 1 }, result := .level v, trace := .pinRead p v :: s.trace })

/-- `write` sets the latch of its pin, records one transaction even when the level does not change, and changes nothing else
(R64, R113). -/
def Obligations.WriteSetsOneLatch : Prop :=
  ∀ (s : State) (o : OutPin) (v : Level) (d : Drive), s.irdec.phase = .idle →
    (s.pins.cell o).mode = some (.output d) →
    ∃ t, exec (.write (.out o) v) s = .next t ∧ t.pins.cell o = { mode := some (.output d), latch := v }
      ∧ (∀ q, q ≠ o → t.pins.cell q = s.pins.cell q) ∧ t.pins.irMode = s.pins.irMode
      ∧ t = { s with pins := t.pins, result := .nothing, trace := .pinWrite (.out o) v :: s.trace }

/-- `now` returns a clock value not smaller than any earlier one, and it is the clock's value from then on (R68, R114). -/
def Obligations.NowIsMonotone : Prop :=
  ∀ s : State, s.irdec.phase = .idle →
    ∃ t v, exec .now s = .next t ∧ t.result = .time v ∧ s.env.clock ≤ v ∧ t.env.clock = v ∧ t.env.line = s.env.line
      ∧ t = { s with env := t.env, result := .time v, trace := .now v :: s.trace }

/-- A sleep lasts at least as asked: `sleep_for(d)` until `d` after the call, `sleep_until(t)` until the clock shows `t`
(R68, R115, R116); neither changes a register or a pin. -/
def Obligations.SleepsLastAtLeastAsAsked : Prop :=
  (∀ (s : State) (d : Nat), ∃ t, exec (.sleepFor d) s = .next t ∧ s.env.clock + d ≤ t.env.clock
      ∧ t.env.line = s.env.line
      ∧ t = { s with env := t.env, result := .nothing, trace := .sleepFor d :: s.trace })
  ∧ (∀ (s : State) (u : Nat), s.irdec.phase = .idle →
      ∃ t, exec (.sleepUntil u) s = .next t ∧ u ≤ t.env.clock ∧ s.env.clock ≤ t.env.clock ∧ t.env.line = s.env.line
        ∧ t = { s with env := t.env, result := .nothing, trace := .sleepUntil u :: s.trace })

/-! ## IRDEC (41_ir_decoder.md) -/

/-- `measure_run` on a run of `n` samples of its level, ended by the other level below the cap: the count is `n`, the ending
read is consumed and not counted, and `n` sleeps of `T_S_US` lie between the `n + 1` reads (R131;
that the register keeps the count after the operation is the model's choice, notes/assumptions/28.md). -/
def Obligations.MeasureRunCountsTheRun : Prop :=
  ∀ (s : State) (level v : Level) (n cap : Nat) (rest : List Level),
    readable s .ir = true → v ≠ level → n < cap → s.env.line = List.replicate n level ++ v :: rest →
    ∃ t, exec (.measureRun level cap) s = .next t ∧ t.result = .count n ∧ t.irdec = { s.irdec with count := n }
      ∧ t.env.line = rest ∧ s.env.clock + n * s.cfg.tSUs ≤ t.env.clock
      ∧ t.trace = .pinRead .ir v
          :: ((List.replicate n [Txn.sleepFor s.cfg.tSUs, Txn.pinRead .ir level]).flatten ++ s.trace)
      ∧ t = { s with irdec := t.irdec, env := t.env, result := t.result, trace := t.trace }

/-- `measure_run` on `cap` samples of its level gives up: the count is the cap, after `cap` reads and `cap` sleeps; the next
sample is not read (R131;
that the register keeps the count after the operation is the model's choice, notes/assumptions/28.md). -/
def Obligations.MeasureRunGivesUpAtTheCap : Prop :=
  ∀ (s : State) (level : Level) (cap : Nat) (rest : List Level),
    readable s .ir = true → s.env.line = List.replicate cap level ++ rest →
    ∃ t, exec (.measureRun level cap) s = .next t ∧ t.result = .count cap ∧ t.irdec = { s.irdec with count := cap }
      ∧ t.env.line = rest ∧ s.env.clock + cap * s.cfg.tSUs ≤ t.env.clock
      ∧ t.trace = (List.replicate cap [Txn.sleepFor s.cfg.tSUs, Txn.pinRead .ir level]).flatten ++ s.trace
      ∧ t = { s with irdec := t.irdec, env := t.env, result := t.result, trace := t.trace }

/-- Whatever the line does, `measure_run` ends with a count of at most its cap, one sleep a counted sample, and changes
nothing but the count (R22, R131;
that the register keeps the count after the operation is the model's choice, notes/assumptions/28.md). -/
def Obligations.MeasureRunIsBounded : Prop :=
  ∀ (s : State) (level : Level) (cap : Nat), readable s .ir = true →
    ∃ t n, exec (.measureRun level cap) s = .next t ∧ n ≤ cap ∧ t.result = .count n
      ∧ t.irdec = { s.irdec with count := n } ∧ sleepsIn t.trace = sleepsIn s.trace + n
      ∧ s.env.clock + n * s.cfg.tSUs ≤ t.env.clock
      ∧ t = { s with irdec := t.irdec, env := t.env, result := t.result, trace := t.trace }

/-- The fast path of `poll`: on an idle line it is one read and nothing else (R132). -/
def Obligations.PollOfAnIdleLineIsOneRead : Prop :=
  ∀ (s : State) (rest : List Level), s.irdec.phase = .idle → readable s .ir = true → s.env.line = .high :: rest →
    exec .poll s = .next { s with
      env := { s.env with line := rest }, result := .polled .noSignal, trace := .pinRead .ir .high :: s.trace }

/-- A start run that reaches its cap aborts the `poll`: a stuck-low line, or a start-high run that does not end
(R134, R135, R221); nothing outside IRDEC changes. -/
def Obligations.PollAbortsOnALongStartRun : Prop :=
  (∀ (s : State) (rest : List Level), s.irdec.phase = .idle → readable s .ir = true →
      s.env.line = .low :: (List.replicate s.cfg.startLowMax .low ++ rest) →
      ∃ t, exec .poll s = .next t ∧ t.result = .polled (.aborted .startLowTimeout) ∧ t.irdec.phase = .idle
        ∧ t.env.line = rest ∧ s.env.clock + s.cfg.startLowMax * s.cfg.tSUs ≤ t.env.clock
        ∧ t = { s with irdec := t.irdec, env := t.env, result := t.result, trace := t.trace })
  ∧ (∀ (s : State) (n : Nat) (rest : List Level), s.irdec.phase = .idle → readable s .ir = true →
      n < s.cfg.startLowMax →
      s.env.line = .low :: (List.replicate n .low ++ .high :: (List.replicate s.cfg.startHighMax .high ++ rest)) →
      ∃ t, exec .poll s = .next t ∧ t.result = .polled (.aborted .startHighTimeout) ∧ t.irdec.phase = .idle
        ∧ t.env.line = rest ∧ s.env.clock + (n + s.cfg.startHighMax) * s.cfg.tSUs ≤ t.env.clock
        ∧ t = { s with irdec := t.irdec, env := t.env, result := t.result, trace := t.trace })

/-- A run of bit `i` that reaches its cap aborts the `poll` with that bit's reason, after `i` bits whose runs stayed below
their caps (R133, R136, R221); nothing outside IRDEC changes. -/
def Obligations.PollAbortsOnALongBitRun : Prop :=
  ∀ (s : State) (startLow startHigh : Nat) (runs : Nat → Nat × Nat) (i : Fin 32) (rest : List Level),
    s.irdec.phase = .idle → readable s .ir = true → isStart s.cfg startLow startHigh = true →
    (∀ j, j < i.val → (runs j).1 < s.cfg.bitLowMax ∧ (runs j).2 < s.cfg.bitHighMax) →
    (s.env.line = .low :: (runPair startLow startHigh ++ bitSamples runs 0 i.val
          ++ (List.replicate s.cfg.bitLowMax .low ++ rest)) →
      ∃ t, exec .poll s = .next t ∧ t.result = .polled (.aborted (.bitLowTimeout i)) ∧ t.irdec.phase = .idle
        ∧ t.env.line = rest
        ∧ t = { s with irdec := t.irdec, env := t.env, result := t.result, trace := t.trace })
    ∧ (∀ cLow, cLow < s.cfg.bitLowMax →
        s.env.line = .low :: (runPair startLow startHigh ++ bitSamples runs 0 i.val
          ++ (List.replicate cLow .low ++ .high :: (List.replicate s.cfg.bitHighMax .high ++ rest))) →
        ∃ t, exec .poll s = .next t ∧ t.result = .polled (.aborted (.bitHighTimeout i)) ∧ t.irdec.phase = .idle
          ∧ t.env.line = rest
          ∧ t = { s with irdec := t.irdec, env := t.env, result := t.result, trace := t.trace })

/-- For every frame presented with run counts in the ranges of R81, `poll` assembles its four bytes and reports the command
byte's action exactly when both pairs add up to `0xFF` (S1, R136, R138, R140;
that IRDEC's registers keep these values once it is idle is the model's choice, notes/assumptions/28.md). -/
def Obligations.PollDecodesEveryFrame : Prop :=
  ∀ (s : State) (startLow startHigh : Nat) (runs : Nat → Nat × Nat) (d : Payload) (rest : List Level),
    s.irdec.phase = .idle → readable s .ir = true → isStart s.cfg startLow startHigh = true →
    (∀ j, j < 32 → if d.bit j then isBit1 s.cfg (runs j).1 (runs j).2 = true
      else isBit0 s.cfg (runs j).1 (runs j).2 = true) →
    s.env.line = frameSamples startLow startHigh runs ++ rest →
    ∃ t, exec .poll s = .next t ∧ t.irdec.data = d ∧ t.irdec.phase = .idle ∧ t.env.line = rest
      ∧ (d.d0 + d.d1 = 0xFF → d.d2 + d.d3 = 0xFF → t.result = .polled (.decoded (actionFor s.cfg d.d2)))
      ∧ (d.d0 + d.d1 ≠ 0xFF → t.result = .polled (.aborted .checksumAddress))
      ∧ (d.d0 + d.d1 = 0xFF → d.d2 + d.d3 ≠ 0xFF → t.result = .polled (.aborted .checksumCommand))
      ∧ s.env.clock + (startLow + startHigh + ((List.range 32).map fun j => (runs j).1 + (runs j).2).sum) * s.cfg.tSUs
          ≤ t.env.clock
      ∧ t = { s with irdec := t.irdec, env := t.env, result := t.result, trace := t.trace }

/-- Whatever the line does and in whatever phase the decoder is found, `poll` returns, IRDEC is idle again, and no register,
pin or parameter outside IRDEC has changed (R25, R130, R141, R227; that a `poll` row given during an attempt is the rest
of that attempt is the model's choice, notes/assumptions/26.md). -/
def Obligations.PollChangesOnlyTheDecoder : Prop :=
  ∀ s : State, readable s .ir = true →
    ∃ t o, exec .poll s = .next t ∧ t.result = .polled o ∧ t.irdec.phase = .idle ∧ s.env.clock ≤ t.env.clock
      ∧ t = { s with irdec := t.irdec, env := t.env, result := t.result, trace := t.trace }

/-- Bounded blocking: a `poll` takes at most `START_LOW_MAX + START_HIGH_MAX + 32 * (BIT_LOW_MAX + BIT_HIGH_MAX) - 65`
samples, one less when it reports an action, and lasts at least `T_S_US` for each (R142). -/
def Obligations.PollSamplesAreBounded : Prop :=
  ∀ s : State, s.cfg.legal = true → s.irdec.phase = .idle → readable s .ir = true →
    ∃ t n, exec .poll s = .next t ∧ sleepsIn t.trace = sleepsIn s.trace + n
      ∧ n ≤ s.cfg.startLowMax + s.cfg.startHighMax + 32 * (s.cfg.bitLowMax + s.cfg.bitHighMax) - 65
      ∧ (∀ a, t.result = .polled (.decoded a) →
          n ≤ s.cfg.startLowMax + s.cfg.startHighMax + 32 * (s.cfg.bitLowMax + s.cfg.bitHighMax) - 66)
      ∧ s.env.clock + n * s.cfg.tSUs ≤ t.env.clock

/-- `action_for` returns the table's action for each of its codes and `Raw` of every other byte, and changes nothing else
(R139). -/
def Obligations.ActionForLooksUpTheTable : Prop :=
  ∀ (s : State) (code : Byte),
    (∀ a, s.cfg.legal = true → (code, a) ∈ s.cfg.actionTable →
      exec (.actionFor code) s = .next { s with result := .action a })
    ∧ ((∀ a, (code, a) ∉ s.cfg.actionTable) →
      exec (.actionFor code) s = .next { s with result := .action (.raw code) })

/-! ## Symbols and frames as rows (R81, R82; how a row meets the decoder's phase is notes/assumptions/15.md to 17.md) -/

/-- The first symbol an idle decoder sees is taken for the start mark whatever its name (R134, R135, R144 c): below the start
caps it is accepted, the payload is cleared and bit 0 awaited. -/
def Obligations.FirstSymbolIsTheStart : Prop :=
  ∀ (s : State) (i : Instr) (cLow cHigh : Nat), IsSymbol s.cfg i cLow cHigh → s.irdec.phase = .idle →
    readable s .ir = true → cLow < s.cfg.startLowMax → cHigh < s.cfg.startHighMax →
    ∃ t, exec i s = .next t
      ∧ t.irdec = { phase := .bitLow, count := cHigh, bitIdx := 0, data := { d0 := 0, d1 := 0, d2 := 0, d3 := 0 } }
      ∧ t.result = .nothing ∧ t.env.line = s.env.line
      ∧ s.env.clock + (cLow + cHigh) * s.cfg.tSUs ≤ t.env.clock
      ∧ t = { s with irdec := t.irdec, env := t.env, result := t.result, trace := t.trace }

/-- A symbol received as bit `i < 31`: BIT0 stores 0, BIT1 stores 1, the other bits stay, and bit `i + 1` is awaited
(R81, R83, R136). -/
def Obligations.SymbolStoresItsBit : Prop :=
  ∀ (s : State) (i : Instr) (cLow cHigh : Nat), IsSymbol s.cfg i cLow cHigh → s.irdec.phase = .bitLow →
    s.irdec.bitIdx.val < 31 → readable s .ir = true → cLow < s.cfg.bitLowMax → cHigh < s.cfg.bitHighMax →
    ∃ t, exec i s = .next t ∧ t.irdec.phase = .bitLow ∧ t.irdec.bitIdx.val = s.irdec.bitIdx.val + 1
      ∧ (i = .bit0 cLow cHigh → t.irdec.data.bit s.irdec.bitIdx.val = false)
      ∧ (i = .bit1 cLow cHigh → t.irdec.data.bit s.irdec.bitIdx.val = true)
      ∧ t.irdec.data.bit s.irdec.bitIdx.val = decide (cHigh > s.cfg.bitThreshold)
      ∧ (∀ j, j < 32 → j ≠ s.irdec.bitIdx.val → t.irdec.data.bit j = s.irdec.data.bit j)
      ∧ t.result = .nothing ∧ t.env.line = s.env.line
      ∧ s.env.clock + (cLow + cHigh) * s.cfg.tSUs ≤ t.env.clock
      ∧ t = { s with irdec := t.irdec, env := t.env, result := t.result, trace := t.trace }

/-- The symbol received as bit 31 ends the frame: the bit is stored, both pairs are checked, and the decoder is idle with
the outcome (R82, R136, R138, R225;
that IRDEC's registers keep these values once it is idle is the model's choice, notes/assumptions/28.md). -/
def Obligations.LastSymbolEndsTheFrame : Prop :=
  ∀ (s : State) (i : Instr) (cLow cHigh : Nat), IsSymbol s.cfg i cLow cHigh → s.irdec.phase = .bitLow →
    s.irdec.bitIdx.val = 31 → readable s .ir = true → cLow < s.cfg.bitLowMax → cHigh < s.cfg.bitHighMax →
    ∃ t d, exec i s = .next t ∧ t.irdec.phase = .idle ∧ t.irdec.data = d
      ∧ d.bit 31 = decide (cHigh > s.cfg.bitThreshold) ∧ (∀ j, j < 31 → d.bit j = s.irdec.data.bit j)
      ∧ (d.d0 + d.d1 = 0xFF → d.d2 + d.d3 = 0xFF → t.result = .polled (.decoded (actionFor s.cfg d.d2)))
      ∧ (d.d0 + d.d1 ≠ 0xFF → t.result = .polled (.aborted .checksumAddress))
      ∧ (d.d0 + d.d1 = 0xFF → d.d2 + d.d3 ≠ 0xFF → t.result = .polled (.aborted .checksumCommand))
      ∧ t.env.line = s.env.line
      ∧ t = { s with irdec := t.irdec, env := t.env, result := t.result, trace := t.trace }

/-- A symbol of another kind than the decoder awaits aborts when one of its runs reaches the awaited cap: a long low or high
run first seen by an idle decoder, or received as a bit (R133 to R136, R144 c;
that IRDEC's registers keep these values once it is idle is the model's choice, notes/assumptions/28.md). -/
def Obligations.SymbolAtTheCapAborts : Prop :=
  ∀ (s : State) (i : Instr) (cLow cHigh : Nat), IsSymbol s.cfg i cLow cHigh → readable s .ir = true →
    s.irdec.phase = .idle ∨ s.irdec.phase = .bitLow →
    (if s.irdec.phase = .idle then s.cfg.startLowMax ≤ cLow ∨ s.cfg.startHighMax ≤ cHigh
      else s.cfg.bitLowMax ≤ cLow ∨ s.cfg.bitHighMax ≤ cHigh) →
    ∃ t, exec i s = .next t ∧ t.irdec.phase = .idle ∧ t.irdec.data = s.irdec.data
      ∧ t.result = .polled (.aborted
          (if s.irdec.phase = .idle then
             if s.cfg.startLowMax ≤ cLow then .startLowTimeout else .startHighTimeout
           else if s.cfg.bitLowMax ≤ cLow then .bitLowTimeout s.irdec.bitIdx else .bitHighTimeout s.irdec.bitIdx))
      ∧ t = { s with irdec := t.irdec, env := t.env, result := t.result, trace := t.trace }

/-- NO_SYMBOL: a run whose count equals its cap aborts the `poll`, with the reason of the run that reached it, and the
samples it was made of are used up (R81, R133, R221;
that IRDEC's registers keep these values once it is idle is the model's choice, notes/assumptions/28.md). -/
def Obligations.NoSymbolAborts : Prop :=
  ∀ (s : State) (stuck : Level) (cLow : Nat), readable s .ir = true →
    s.irdec.phase = .idle ∨ s.irdec.phase = .bitLow →
    ∃ t, exec (.noSymbol stuck cLow) s = .next t ∧ t.irdec.phase = .idle ∧ t.irdec.data = s.irdec.data
      ∧ t.irdec.bitIdx = s.irdec.bitIdx ∧ t.env.line = s.env.line
      ∧ t.result = .polled (.aborted
          (if s.irdec.phase = .idle then
             if stuck = .low ∨ s.cfg.startLowMax ≤ cLow then .startLowTimeout else .startHighTimeout
           else if stuck = .low ∨ s.cfg.bitLowMax ≤ cLow then .bitLowTimeout s.irdec.bitIdx
             else .bitHighTimeout s.irdec.bitIdx))
      ∧ t = { s with irdec := t.irdec, env := t.env, result := t.result, trace := t.trace }

/-- START, BIT0 and BIT1 with run counts outside their symbol's ranges are no such symbol and are refused by that name
(R81; the refusal is the model's, notes/assumptions/15.md). -/
def Obligations.SymbolOutOfRangeIsRefused : Prop :=
  ∀ (s : State) (cLow cHigh : Nat), readable s .ir = true →
    (¬(cLow < s.cfg.startLowMax ∧ cHigh < s.cfg.startHighMax) →
      exec (.start cLow cHigh) s = .refused .notThatSymbol)
    ∧ (¬(cLow < s.cfg.bitLowMax ∧ cHigh ≤ s.cfg.bitThreshold ∧ cHigh < s.cfg.bitHighMax) →
      exec (.bit0 cLow cHigh) s = .refused .notThatSymbol)
    ∧ (¬(cLow < s.cfg.bitLowMax ∧ s.cfg.bitThreshold < cHigh ∧ cHigh < s.cfg.bitHighMax) →
      exec (.bit1 cLow cHigh) s = .refused .notThatSymbol)

/-- NEC_FRAME: whatever run counts carry its 32 bits, the four bytes are assembled and checked, and the line is left as it
was (R82 to R86; the counts are free, notes/assumptions/17.md;
that IRDEC's registers keep these values once it is idle is the model's choice, notes/assumptions/28.md). -/
def Obligations.NecFrameIsDecoded : Prop :=
  ∀ (s : State) (a an c cn : Byte), s.cfg.legal = true → s.irdec.phase = .idle → readable s .ir = true →
    ∃ t, exec (.necFrame a an c cn) s = .next t
      ∧ t.irdec.data = { d0 := a, d1 := an, d2 := c, d3 := cn } ∧ t.irdec.phase = .idle ∧ t.env.line = s.env.line
      ∧ (an = ~~~a → cn = ~~~c → t.result = .polled (.decoded (actionFor s.cfg c)))
      ∧ (an ≠ ~~~a → t.result = .polled (.aborted .checksumAddress))
      ∧ (an = ~~~a → cn ≠ ~~~c → t.result = .polled (.aborted .checksumCommand))
      ∧ s.env.clock ≤ t.env.clock
      ∧ t = { s with irdec := t.irdec, env := t.env, result := t.result, trace := t.trace }

/-- A frame received symbol by symbol, as START and 32 rows BIT0 or BIT1, is the `poll` of its samples: the same state in the
end (R82, R140; what a symbol row does when it is executed is the model's choice, notes/assumptions/15.md). -/
def Obligations.SymbolBySymbolIsThePoll : Prop :=
  ∀ (s : State) (startLow startHigh : Nat) (runs : Nat → Nat × Nat),
    s.irdec.phase = .idle → readable s .ir = true → isStart s.cfg startLow startHigh = true →
    (∀ j, j < 32 → (runs j).1 < s.cfg.bitLowMax ∧ (runs j).2 < s.cfg.bitHighMax) →
    execAll (.start startLow startHigh :: bitRows s.cfg runs) s
      = exec .poll (present (frameSamples startLow startHigh runs) s)

/-- A decode attempt in progress is never cancelled and never stops the block: it runs on to its end, with an outcome, an
idle decoder, and nothing changed outside IRDEC (R141). An operation that is no part of a `poll` starts in the state the
attempt ends in (R13, U19), `poll` is the rest of the attempt, and `iterate` completes with the attempt for its one `poll`,
whose action it applies (R192, R205). If `PIN_IR` is no input there, they are refused by that name (U3). That an operation
given during an attempt is not refused but follows it is the model's reading of R13, notes/assumptions/26.md. -/
def Obligations.OperationsWaitForThePoll : Prop :=
  (∀ s : State, s.irdec.phase ≠ .idle → readable s .ir = true →
    (∃ o new, (finishAttempt s).irdec.phase = .idle ∧ (finishAttempt s).result = .polled o
      ∧ s.env.clock ≤ (finishAttempt s).env.clock
      ∧ (finishAttempt s).trace = new ++ s.trace ∧ new.all (isSampling s.cfg) = true
      ∧ finishAttempt s = { s with
          irdec := (finishAttempt s).irdec, env := (finishAttempt s).env, result := (finishAttempt s).result,
          trace := (finishAttempt s).trace })
    ∧ (∀ i : Instr, runsInsidePoll i = false → exec i s = exec i (finishAttempt s))
    ∧ exec .poll s = .next (finishAttempt s)
    ∧ (s.PinsReady → ∃ t, exec .iterate s = .next t ∧ t.irdec.phase = .idle
      ∧ (∀ a, (finishAttempt (readNow s)).result = .polled (.decoded a) →
          t.sched.rollCmd = (applyAction a s).sched.rollCmd ∧ t.sched.throttleCmd = (applyAction a s).sched.throttleCmd
          ∧ t.sched.engineEnabled = (applyAction a s).sched.engineEnabled)
      ∧ ((∀ a, (finishAttempt (readNow s)).result ≠ .polled (.decoded a)) →
          t.sched.rollCmd = s.sched.rollCmd ∧ t.sched.throttleCmd = s.sched.throttleCmd
          ∧ t.sched.engineEnabled = s.sched.engineEnabled)))
  ∧ (∀ (s : State) (i : Instr), s.irdec.phase ≠ .idle → readable s .ir = false →
      runsInsidePoll i = false ∨ i = .poll ∨ i = .iterate →
      exec i s = .refused (.pinNotInput .ir)
      ∨ (∃ v, i = .write .ir v ∧ exec i s = .refused (.pinNotOutput .ir))
      ∨ (i = .boot ∧ s.run = .running ∧ exec i s = .refused .secondBoot))

/-! ## MOTOR (42_motor.md) -/

/-- `set_throttle` clamps the percentage to -100..100, takes the direction from its sign and the duty
`MOTOR_PERIOD_US * |percent| div 100`, and touches neither the phase nor a pin (R151). -/
def Obligations.SetThrottleStoresTheDuty : Prop :=
  ∀ (s : State) (percent : Int), s.irdec.phase = .idle →
    exec (.setThrottle percent) s = .next { s with
      motor := { s.motor with
        direction := if percent < 0 then .reverse else .forward,
        dutyUs := s.cfg.motorPeriodUs * min percent.natAbs 100 / 100 },
      result := .nothing }

/-- `service` at duty 0 forces both pins low, records the coast phase and returns the whole period (R153). -/
def Obligations.ServiceAtZeroDutyCoasts : Prop :=
  ∀ (s : State) (n : Nat), s.irdec.phase = .idle → writable s .motIn1 = true → writable s .motIn2 = true →
    s.motor.dutyUs = 0 →
    ∃ t, exec (.service n) s = .next t ∧ t.result = .delta s.cfg.motorPeriodUs
      ∧ t.pins = { s.pins with
          motIn1 := { s.pins.motIn1 with latch := .low }, motIn2 := { s.pins.motIn2 with latch := .low } }
      ∧ t.motor = { s.motor with phase := .coasting }
      ∧ t = { s with motor := t.motor, pins := t.pins, result := t.result, trace := t.trace }

/-- `service` at a duty of the whole period or more drives in the commanded direction, records the drive phase and returns
the whole period (R154). -/
def Obligations.ServiceAtFullDutyDrives : Prop :=
  ∀ (s : State) (n : Nat), s.irdec.phase = .idle → writable s .motIn1 = true → writable s .motIn2 = true →
    s.motor.dutyUs ≠ 0 → s.motor.dutyUs ≥ s.cfg.motorPeriodUs →
    ∃ t, exec (.service n) s = .next t ∧ t.result = .delta s.cfg.motorPeriodUs
      ∧ t.pins = { s.pins with
          motIn1 := { s.pins.motIn1 with latch := if s.motor.direction = .forward then .high else .low },
          motIn2 := { s.pins.motIn2 with latch := if s.motor.direction = .forward then .low else .high } }
      ∧ t.motor = { s.motor with phase := .driving }
      ∧ t = { s with motor := t.motor, pins := t.pins, result := t.result, trace := t.trace }

/-- `service` at a partial duty enters the phase opposite to the recorded one: drive for `duty_us` in the commanded
direction, or coast for the rest of the period (R155). -/
def Obligations.ServiceAtPartialDutyAlternates : Prop :=
  ∀ (s : State) (n : Nat), s.irdec.phase = .idle → writable s .motIn1 = true → writable s .motIn2 = true →
    0 < s.motor.dutyUs → s.motor.dutyUs < s.cfg.motorPeriodUs →
    ∃ t, exec (.service n) s = .next t
      ∧ (s.motor.phase = .coasting → t.motor = { s.motor with phase := .driving }
          ∧ t.result = .delta s.motor.dutyUs
          ∧ t.pins = { s.pins with
              motIn1 := { s.pins.motIn1 with latch := if s.motor.direction = .forward then .high else .low },
              motIn2 := { s.pins.motIn2 with latch := if s.motor.direction = .forward then .low else .high } })
      ∧ (s.motor.phase = .driving → t.motor = { s.motor with phase := .coasting }
          ∧ t.result = .delta (s.cfg.motorPeriodUs - s.motor.dutyUs)
          ∧ t.pins = { s.pins with
              motIn1 := { s.pins.motIn1 with latch := .low }, motIn2 := { s.pins.motIn2 with latch := .low } })
      ∧ t = { s with motor := t.motor, pins := t.pins, result := t.result, trace := t.trace }

/-- Every `service` issues exactly two pin writes, one to each motor pin, in the order `MOTOR_WRITE_ORDER`, and the levels
written are the ones the pins then hold: forward (high, low), reverse (low, high) or coast (low, low), never (high, high)
(R92, R93, R156, R157). -/
def Obligations.ServiceWritesBothPinsInOrder : Prop :=
  ∀ (s : State) (n : Nat), s.irdec.phase = .idle → writable s .motIn1 = true → writable s .motIn2 = true →
    ∃ t a b, exec (.service n) s = .next t ∧ t.pins.motIn1.latch = a ∧ t.pins.motIn2.latch = b
      ∧ (s.cfg.motorWriteOrder = .in1First →
          t.trace = .pinWrite (.out .motIn2) b :: .pinWrite (.out .motIn1) a :: s.trace)
      ∧ (s.cfg.motorWriteOrder = .in2First →
          t.trace = .pinWrite (.out .motIn1) a :: .pinWrite (.out .motIn2) b :: s.trace)
      ∧ (t.motor.phase = .driving → (a, b) = if s.motor.direction = .forward then (.high, .low) else (.low, .high))
      ∧ (t.motor.phase = .coasting → (a, b) = (.low, .low))

/-- At a partial duty two `service` calls in a row fill exactly one period, in either order of the phases, and leave the
motor's registers as they were (R155). -/
def Obligations.DriveAndCoastFillOnePeriod : Prop :=
  ∀ (s : State) (n m : Nat), s.irdec.phase = .idle → writable s .motIn1 = true → writable s .motIn2 = true →
    0 < s.motor.dutyUs → s.motor.dutyUs < s.cfg.motorPeriodUs →
    ∃ t u d e, exec (.service n) s = .next t ∧ t.result = .delta d ∧ exec (.service m) t = .next u
      ∧ u.result = .delta e ∧ d + e = s.cfg.motorPeriodUs ∧ 1 ≤ d ∧ 1 ≤ e ∧ u.motor = s.motor

/-- The rows of the motor pin codes put their two levels on the pins and change no register: forward (high, low), reverse
(low, high), coast (low, low), and the code without a meaning (high, high) (R92, R93, U6; notes/assumptions/19.md). -/
def Obligations.MotorCodesStandOnThePins : Prop :=
  ∀ (s : State) (i : Instr) (a b : Level), s.irdec.phase = .idle → writable s .motIn1 = true →
    writable s .motIn2 = true →
    (i = .motorForward ∧ a = .high ∧ b = .low) ∨ (i = .motorReverse ∧ a = .low ∧ b = .high)
      ∨ (i = .motorCoast ∧ a = .low ∧ b = .low) ∨ (i = .motorUndefined ∧ a = .high ∧ b = .high) →
    ∃ t, exec i s = .next t
      ∧ t.pins = { s.pins with
          motIn1 := { s.pins.motIn1 with latch := a }, motIn2 := { s.pins.motIn2 with latch := b } }
      ∧ t.trace.length = s.trace.length + 2
      ∧ t = { s with pins := t.pins, result := .nothing, trace := t.trace }

/-! ## SERVO (43_servo.md) -/

/-- `update` of either instance with any command and any `is_left`: target, slew, width and emission as the pseudocode says;
the other instance, MOTOR and SCHED are unchanged (R171 to R177). -/
def Obligations.UpdateTracksAndEmits : Prop :=
  ∀ (s : State) (x : Side) (rollCmd : Int) (isLeft : Bool), s.irdec.phase = .idle → writable s (servoPin x) = true →
    let raw := ((if isLeft then rollCmd else -rollCmd) * s.cfg.rollMaxDeg).tdiv 100
    let target := max (-(s.cfg.hardLimitDeg : Int)) (min (s.cfg.hardLimitDeg : Int) raw)
    let p := (s.servo x).positionDeg
    let p' := if p < target then min target (p + s.cfg.slewPerFrameDeg) else max target (p - s.cfg.slewPerFrameDeg)
    let width := s.cfg.servoMinUs
      + (max 0 (min 180 (p' + 90))).toNat * (s.cfg.servoMaxUs - s.cfg.servoMinUs) / 180
    ∃ t, exec (.update x rollCmd isLeft) s = .next t ∧ (t.servo x).positionDeg = p'
      ∧ ((s.servo x).pulsePhase = .lowPhase → (t.servo x).pulsePhase = .highPhase ∧ t.result = .delta width
          ∧ (t.pins.cell (servoPin x)).latch = .high
          ∧ t.trace = .pinWrite (.out (servoPin x)) .high :: s.trace)
      ∧ ((s.servo x).pulsePhase = .highPhase → (t.servo x).pulsePhase = .lowPhase
          ∧ t.result = .delta (max 1 (s.cfg.servoFrameUs - width))
          ∧ (t.pins.cell (servoPin x)).latch = .low
          ∧ t.trace = .pinWrite (.out (servoPin x)) .low :: s.trace)
      ∧ (∀ y, y ≠ x → t.servo y = s.servo y) ∧ (∀ q, q ≠ servoPin x → t.pins.cell q = s.pins.cell q)
      ∧ (t.pins.cell (servoPin x)).mode = (s.pins.cell (servoPin x)).mode ∧ t.pins.irMode = s.pins.irMode
      ∧ t = { s with servoL := t.servoL, servoR := t.servoR, pins := t.pins, result := t.result, trace := t.trace }

/-- One `update` moves the position by at most `SLEW_PER_FRAME_DEG`, and keeps it within the hard limit (S5, R173, R174). -/
def Obligations.UpdateSlewsWithinItsBounds : Prop :=
  ∀ (s : State) (x : Side) (rollCmd : Int) (isLeft : Bool), s.irdec.phase = .idle → writable s (servoPin x) = true →
    (s.servo x).positionDeg.natAbs ≤ s.cfg.hardLimitDeg →
    ∃ t, exec (.update x rollCmd isLeft) s = .next t
      ∧ ((t.servo x).positionDeg - (s.servo x).positionDeg).natAbs ≤ s.cfg.slewPerFrameDeg
      ∧ (t.servo x).positionDeg.natAbs ≤ s.cfg.hardLimitDeg

/-- The pulse width is non-decreasing in the position, stays between `SERVO_MIN_US` and `SERVO_MAX_US`, and takes exactly
these values from -90 down and from 90 up (S6, R175). -/
def Obligations.PulseWidthIsMonotone : Prop :=
  ∀ c : Params, c.legal = true →
    (∀ p q : Int, p ≤ q → pulseWidthUs c p ≤ pulseWidthUs c q)
    ∧ (∀ p : Int, p ≤ -90 → pulseWidthUs c p = c.servoMinUs) ∧ (∀ p : Int, 90 ≤ p → pulseWidthUs c p = c.servoMaxUs)
    ∧ (∀ p : Int, c.servoMinUs ≤ pulseWidthUs c p ∧ pulseWidthUs c p ≤ c.servoMaxUs)

/-- The surfaces deflect oppositely for roll: from opposite positions, the two instances' updates with their own constants
leave opposite positions (R172). -/
def Obligations.SurfacesDeflectOppositely : Prop :=
  ∀ (s : State) (rollCmd : Int), s.irdec.phase = .idle → writable s .srvL = true → writable s .srvR = true →
    s.servoR.positionDeg = -s.servoL.positionDeg →
    ∃ t u, exec (.update .left rollCmd true) s = .next t ∧ exec (.update .right rollCmd false) t = .next u
      ∧ u.servoR.positionDeg = -u.servoL.positionDeg

/-- While the position is at its target, a high and a low sub-phase, in either order, return `SERVO_FRAME_US` in total and
leave the instance as it was (R179). -/
def Obligations.ServoFrameIsConstantAtRest : Prop :=
  ∀ (s : State) (x : Side) (rollCmd : Int) (isLeft : Bool), s.cfg.legal = true → s.irdec.phase = .idle →
    writable s (servoPin x) = true → (s.servo x).positionDeg = targetDeg s.cfg rollCmd isLeft →
    ∃ t u d e, exec (.update x rollCmd isLeft) s = .next t ∧ t.result = .delta d
      ∧ exec (.update x rollCmd isLeft) t = .next u ∧ u.result = .delta e ∧ d + e = s.cfg.servoFrameUs
      ∧ 1 ≤ d ∧ 1 ≤ e ∧ u.servo x = s.servo x

/-- SERVO_PULSE completes when the decoder is idle and the pin is an output. The pin goes HIGH and stays so for at least the
width of the present position (`up` is the state at the end of that time), then goes LOW for at least the rest of the frame;
no register changes (R95, R175, R177; that the row is one whole pulse is the model's choice, notes/assumptions/20.md). -/
def Obligations.ServoPulseIsHighThenLow : Prop :=
  ∀ (s : State) (x : Side), s.cfg.legal = true → s.irdec.phase = .idle → writable s (servoPin x) = true →
    let width := pulseWidthUs s.cfg (s.servo x).positionDeg
    let up := hold width (pinWrite (servoPin x) .high s)
    ∃ t, exec (.servoPulse x) s = .next t
      ∧ up.pins.cell (servoPin x) = { (s.pins.cell (servoPin x)) with latch := .high }
      ∧ up.trace = .pinWrite (.out (servoPin x)) .high :: s.trace
      ∧ s.env.clock + width ≤ up.env.clock
      ∧ t = (hold (s.cfg.servoFrameUs - width) (pinWrite (servoPin x) .low up)).setResult (.delta s.cfg.servoFrameUs)
      ∧ up.env.clock + (s.cfg.servoFrameUs - width) ≤ t.env.clock
      ∧ t.trace = .pinWrite (.out (servoPin x)) .low :: up.trace
      ∧ t.pins = s.pins.setCell (servoPin x) { (s.pins.cell (servoPin x)) with latch := .low }
      ∧ t.env.line = s.env.line
      ∧ t = { s with pins := t.pins, env := t.env, result := .delta s.cfg.servoFrameUs, trace := t.trace }

/-! ## SCHED (44_scheduler.md) -/

/-- `apply_action(VolumeUp)` and `apply_action(VolumeDown)` move the throttle by `THROTTLE_STEP` within 0..100, whether or not
the engine is enabled, and change nothing else (R194). -/
def Obligations.VolumeStepsTheThrottle : Prop :=
  ∀ s : State, s.irdec.phase = .idle →
    exec (.applyAction .volumeUp) s = .next { s with
      sched := { s.sched with throttleCmd := max 0 (min 100 (s.sched.throttleCmd + s.cfg.throttleStep)) },
      result := .nothing }
    ∧ exec (.applyAction .volumeDown) s = .next { s with
      sched := { s.sched with throttleCmd := max 0 (min 100 (s.sched.throttleCmd - s.cfg.throttleStep)) },
      result := .nothing }

/-- The row `PowerToggle` flips `engine_enabled` and loads `ARMED_THROTTLE` when that enables the engine, 0 when it disables it,
and changes nothing else (R195, a decision of the spec, D26; that the row itself has the effect of applying the action is
the model's reading, notes/assumptions/18.md). -/
def Obligations.PowerToggleArmsOrZeroes : Prop :=
  ∀ s : State, s.irdec.phase = .idle →
    (s.sched.engineEnabled = false → exec .powerToggle s = .next { s with
      sched := { s.sched with engineEnabled := true, throttleCmd := s.cfg.armedThrottle }, result := .nothing })
    ∧ (s.sched.engineEnabled = true → exec .powerToggle s = .next { s with
      sched := { s.sched with engineEnabled := false, throttleCmd := 0 }, result := .nothing })

/-- The row `RollLeft` subtracts and the row `RollRight` adds `ROLL_STEP` within -100..100, and neither changes anything else
(R196; that the rows themselves have the effect of applying their actions is the model's reading, notes/assumptions/18.md). -/
def Obligations.RollStepsTheCommand : Prop :=
  ∀ s : State, s.irdec.phase = .idle →
    exec .rollLeft s = .next { s with
      sched := { s.sched with rollCmd := max (-100) (min 100 (s.sched.rollCmd - s.cfg.rollStep)) }, result := .nothing }
    ∧ exec .rollRight s = .next { s with
      sched := { s.sched with rollCmd := max (-100) (min 100 (s.sched.rollCmd + s.cfg.rollStep)) }, result := .nothing }

/-- `apply_action` of `NoseUp`, `NoseDown`, `Select`, `Numeric` of every digit and `Raw` of every byte changes nothing (R197). -/
def Obligations.OtherActionsAreNoOps : Prop :=
  ∀ (s : State) (a : Action), s.irdec.phase = .idle →
    a = .noseUp ∨ a = .noseDown ∨ a = .select ∨ (∃ d, a = .numeric d) ∨ (∃ b, a = .raw b) →
    exec (.applyAction a) s = .next { s with result := .nothing }

/-- `apply_action(a)` completes when the decoder is idle and touches only the command state, and `engine_enabled` only when `a`
is `PowerToggle` (R193). The row of each of the ten kinds of action completes then too and leaves the same state, VolumeUp,
VolumeDown and the no-ops among them: that a row of an action is its application is the model's reading,
notes/assumptions/18.md. -/
def Obligations.ApplyActionIsTheActionsRow : Prop :=
  ∀ (s : State) (a : Action), s.irdec.phase = .idle →
    ∃ t, exec (.applyAction a) s = .next t ∧ exec a.toInstr s = .next t
      ∧ (a ≠ .powerToggle → t.sched.engineEnabled = s.sched.engineEnabled)
      ∧ t = { s with
          sched := { s.sched with
            rollCmd := t.sched.rollCmd, throttleCmd := t.sched.throttleCmd, engineEnabled := t.sched.engineEnabled },
          result := .nothing }

/-- In whatever phase the decoder is found, `iterate` reads the clock once, then samples the line, then runs each generator
whose deadline is not after that clock value, SERVO_L before SERVO_R before MOTOR, and sleeps to the soonest deadline if
that is still ahead; its transactions are exactly these. A generator that is run has its new registers and its new latches,
and its deadline is advanced by what it returned, from the old deadline; the others keep their registers, latches and
deadlines (R190, R191, R199, R200, R201; that an attempt in progress is the iteration's `poll` is notes/assumptions/26.md). -/
def Obligations.IterateAdvancesTheDueDeadlines : Prop :=
  ∀ s : State, s.PinsReady →
    ∃ t n samples, exec .iterate s = .next t ∧ s.env.clock ≤ n ∧ t.sched.now = n ∧ n ≤ t.env.clock
      ∧ t.irdec.phase = .idle ∧ t.result = .nothing ∧ t.cfg = s.cfg ∧ t.run = s.run ∧ t.program = s.program
      ∧ t.pins.irMode = s.pins.irMode
      ∧ (n < s.sched.nextServoL → t.sched.nextServoL = s.sched.nextServoL ∧ t.servoL = s.servoL
          ∧ t.pins.srvL = s.pins.srvL)
      ∧ (s.sched.nextServoL ≤ n →
          t.sched.nextServoL = s.sched.nextServoL
            + (if s.servoL.pulsePhase = .lowPhase then pulseWidthUs s.cfg t.servoL.positionDeg
              else max 1 (s.cfg.servoFrameUs - pulseWidthUs s.cfg t.servoL.positionDeg))
          ∧ t.servoL = {
              positionDeg := slewToward s.cfg s.servoL.positionDeg (targetDeg s.cfg t.sched.rollCmd true),
              pulsePhase := emittedPhase s.servoL.pulsePhase }
          ∧ t.pins.srvL = { s.pins.srvL with latch := emittedLevel s.servoL.pulsePhase })
      ∧ (n < s.sched.nextServoR → t.sched.nextServoR = s.sched.nextServoR ∧ t.servoR = s.servoR
          ∧ t.pins.srvR = s.pins.srvR)
      ∧ (s.sched.nextServoR ≤ n →
          t.sched.nextServoR = s.sched.nextServoR
            + (if s.servoR.pulsePhase = .lowPhase then pulseWidthUs s.cfg t.servoR.positionDeg
              else max 1 (s.cfg.servoFrameUs - pulseWidthUs s.cfg t.servoR.positionDeg))
          ∧ t.servoR = {
              positionDeg := slewToward s.cfg s.servoR.positionDeg (targetDeg s.cfg t.sched.rollCmd false),
              pulsePhase := emittedPhase s.servoR.pulsePhase }
          ∧ t.pins.srvR = { s.pins.srvR with latch := emittedLevel s.servoR.pulsePhase })
      ∧ (n < s.sched.nextMotor → t.sched.nextMotor = s.sched.nextMotor ∧ t.motor.phase = s.motor.phase
          ∧ t.pins.motIn1 = s.pins.motIn1 ∧ t.pins.motIn2 = s.pins.motIn2)
      ∧ (s.sched.nextMotor ≤ n →
          t.sched.nextMotor = s.sched.nextMotor
            + (if t.motor.dutyUs = 0 ∨ s.cfg.motorPeriodUs ≤ t.motor.dutyUs then s.cfg.motorPeriodUs
              else if s.motor.phase = .coasting then t.motor.dutyUs else s.cfg.motorPeriodUs - t.motor.dutyUs)
          ∧ t.motor.phase = servicePhase s.cfg { t.motor with phase := s.motor.phase }
          ∧ t.pins.motIn1
            = { s.pins.motIn1 with latch := (serviceCode s.cfg { t.motor with phase := s.motor.phase }).1 }
          ∧ t.pins.motIn2
            = { s.pins.motIn2 with latch := (serviceCode s.cfg { t.motor with phase := s.motor.phase }).2 })
      ∧ samples.all (isSampling s.cfg) = true
      ∧ t.trace
        = (if n < soonest t.sched then [Txn.sleepUntil (soonest t.sched)] else [])
          ++ (if s.sched.nextMotor ≤ n
              then motorWrites s.cfg (serviceCode s.cfg { t.motor with phase := s.motor.phase }) else [])
          ++ (if s.sched.nextServoR ≤ n then [Txn.pinWrite (.out .srvR) (emittedLevel s.servoR.pulsePhase)] else [])
          ++ (if s.sched.nextServoL ≤ n then [Txn.pinWrite (.out .srvL) (emittedLevel s.servoL.pulsePhase)] else [])
          ++ samples ++ Txn.now n :: s.trace
      ∧ soonest t.sched = min (min t.sched.nextServoL t.sched.nextServoR) t.sched.nextMotor
      ∧ (n < soonest t.sched → soonest t.sched ≤ t.env.clock)

/-- An iteration on an idle line with no generator due: one clock reading, one read of the line, the throttle handed to the
motor, and a sleep to the soonest deadline; nothing else changes (R190, R198, R199, R201, vector I1). -/
def Obligations.IterateWithNothingDueOnlySleeps : Prop :=
  ∀ (s : State) (late late2 : Nat) (delays : List Nat) (rest : List Level), s.irdec.phase = .idle → s.PinsReady →
    s.env.line = .high :: rest → s.env.delays = late :: late2 :: delays →
    s.env.clock + late < s.sched.nextServoL → s.env.clock + late < s.sched.nextServoR →
    s.env.clock + late < s.sched.nextMotor → 0 ≤ s.sched.throttleCmd → s.sched.throttleCmd ≤ 100 →
    let n := s.env.clock + late
    let m := min (min s.sched.nextServoL s.sched.nextServoR) s.sched.nextMotor
    exec .iterate s = .next { s with
      motor := { s.motor with
        direction := .forward,
        dutyUs := if s.sched.engineEnabled then s.cfg.motorPeriodUs * s.sched.throttleCmd.toNat / 100 else 0 },
      sched := { s.sched with now := n },
      env := { s.env with clock := m + late2, line := rest, delays := delays },
      result := .nothing,
      trace := .sleepUntil m :: .pinRead .ir .high :: .now n :: s.trace }

/-- An iteration applies the action its one poll returns, or none, and the throttle so gated is in force in the same
iteration: forward, with the duty of the new throttle if the engine is enabled and 0 if it is not (R192, R198). -/
def Obligations.IterateAppliesOneActionAndGates : Prop :=
  ∀ s s1 s2 : State, s.InRange → s.irdec.phase = .idle → s.PinsReady →
    exec .now s = .next s1 → exec .poll s1 = .next s2 →
    ∃ t, exec .iterate s = .next t
      ∧ (∀ a, s2.result = .polled (.decoded a) → ∃ u, exec (.applyAction a) s = .next u
          ∧ t.sched.rollCmd = u.sched.rollCmd ∧ t.sched.throttleCmd = u.sched.throttleCmd
          ∧ t.sched.engineEnabled = u.sched.engineEnabled)
      ∧ ((∀ a, s2.result ≠ .polled (.decoded a)) → t.sched.rollCmd = s.sched.rollCmd
          ∧ t.sched.throttleCmd = s.sched.throttleCmd ∧ t.sched.engineEnabled = s.sched.engineEnabled)
      ∧ t.motor.direction = .forward
      ∧ t.motor.dutyUs
          = s.cfg.motorPeriodUs * (if t.sched.engineEnabled then t.sched.throttleCmd.toNat else 0) / 100

/-! ## Boot, reset and the whole machine -/

/-- `boot` runs once, on pins without a mode: each pin gets its mode and every output a low level, every register the value of
R46, all three deadlines the one clock reading (R252, B1; these values are the spec's own decisions D31 to D33). R46 leaves
the other registers of IRDEC and `SCHED.now` unspecified: that boot leaves them as they are is the model's choice
(notes/assumptions/4.md). A second boot is refused by name (U22). -/
def Obligations.BootLeavesTheResetValues : Prop :=
  (∀ s : State, s.run = .powerOn → s.irdec.phase = .idle → (∀ p, s.pins.mode p = none) →
    ∃ t t0, exec .boot s = .next t ∧ s.env.clock ≤ t0 ∧ t.env.clock = t0 ∧ t.run = .running
      ∧ t.irdec = s.irdec ∧ t.motor = { direction := .forward, dutyUs := 0, phase := .coasting }
      ∧ t.servoL = { positionDeg := 0, pulsePhase := .lowPhase }
      ∧ t.servoR = { positionDeg := 0, pulsePhase := .lowPhase }
      ∧ t.sched = {
          rollCmd := 0, throttleCmd := 0, engineEnabled := false,
          nextServoL := t0, nextServoR := t0, nextMotor := t0, now := s.sched.now }
      ∧ t.pins.irMode = some (.input s.cfg.irPinMode)
      ∧ (∀ o, t.pins.cell o = { mode := some (.output s.cfg.outDrive), latch := .low })
      ∧ t.cfg = s.cfg ∧ t.program = s.program ∧ t.result = .nothing ∧ t.env.line = s.env.line
      ∧ t.trace = [.now t0, .pinWrite (.out .srvR) .low, .pinConfigure (.out .srvR) (.output s.cfg.outDrive),
          .pinWrite (.out .srvL) .low, .pinConfigure (.out .srvL) (.output s.cfg.outDrive),
          .pinWrite (.out .motIn2) .low, .pinConfigure (.out .motIn2) (.output s.cfg.outDrive),
          .pinWrite (.out .motIn1) .low, .pinConfigure (.out .motIn1) (.output s.cfg.outDrive),
          .pinConfigure .ir (.input s.cfg.irPinMode)] ++ s.trace)
  ∧ (∀ s : State, s.run = .running → exec .boot s = .refused .secondBoot)

/-- After reset the block stands as R46 lists it: the decoder idle, the motor forward with duty 0 and coasting, the surfaces
centred with low pins, commands zero and the engine disabled, the three deadlines equal (the values are the spec's own
decisions D31 and D32; the registers R46 leaves unspecified are not named here). -/
def Obligations.ResetIsAsListed : Prop :=
  State.reset.irdec.phase = .idle
  ∧ State.reset.motor = { direction := .forward, dutyUs := 0, phase := .coasting }
  ∧ State.reset.servoL = { positionDeg := 0, pulsePhase := .lowPhase } ∧ State.reset.servoR = State.reset.servoL
  ∧ State.reset.sched.rollCmd = 0 ∧ State.reset.sched.throttleCmd = 0 ∧ State.reset.sched.engineEnabled = false
  ∧ State.reset.sched.nextServoL = State.reset.sched.nextMotor ∧ State.reset.sched.nextServoR = State.reset.sched.nextMotor
  ∧ State.reset.sched.nextMotor ≤ State.reset.env.clock
  ∧ (∀ o, (State.reset.pins.cell o).latch = .low) ∧ State.reset.PinsReady

/-- The reset state is settled, with the decoder idle: registers in range under legal parameters, pins ready, latches as the
recorded phases say (R46, R8; the open parameters take any legal value, notes/assumptions/7.md). -/
def Obligations.ResetIsSettled : Prop := State.reset.Settled ∧ State.reset.irdec.phase = .idle

/-- Every step, of any operation, keeps every register in the range the spec gives it (R27, R30, R34, R35). -/
def Obligations.StepKeepsRegistersInRange : Prop :=
  ∀ s t : State, s.InRange → step s = .next t → t.InRange

/-- SCHED never stops and never leaves its settled states: from each of them, in whatever phase the decoder is found, the
next step completes with the decoder idle, the motor is only ever commanded forward with `PIN_MOT_IN2` low, and the pins
agree with the recorded phases (R141, R198, R205, R269). -/
def Obligations.SchedulerNeverStops : Prop :=
  ∀ s : State, s.Settled → ∃ t, step s = .next t ∧ t.Settled ∧ t.irdec.phase = .idle

/-- No operation turns the clock back, changes a parameter, or removes a transaction from the record (R14, R40, R68, R72). -/
def Obligations.ClockAndTraceOnlyGrow : Prop :=
  ∀ (i : Instr) (s t : State), exec i s = .next t →
    t.cfg = s.cfg ∧ s.env.clock ≤ t.env.clock ∧ (∃ new, t.trace = new ++ s.trace)

/-- The deadlines of a running block never fall, whatever operation a step runs, and the block stays running (R37). -/
def Obligations.DeadlinesNeverFall : Prop :=
  ∀ s t : State, s.run = .running → step s = .next t →
    t.run = .running ∧ s.sched.nextServoL ≤ t.sched.nextServoL ∧ s.sched.nextServoR ≤ t.sched.nextServoR
    ∧ s.sched.nextMotor ≤ t.sched.nextMotor

/-- Nothing but an applied action, the iteration that applies one, and boot changes the command state (R39). -/
def Obligations.OnlyActionsChangeTheCommand : Prop :=
  ∀ (i : Instr) (s t : State), exec i s = .next t →
    (t.sched.rollCmd ≠ s.sched.rollCmd →
      i = .rollLeft ∨ i = .rollRight ∨ i = .applyAction .rollLeft ∨ i = .applyAction .rollRight ∨ i = .iterate ∨ i = .boot)
    ∧ (t.sched.throttleCmd ≠ s.sched.throttleCmd ∨ t.sched.engineEnabled ≠ s.sched.engineEnabled →
      i = .volumeUp ∨ i = .volumeDown ∨ i = .powerToggle ∨ i = .applyAction .volumeUp ∨ i = .applyAction .volumeDown
      ∨ i = .applyAction .powerToggle ∨ i = .iterate ∨ i = .boot)
    ∧ (t.sched.engineEnabled ≠ s.sched.engineEnabled →
      i = .powerToggle ∨ i = .applyAction .powerToggle ∨ i = .iterate ∨ i = .boot)

/-- Each unit's registers and each pin have their own writers: MOTOR's registers only `set_throttle`, `service`, `iterate` and
`boot`; a servo's registers only `update` of that instance, `iterate` and `boot`; IRDEC's only the rows a decode attempt is
made of, `iterate` and `boot`, and, before any other row given during an attempt, the attempt that runs to its end first;
the motor pins only `service` and the motor pin codes, a servo's pin only `update` and SERVO_PULSE of that instance, each
beside `iterate`, `boot` and the boundary's own operations on that pin; the mode of `PIN_IR` only `configure` of it and
`boot` (R20, R25, R29 to R32, R61, R62, R111, R141, R252; what the rows of signals and codes do, and that an operation
given during an attempt follows it, are the model's choices, notes/assumptions/15.md to 17.md, 19.md, 20.md and 26.md). -/
def Obligations.UnitsHaveTheirOwnWriters : Prop :=
  ∀ (i : Instr) (s t : State), exec i s = .next t →
    (t.motor ≠ s.motor → (∃ p, i = .setThrottle p) ∨ (∃ n, i = .service n) ∨ i = .iterate ∨ i = .boot)
    ∧ (∀ x, t.servo x ≠ s.servo x → (∃ r b, i = .update x r b) ∨ i = .iterate ∨ i = .boot)
    ∧ (t.irdec ≠ s.irdec →
        (∃ v cap, i = .measureRun v cap) ∨ i = .poll ∨ (∃ a an c cn, i = .necFrame a an c cn)
        ∨ (∃ m n, i = .start m n) ∨ (∃ m n, i = .bit0 m n) ∨ (∃ m n, i = .bit1 m n) ∨ (∃ v m, i = .noSymbol v m)
        ∨ i = .iterate ∨ i = .boot
        ∨ (s.irdec.phase ≠ .idle ∧ t.irdec = (finishAttempt s).irdec))
    ∧ (t.pins.motIn1 ≠ s.pins.motIn1 ∨ t.pins.motIn2 ≠ s.pins.motIn2 →
        (∃ n, i = .service n) ∨ i = .motorForward ∨ i = .motorReverse ∨ i = .motorCoast ∨ i = .motorUndefined
        ∨ i = .iterate ∨ i = .boot
        ∨ (∃ o v, (o = .motIn1 ∨ o = .motIn2) ∧ i = .write (.out o) v)
        ∨ (∃ o m, (o = .motIn1 ∨ o = .motIn2) ∧ i = .configure (.out o) m))
    ∧ (∀ x, t.pins.cell (servoPin x) ≠ s.pins.cell (servoPin x) →
        (∃ r b, i = .update x r b) ∨ i = .servoPulse x ∨ i = .iterate ∨ i = .boot
        ∨ (∃ v, i = .write (.out (servoPin x)) v) ∨ (∃ m, i = .configure (.out (servoPin x)) m))
    ∧ (t.pins.irMode ≠ s.pins.irMode → (∃ m, i = .configure .ir m) ∨ i = .boot)
end

