-- ==== Sys2Proof/Laws/State.lean ====
section
/-! SUPPORT. Laws/State.lean: one lemma per field per update, all true by unfolding, so that no proof unfolds an update. -/

namespace Sys2Proof.Machine

section
variable (s : State)

@[simp] theorem State.setRun_cfg (v : RunPhase) : (s.setRun v).cfg = s.cfg := rfl
@[simp] theorem State.setRun_run (v : RunPhase) : (s.setRun v).run = v := rfl
@[simp] theorem State.setRun_irdec (v : RunPhase) : (s.setRun v).irdec = s.irdec := rfl
@[simp] theorem State.setRun_motor (v : RunPhase) : (s.setRun v).motor = s.motor := rfl
@[simp] theorem State.setRun_servoL (v : RunPhase) : (s.setRun v).servoL = s.servoL := rfl
@[simp] theorem State.setRun_servoR (v : RunPhase) : (s.setRun v).servoR = s.servoR := rfl
@[simp] theorem State.setRun_sched (v : RunPhase) : (s.setRun v).sched = s.sched := rfl
@[simp] theorem State.setRun_pins (v : RunPhase) : (s.setRun v).pins = s.pins := rfl
@[simp] theorem State.setRun_env (v : RunPhase) : (s.setRun v).env = s.env := rfl
@[simp] theorem State.setRun_result (v : RunPhase) : (s.setRun v).result = s.result := rfl
@[simp] theorem State.setRun_trace (v : RunPhase) : (s.setRun v).trace = s.trace := rfl
@[simp] theorem State.setRun_program (v : RunPhase) : (s.setRun v).program = s.program := rfl
@[simp] theorem State.setIrdec_cfg (v : Irdec) : (s.setIrdec v).cfg = s.cfg := rfl
@[simp] theorem State.setIrdec_run (v : Irdec) : (s.setIrdec v).run = s.run := rfl
@[simp] theorem State.setIrdec_irdec (v : Irdec) : (s.setIrdec v).irdec = v := rfl
@[simp] theorem State.setIrdec_motor (v : Irdec) : (s.setIrdec v).motor = s.motor := rfl
@[simp] theorem State.setIrdec_servoL (v : Irdec) : (s.setIrdec v).servoL = s.servoL := rfl
@[simp] theorem State.setIrdec_servoR (v : Irdec) : (s.setIrdec v).servoR = s.servoR := rfl
@[simp] theorem State.setIrdec_sched (v : Irdec) : (s.setIrdec v).sched = s.sched := rfl
@[simp] theorem State.setIrdec_pins (v : Irdec) : (s.setIrdec v).pins = s.pins := rfl
@[simp] theorem State.setIrdec_env (v : Irdec) : (s.setIrdec v).env = s.env := rfl
@[simp] theorem State.setIrdec_result (v : Irdec) : (s.setIrdec v).result = s.result := rfl
@[simp] theorem State.setIrdec_trace (v : Irdec) : (s.setIrdec v).trace = s.trace := rfl
@[simp] theorem State.setIrdec_program (v : Irdec) : (s.setIrdec v).program = s.program := rfl
@[simp] theorem State.setMotor_cfg (v : Motor) : (s.setMotor v).cfg = s.cfg := rfl
@[simp] theorem State.setMotor_run (v : Motor) : (s.setMotor v).run = s.run := rfl
@[simp] theorem State.setMotor_irdec (v : Motor) : (s.setMotor v).irdec = s.irdec := rfl
@[simp] theorem State.setMotor_motor (v : Motor) : (s.setMotor v).motor = v := rfl
@[simp] theorem State.setMotor_servoL (v : Motor) : (s.setMotor v).servoL = s.servoL := rfl
@[simp] theorem State.setMotor_servoR (v : Motor) : (s.setMotor v).servoR = s.servoR := rfl
@[simp] theorem State.setMotor_sched (v : Motor) : (s.setMotor v).sched = s.sched := rfl
@[simp] theorem State.setMotor_pins (v : Motor) : (s.setMotor v).pins = s.pins := rfl
@[simp] theorem State.setMotor_env (v : Motor) : (s.setMotor v).env = s.env := rfl
@[simp] theorem State.setMotor_result (v : Motor) : (s.setMotor v).result = s.result := rfl
@[simp] theorem State.setMotor_trace (v : Motor) : (s.setMotor v).trace = s.trace := rfl
@[simp] theorem State.setMotor_program (v : Motor) : (s.setMotor v).program = s.program := rfl
@[simp] theorem State.setServoL_cfg (v : Servo) : (s.setServoL v).cfg = s.cfg := rfl
@[simp] theorem State.setServoL_run (v : Servo) : (s.setServoL v).run = s.run := rfl
@[simp] theorem State.setServoL_irdec (v : Servo) : (s.setServoL v).irdec = s.irdec := rfl
@[simp] theorem State.setServoL_motor (v : Servo) : (s.setServoL v).motor = s.motor := rfl
@[simp] theorem State.setServoL_servoL (v : Servo) : (s.setServoL v).servoL = v := rfl
@[simp] theorem State.setServoL_servoR (v : Servo) : (s.setServoL v).servoR = s.servoR := rfl
@[simp] theorem State.setServoL_sched (v : Servo) : (s.setServoL v).sched = s.sched := rfl
@[simp] theorem State.setServoL_pins (v : Servo) : (s.setServoL v).pins = s.pins := rfl
@[simp] theorem State.setServoL_env (v : Servo) : (s.setServoL v).env = s.env := rfl
@[simp] theorem State.setServoL_result (v : Servo) : (s.setServoL v).result = s.result := rfl
@[simp] theorem State.setServoL_trace (v : Servo) : (s.setServoL v).trace = s.trace := rfl
@[simp] theorem State.setServoL_program (v : Servo) : (s.setServoL v).program = s.program := rfl
@[simp] theorem State.setServoR_cfg (v : Servo) : (s.setServoR v).cfg = s.cfg := rfl
@[simp] theorem State.setServoR_run (v : Servo) : (s.setServoR v).run = s.run := rfl
@[simp] theorem State.setServoR_irdec (v : Servo) : (s.setServoR v).irdec = s.irdec := rfl
@[simp] theorem State.setServoR_motor (v : Servo) : (s.setServoR v).motor = s.motor := rfl
@[simp] theorem State.setServoR_servoL (v : Servo) : (s.setServoR v).servoL = s.servoL := rfl
@[simp] theorem State.setServoR_servoR (v : Servo) : (s.setServoR v).servoR = v := rfl
@[simp] theorem State.setServoR_sched (v : Servo) : (s.setServoR v).sched = s.sched := rfl
@[simp] theorem State.setServoR_pins (v : Servo) : (s.setServoR v).pins = s.pins := rfl
@[simp] theorem State.setServoR_env (v : Servo) : (s.setServoR v).env = s.env := rfl
@[simp] theorem State.setServoR_result (v : Servo) : (s.setServoR v).result = s.result := rfl
@[simp] theorem State.setServoR_trace (v : Servo) : (s.setServoR v).trace = s.trace := rfl
@[simp] theorem State.setServoR_program (v : Servo) : (s.setServoR v).program = s.program := rfl
@[simp] theorem State.setSched_cfg (v : Sched) : (s.setSched v).cfg = s.cfg := rfl
@[simp] theorem State.setSched_run (v : Sched) : (s.setSched v).run = s.run := rfl
@[simp] theorem State.setSched_irdec (v : Sched) : (s.setSched v).irdec = s.irdec := rfl
@[simp] theorem State.setSched_motor (v : Sched) : (s.setSched v).motor = s.motor := rfl
@[simp] theorem State.setSched_servoL (v : Sched) : (s.setSched v).servoL = s.servoL := rfl
@[simp] theorem State.setSched_servoR (v : Sched) : (s.setSched v).servoR = s.servoR := rfl
@[simp] theorem State.setSched_sched (v : Sched) : (s.setSched v).sched = v := rfl
@[simp] theorem State.setSched_pins (v : Sched) : (s.setSched v).pins = s.pins := rfl
@[simp] theorem State.setSched_env (v : Sched) : (s.setSched v).env = s.env := rfl
@[simp] theorem State.setSched_result (v : Sched) : (s.setSched v).result = s.result := rfl
@[simp] theorem State.setSched_trace (v : Sched) : (s.setSched v).trace = s.trace := rfl
@[simp] theorem State.setSched_program (v : Sched) : (s.setSched v).program = s.program := rfl
@[simp] theorem State.setPins_cfg (v : Pins) : (s.setPins v).cfg = s.cfg := rfl
@[simp] theorem State.setPins_run (v : Pins) : (s.setPins v).run = s.run := rfl
@[simp] theorem State.setPins_irdec (v : Pins) : (s.setPins v).irdec = s.irdec := rfl
@[simp] theorem State.setPins_motor (v : Pins) : (s.setPins v).motor = s.motor := rfl
@[simp] theorem State.setPins_servoL (v : Pins) : (s.setPins v).servoL = s.servoL := rfl
@[simp] theorem State.setPins_servoR (v : Pins) : (s.setPins v).servoR = s.servoR := rfl
@[simp] theorem State.setPins_sched (v : Pins) : (s.setPins v).sched = s.sched := rfl
@[simp] theorem State.setPins_pins (v : Pins) : (s.setPins v).pins = v := rfl
@[simp] theorem State.setPins_env (v : Pins) : (s.setPins v).env = s.env := rfl
@[simp] theorem State.setPins_result (v : Pins) : (s.setPins v).result = s.result := rfl
@[simp] theorem State.setPins_trace (v : Pins) : (s.setPins v).trace = s.trace := rfl
@[simp] theorem State.setPins_program (v : Pins) : (s.setPins v).program = s.program := rfl
@[simp] theorem State.setEnv_cfg (v : Env) : (s.setEnv v).cfg = s.cfg := rfl
@[simp] theorem State.setEnv_run (v : Env) : (s.setEnv v).run = s.run := rfl
@[simp] theorem State.setEnv_irdec (v : Env) : (s.setEnv v).irdec = s.irdec := rfl
@[simp] theorem State.setEnv_motor (v : Env) : (s.setEnv v).motor = s.motor := rfl
@[simp] theorem State.setEnv_servoL (v : Env) : (s.setEnv v).servoL = s.servoL := rfl
@[simp] theorem State.setEnv_servoR (v : Env) : (s.setEnv v).servoR = s.servoR := rfl
@[simp] theorem State.setEnv_sched (v : Env) : (s.setEnv v).sched = s.sched := rfl
@[simp] theorem State.setEnv_pins (v : Env) : (s.setEnv v).pins = s.pins := rfl
@[simp] theorem State.setEnv_env (v : Env) : (s.setEnv v).env = v := rfl
@[simp] theorem State.setEnv_result (v : Env) : (s.setEnv v).result = s.result := rfl
@[simp] theorem State.setEnv_trace (v : Env) : (s.setEnv v).trace = s.trace := rfl
@[simp] theorem State.setEnv_program (v : Env) : (s.setEnv v).program = s.program := rfl
@[simp] theorem State.setResult_cfg (v : Result) : (s.setResult v).cfg = s.cfg := rfl
@[simp] theorem State.setResult_run (v : Result) : (s.setResult v).run = s.run := rfl
@[simp] theorem State.setResult_irdec (v : Result) : (s.setResult v).irdec = s.irdec := rfl
@[simp] theorem State.setResult_motor (v : Result) : (s.setResult v).motor = s.motor := rfl
@[simp] theorem State.setResult_servoL (v : Result) : (s.setResult v).servoL = s.servoL := rfl
@[simp] theorem State.setResult_servoR (v : Result) : (s.setResult v).servoR = s.servoR := rfl
@[simp] theorem State.setResult_sched (v : Result) : (s.setResult v).sched = s.sched := rfl
@[simp] theorem State.setResult_pins (v : Result) : (s.setResult v).pins = s.pins := rfl
@[simp] theorem State.setResult_env (v : Result) : (s.setResult v).env = s.env := rfl
@[simp] theorem State.setResult_result (v : Result) : (s.setResult v).result = v := rfl
@[simp] theorem State.setResult_trace (v : Result) : (s.setResult v).trace = s.trace := rfl
@[simp] theorem State.setResult_program (v : Result) : (s.setResult v).program = s.program := rfl
@[simp] theorem State.setTrace_cfg (v : List Txn) : (s.setTrace v).cfg = s.cfg := rfl
@[simp] theorem State.setTrace_run (v : List Txn) : (s.setTrace v).run = s.run := rfl
@[simp] theorem State.setTrace_irdec (v : List Txn) : (s.setTrace v).irdec = s.irdec := rfl
@[simp] theorem State.setTrace_motor (v : List Txn) : (s.setTrace v).motor = s.motor := rfl
@[simp] theorem State.setTrace_servoL (v : List Txn) : (s.setTrace v).servoL = s.servoL := rfl
@[simp] theorem State.setTrace_servoR (v : List Txn) : (s.setTrace v).servoR = s.servoR := rfl
@[simp] theorem State.setTrace_sched (v : List Txn) : (s.setTrace v).sched = s.sched := rfl
@[simp] theorem State.setTrace_pins (v : List Txn) : (s.setTrace v).pins = s.pins := rfl
@[simp] theorem State.setTrace_env (v : List Txn) : (s.setTrace v).env = s.env := rfl
@[simp] theorem State.setTrace_result (v : List Txn) : (s.setTrace v).result = s.result := rfl
@[simp] theorem State.setTrace_trace (v : List Txn) : (s.setTrace v).trace = v := rfl
@[simp] theorem State.setTrace_program (v : List Txn) : (s.setTrace v).program = s.program := rfl
@[simp] theorem State.setProgram_cfg (v : List Word) : (s.setProgram v).cfg = s.cfg := rfl
@[simp] theorem State.setProgram_run (v : List Word) : (s.setProgram v).run = s.run := rfl
@[simp] theorem State.setProgram_irdec (v : List Word) : (s.setProgram v).irdec = s.irdec := rfl
@[simp] theorem State.setProgram_motor (v : List Word) : (s.setProgram v).motor = s.motor := rfl
@[simp] theorem State.setProgram_servoL (v : List Word) : (s.setProgram v).servoL = s.servoL := rfl
@[simp] theorem State.setProgram_servoR (v : List Word) : (s.setProgram v).servoR = s.servoR := rfl
@[simp] theorem State.setProgram_sched (v : List Word) : (s.setProgram v).sched = s.sched := rfl
@[simp] theorem State.setProgram_pins (v : List Word) : (s.setProgram v).pins = s.pins := rfl
@[simp] theorem State.setProgram_env (v : List Word) : (s.setProgram v).env = s.env := rfl
@[simp] theorem State.setProgram_result (v : List Word) : (s.setProgram v).result = s.result := rfl
@[simp] theorem State.setProgram_trace (v : List Word) : (s.setProgram v).trace = s.trace := rfl
@[simp] theorem State.setProgram_program (v : List Word) : (s.setProgram v).program = v := rfl

/-! The servo of a side. -/

@[simp] theorem State.setServo_cfg (x : Side) (v : Servo) : (s.setServo x v).cfg = s.cfg := by cases x <;> rfl
@[simp] theorem State.setServo_run (x : Side) (v : Servo) : (s.setServo x v).run = s.run := by cases x <;> rfl
@[simp] theorem State.setServo_irdec (x : Side) (v : Servo) : (s.setServo x v).irdec = s.irdec := by cases x <;> rfl
@[simp] theorem State.setServo_motor (x : Side) (v : Servo) : (s.setServo x v).motor = s.motor := by cases x <;> rfl
@[simp] theorem State.setServo_sched (x : Side) (v : Servo) : (s.setServo x v).sched = s.sched := by cases x <;> rfl
@[simp] theorem State.setServo_pins (x : Side) (v : Servo) : (s.setServo x v).pins = s.pins := by cases x <;> rfl
@[simp] theorem State.setServo_env (x : Side) (v : Servo) : (s.setServo x v).env = s.env := by cases x <;> rfl
@[simp] theorem State.setServo_result (x : Side) (v : Servo) : (s.setServo x v).result = s.result := by cases x <;> rfl
@[simp] theorem State.setServo_trace (x : Side) (v : Servo) : (s.setServo x v).trace = s.trace := by cases x <;> rfl
@[simp] theorem State.setServo_program (x : Side) (v : Servo) : (s.setServo x v).program = s.program := by cases x <;> rfl
@[simp] theorem State.setServo_servo (x : Side) (v : Servo) : (s.setServo x v).servo x = v := by cases x <;> rfl
@[simp] theorem State.setServo_left (v : Servo) : s.setServo .left v = s.setServoL v := rfl
@[simp] theorem State.setServo_right (v : Servo) : s.setServo .right v = s.setServoR v := rfl
@[simp] theorem State.servo_left : s.servo .left = s.servoL := rfl
@[simp] theorem State.servo_right : s.servo .right = s.servoR := rfl

end

/-! The pins. -/

@[simp] theorem Pins.cell_setCell_same (p : Pins) (o : OutPin) (c : OutCell) : (p.setCell o c).cell o = c := by
  cases o <;> rfl

theorem Pins.cell_setCell_other (p : Pins) {o o' : OutPin} (h : o' ≠ o) (c : OutCell) :
    (p.setCell o c).cell o' = p.cell o' := by
  cases o <;> cases o' <;> first | rfl | exact absurd rfl h

@[simp] theorem Pins.irMode_setCell (p : Pins) (o : OutPin) (c : OutCell) : (p.setCell o c).irMode = p.irMode := by
  cases o <;> rfl

/-- Writing a latch changes no mode. -/
@[simp] theorem Pins.mode_setLatch (p : Pins) (o : OutPin) (v : Level) (q : OutPin) :
    ((p.setCell o { (p.cell o) with latch := v }).cell q).mode = (p.cell q).mode := by
  cases o <;> cases q <;> rfl

end Sys2Proof.Machine
end

