-- ==== Sys2Proof/Laws/Transactions.lean ====
section
/-! SUPPORT. Laws/Transactions.lean: what each port transaction can do, said once. -/

namespace Sys2Proof.Machine

/-- `t` is a later state than `s`: the same block and boot, the clock no earlier, the trace grown at its new end. -/
structure Later (s t : State) : Prop where
  cfg : t.cfg = s.cfg
  program : t.program = s.program
  clock : s.env.clock ≤ t.env.clock
  trace : ∃ new, t.trace = new ++ s.trace

theorem Later.refl (s : State) : Later s s := ⟨rfl, rfl, Nat.le_refl _, [], rfl⟩

theorem Later.trans {s t u : State} (h : Later s t) (k : Later t u) : Later s u := by
  obtain ⟨n1, e1⟩ := h.trace
  obtain ⟨n2, e2⟩ := k.trace
  exact ⟨k.cfg.trans h.cfg, k.program.trans h.program, Nat.le_trans h.clock k.clock, n2 ++ n1, by
    rw [e2, e1, List.append_assoc]⟩

/-- Nothing outside IRDEC, the environment, the result and the trace differs (R130). -/
structure SameUnits (s t : State) : Prop where
  run : t.run = s.run
  motor : t.motor = s.motor
  servoL : t.servoL = s.servoL
  servoR : t.servoR = s.servoR
  sched : t.sched = s.sched
  pins : t.pins = s.pins

theorem SameUnits.refl (s : State) : SameUnits s s := ⟨rfl, rfl, rfl, rfl, rfl, rfl⟩

theorem SameUnits.trans {s t u : State} (h : SameUnits s t) (k : SameUnits t u) : SameUnits s u :=
  ⟨k.run.trans h.run, k.motor.trans h.motor, k.servoL.trans h.servoL, k.servoR.trans h.servoR,
    k.sched.trans h.sched, k.pins.trans h.pins⟩

/-! ## The environment -/

theorem nextDelay_clock (e : Env) : (nextDelay e).2.clock = e.clock := by
  unfold nextDelay
  split <;> rfl

theorem nextDelay_line (e : Env) : (nextDelay e).2.line = e.line := by
  unfold nextDelay
  split <;> rfl

/-- The clock after an advance: at least the old clock and at least the moment asked for (R68). -/
theorem advanceTo_spec (t : Nat) (e : Env) :
    e.clock ≤ (advanceTo t e).clock ∧ t ≤ (advanceTo t e).clock ∧ (advanceTo t e).line = e.line := by
  refine ⟨?_, ?_, ?_⟩
  · exact Nat.le_trans (Nat.le_max_left _ t) (Nat.le_add_right _ _)
  · exact Nat.le_trans (Nat.le_max_right e.clock t) (Nat.le_add_right _ _)
  · exact nextDelay_line e

theorem advanceTo_clock_given (t : Nat) (e : Env) (d : Nat) (rest : List Nat) (h : e.delays = d :: rest) :
    advanceTo t e = { e with delays := rest, clock := max e.clock t + d } := by
  simp [advanceTo, nextDelay, h]

theorem nextLevel_clock (e : Env) : (nextLevel e).2.clock = e.clock := by
  unfold nextLevel
  split <;> rfl

theorem nextLevel_cons (e : Env) (v : Level) (rest : List Level) (h : e.line = v :: rest) :
    nextLevel e = (v, { e with line := rest }) := by
  simp [nextLevel, h]

/-! ## Transactions -/

/-- `PinRead(PIN_IR)` changes the environment and the trace, nothing else (R64, R112). -/
theorem readIr_spec (s : State) :
    Later s (readIr s).2 ∧ SameUnits s (readIr s).2 ∧ (readIr s).2.irdec = s.irdec
      ∧ (readIr s).2.env.clock = s.env.clock ∧ (readIr s).2.trace = .pinRead .ir (readIr s).1 :: s.trace :=
  ⟨⟨rfl, rfl, Nat.le_of_eq (nextLevel_clock s.env).symm, [.pinRead .ir (readIr s).1], rfl⟩, ⟨rfl, rfl, rfl, rfl, rfl, rfl⟩, rfl,
    nextLevel_clock s.env, rfl⟩

theorem readIr_cons (s : State) (v : Level) (rest : List Level) (h : s.env.line = v :: rest) :
    readIr s = (v, record (.pinRead .ir v) (s.setEnv { s.env with line := rest })) := by
  simp [readIr, nextLevel_cons s.env v rest h]

/-- `SleepFor(d)` changes the environment and the trace; the clock advances by at least `d` (R115). -/
theorem sleepFor_spec (d : Nat) (s : State) :
    Later s (sleepFor d s) ∧ SameUnits s (sleepFor d s) ∧ (sleepFor d s).irdec = s.irdec
      ∧ (sleepFor d s).env.line = s.env.line ∧ s.env.clock + d ≤ (sleepFor d s).env.clock
      ∧ (sleepFor d s).trace = .sleepFor d :: s.trace :=
  have h := advanceTo_spec (s.env.clock + d) s.env
  ⟨⟨rfl, rfl, h.1, [.sleepFor d], rfl⟩, ⟨rfl, rfl, rfl, rfl, rfl, rfl⟩, rfl, h.2.2, h.2.1, rfl⟩

/-- `SleepUntil(t)` (R116). -/
theorem sleepUntil_spec (t : Nat) (s : State) :
    Later s (sleepUntil t s) ∧ SameUnits s (sleepUntil t s) ∧ (sleepUntil t s).irdec = s.irdec
      ∧ (sleepUntil t s).env.line = s.env.line ∧ t ≤ (sleepUntil t s).env.clock
      ∧ (sleepUntil t s).trace = .sleepUntil t :: s.trace :=
  have h := advanceTo_spec t s.env
  ⟨⟨rfl, rfl, h.1, [.sleepUntil t], rfl⟩, ⟨rfl, rfl, rfl, rfl, rfl, rfl⟩, rfl, h.2.2, h.2.1, rfl⟩

/-- `Now()` returns the clock it leaves, no earlier than before (R68, R114). -/
theorem clockRead_spec (s : State) :
    Later s (clockRead s).2 ∧ SameUnits s (clockRead s).2 ∧ (clockRead s).2.irdec = s.irdec
      ∧ (clockRead s).2.env.line = s.env.line ∧ (clockRead s).2.env.clock = (clockRead s).1
      ∧ (clockRead s).2.trace = .now (clockRead s).1 :: s.trace :=
  have h := advanceTo_spec s.env.clock s.env
  ⟨⟨rfl, rfl, h.1, [.now (clockRead s).1], rfl⟩, ⟨rfl, rfl, rfl, rfl, rfl, rfl⟩, rfl, h.2.2, rfl, rfl⟩

/-- Time passing on a pin (R68). -/
theorem hold_spec (d : Nat) (s : State) :
    Later s (hold d s) ∧ SameUnits s (hold d s) ∧ (hold d s).irdec = s.irdec ∧ s.env.clock + d ≤ (hold d s).env.clock
      ∧ (hold d s).trace = s.trace :=
  have h := advanceTo_spec (s.env.clock + d) s.env
  ⟨⟨rfl, rfl, h.1, [], rfl⟩, ⟨rfl, rfl, rfl, rfl, rfl, rfl⟩, rfl, h.2.1, rfl⟩

/-- `PinWrite` changes one latch and the trace (R113). -/
theorem pinWrite_spec (o : OutPin) (v : Level) (s : State) :
    Later s (pinWrite o v s) ∧ (pinWrite o v s).env = s.env ∧ (pinWrite o v s).irdec = s.irdec
      ∧ (pinWrite o v s).motor = s.motor ∧ (pinWrite o v s).servoL = s.servoL ∧ (pinWrite o v s).servoR = s.servoR
      ∧ (pinWrite o v s).sched = s.sched ∧ (pinWrite o v s).run = s.run
      ∧ (pinWrite o v s).pins = s.pins.setCell o { (s.pins.cell o) with latch := v } :=
  ⟨⟨rfl, rfl, Nat.le_refl _, [.pinWrite (.out o) v], rfl⟩, rfl, rfl, rfl, rfl, rfl, rfl, rfl, rfl⟩

/-- `PinConfigure` changes one pin, the free counter and the trace (R111). -/
theorem pinConfigure_spec (p : Pin) (m : PinMode) (s : State) :
    Later s (pinConfigure p m s) ∧ (pinConfigure p m s).irdec = s.irdec ∧ (pinConfigure p m s).motor = s.motor
      ∧ (pinConfigure p m s).servoL = s.servoL ∧ (pinConfigure p m s).servoR = s.servoR
      ∧ (pinConfigure p m s).sched = s.sched ∧ (pinConfigure p m s).run = s.run
      ∧ (pinConfigure p m s).pins.mode p = some m := by
  cases p with
  | ir => exact ⟨⟨rfl, rfl, Nat.le_refl _, [.pinConfigure .ir m], rfl⟩, rfl, rfl, rfl, rfl, rfl, rfl, rfl⟩
  | out o =>
    cases m with
    | input q =>
      exact ⟨⟨rfl, rfl, Nat.le_refl _, [.pinConfigure (.out o) (.input q)], rfl⟩, rfl, rfl, rfl, rfl, rfl, rfl, by
        cases o <;> rfl⟩
    | output d =>
      exact ⟨⟨rfl, rfl, Nat.le_refl _, [.pinConfigure (.out o) (.output d)], rfl⟩, rfl, rfl, rfl, rfl, rfl, rfl, by
        cases o <;> rfl⟩

end Sys2Proof.Machine
end

