-- ==== Sys2Proof/Laws/Decoder.lean ====
section
/-! SUPPORT. Laws/Decoder.lean: what `measure_run`, a decode phase, a `poll` and the reception of a symbol can do. -/

namespace Sys2Proof.Machine

/-- Only IRDEC, the environment, the result and the trace can differ, time does not run back, the trace's new end holds only
reads of `PIN_IR` and sleeps of `T_S_US`, and `n` of them are such sleeps, which take at least that long (R130, R142). -/
structure Decoded (n : Nat) (s t : State) : Prop where
  later : Later s t
  units : SameUnits s t
  sleeps : sleepsIn t.trace = sleepsIn s.trace + n
  time : s.env.clock + n * s.cfg.tSUs ≤ t.env.clock
  fresh : ∃ new, t.trace = new ++ s.trace ∧ new.all (isSampling s.cfg) = true

theorem Decoded.refl (s : State) : Decoded 0 s s := ⟨Later.refl s, SameUnits.refl s, rfl, by simp, [], rfl, rfl⟩

theorem Decoded.trans {m n : Nat} {s t u : State} (h : Decoded m s t) (k : Decoded n t u) : Decoded (m + n) s u := by
  refine ⟨h.later.trans k.later, h.units.trans k.units, ?_, ?_, ?_⟩
  · rw [k.sleeps, h.sleeps, Nat.add_assoc]
  · have h1 := h.time
    have h2 := k.time
    rw [h.later.cfg] at h2
    rw [Nat.add_mul]
    omega
  · obtain ⟨new, e, hn⟩ := h.fresh
    obtain ⟨new', e', hn'⟩ := k.fresh
    rw [h.later.cfg] at hn'
    exact ⟨new' ++ new, by rw [e', e, List.append_assoc], by rw [List.all_append, hn, hn']; rfl⟩

/-- A change of IRDEC's registers or of the result alone. -/
theorem Decoded.of_irdec (s t : State) (h : t = { s with irdec := t.irdec, result := t.result }) : Decoded 0 s t := by
  rw [h]
  exact ⟨⟨rfl, rfl, Nat.le_refl _, [], rfl⟩, ⟨rfl, rfl, rfl, rfl, rfl, rfl⟩, rfl, by simp, [], rfl, rfl⟩

theorem readIr_decoded (s : State) : Decoded 0 s (readIr s).2 := by
  have h := readIr_spec s
  refine ⟨h.1, h.2.1, ?_, ?_, [.pinRead .ir (readIr s).1], h.2.2.2.2, rfl⟩
  · rw [h.2.2.2.2]
    rfl
  · rw [h.2.2.2.1]
    simp

theorem sleepSample_decoded (s : State) : Decoded 1 s (sleepFor s.cfg.tSUs s) := by
  have h := sleepFor_spec s.cfg.tSUs s
  refine ⟨h.1, h.2.1, ?_, ?_, [.sleepFor s.cfg.tSUs], h.2.2.2.2.2, by simp [isSampling]⟩
  · rw [h.2.2.2.2.2]
    rfl
  · simpa using h.2.2.2.2.1

/-- The loop of `measure_run` adds `n ≤ fuel` to the count, with one sleep for each (R131). -/
theorem measureLoop_spec (level : Level) (fuel : Nat) (s : State) :
    ∃ n, n ≤ fuel ∧ Decoded n s (measureLoop level fuel s)
      ∧ (measureLoop level fuel s).irdec = { s.irdec with count := s.irdec.count + n }
      ∧ (measureLoop level fuel s).result = s.result := by
  induction fuel generalizing s with
  | zero => exact ⟨0, Nat.le_refl 0, Decoded.refl s, rfl, rfl⟩
  | succ fuel ih =>
    by_cases hv : (readIr s).1 ≠ level
    · refine ⟨0, Nat.zero_le _, ?_, ?_, ?_⟩
      · simpa [measureLoop, hv] using readIr_decoded s
      · simpa [measureLoop, hv] using (readIr_spec s).2.2.1
      · simp only [measureLoop]
        rw [if_pos hv]
        rfl
    · have hi := (readIr_spec s).2.2.1
      let s1 := setCount ((readIr s).2.irdec.count + 1) (readIr s).2
      have hs1 : Decoded 0 (readIr s).2 s1 := Decoded.of_irdec _ _ rfl
      have hs2 : Decoded 1 s (sleepFor s1.cfg.tSUs s1) := by
        simpa using ((readIr_decoded s).trans hs1).trans (sleepSample_decoded s1)
      have hrun : measureLoop level (fuel + 1) s = measureLoop level fuel (sleepFor s1.cfg.tSUs s1) := by
        simp only [measureLoop]
        rw [if_neg hv]
        rfl
      obtain ⟨n, hn, hd, hc, hr⟩ := ih (sleepFor s1.cfg.tSUs s1)
      refine ⟨1 + n, by omega, ?_, ?_, ?_⟩
      · rw [hrun]
        exact hs2.trans hd
      · rw [hrun, hc, (sleepFor_spec s1.cfg.tSUs s1).2.2.1]
        simp [s1, setCount, hi]
        omega
      · rw [hrun, hr]
        simp [s1, sleepFor, setCount, readIr, record]

/-- `measure_run` counts `n ≤ cap` samples with a sleep after each; of IRDEC only the count changes (R131). -/
theorem measureRun_spec (level : Level) (cap : Nat) (s : State) :
    ∃ n, n ≤ cap ∧ Decoded n s (measureRun level cap s) ∧ (measureRun level cap s).irdec = { s.irdec with count := n }
      ∧ (measureRun level cap s).result = s.result := by
  obtain ⟨n, hn, hd, hc, hr⟩ := measureLoop_spec level cap (setCount 0 s)
  refine ⟨n, hn, ?_, ?_, hr⟩
  · have h := (Decoded.of_irdec s (setCount 0 s) rfl).trans hd
    rwa [Nat.zero_add] at h
  · rw [measureRun, hc]
    simp [setCount]

/-- What a run measured inside a `poll` can end in: the abort at the cap, or the next phase below it (R133). -/
theorem measureOrAbort_spec (level : Level) (cap : Nat) (r : AbortReason) (k : State → State) (s : State)
    (hk : ∀ t, Decoded 0 t (k t)) :
    ∃ n, n ≤ cap ∧ Decoded n s (measureOrAbort level cap r k s)
      ∧ ((n = cap ∧ (measureOrAbort level cap r k s).irdec.phase = .idle
            ∧ (measureOrAbort level cap r k s).result = .polled (.aborted r))
        ∨ (n < cap ∧ ∃ s1, s1.irdec = { s.irdec with count := n } ∧ s1.result = s.result ∧ s1.cfg = s.cfg
            ∧ measureOrAbort level cap r k s = k s1)) := by
  obtain ⟨n, hn, hd, hc, hr⟩ := measureRun_spec level cap s
  refine ⟨n, hn, ?_, ?_⟩
  · unfold measureOrAbort
    simp only
    split
    · simpa using hd.trans (Decoded.of_irdec _ (abortPoll r (measureRun level cap s)) rfl)
    · simpa using hd.trans (hk (measureRun level cap s))
  · by_cases h : n = cap
    · refine .inl ⟨h, ?_, ?_⟩ <;> simp [measureOrAbort, hc, h, abortPoll, setPhase]
    · refine .inr ⟨by omega, measureRun level cap s, hc, hr, hd.later.cfg, ?_⟩
      simp [measureOrAbort, hc, h]

theorem setPhase_decoded (p : IrPhase) (s : State) : Decoded 0 s (setPhase p s) := Decoded.of_irdec _ _ rfl

theorem beginPayload_decoded (s : State) : Decoded 0 s (beginPayload s) := Decoded.of_irdec _ _ rfl

theorem storeBit_decoded (s : State) : Decoded 0 s (storeBit s) := by
  refine Decoded.of_irdec _ _ ?_
  unfold storeBit
  simp only
  split <;> rfl

theorem returnPoll_decoded (o : PollOutcome) (s : State) : Decoded 0 s (returnPoll o s) := Decoded.of_irdec _ _ rfl

/-- The cap of the run that a phase measures (R134 to R136). -/
def phaseCap (c : Params) : IrPhase → Nat
  | .idle => 0
  | .startLow => c.startLowMax
  | .startHigh => c.startHighMax
  | .bitLow => c.bitLowMax
  | .bitHigh => c.bitHighMax
  | .check => 0

/-- One decode phase samples at most its cap and touches IRDEC only. -/
theorem decodePhase_spec (s : State) : ∃ n, n ≤ phaseCap s.cfg s.irdec.phase ∧ Decoded n s (decodePhase s) := by
  unfold decodePhase phaseCap
  cases hp : s.irdec.phase with
  | idle => exact ⟨0, Nat.le_refl _, Decoded.refl s⟩
  | startLow =>
    obtain ⟨n, hn, hd, -⟩ := measureOrAbort_spec .low s.cfg.startLowMax .startLowTimeout _ s (setPhase_decoded .startHigh)
    exact ⟨n, hn, hd⟩
  | startHigh =>
    obtain ⟨n, hn, hd, -⟩ := measureOrAbort_spec .high s.cfg.startHighMax .startHighTimeout _ s beginPayload_decoded
    exact ⟨n, hn, hd⟩
  | bitLow =>
    obtain ⟨n, hn, hd, -⟩ :=
      measureOrAbort_spec .low s.cfg.bitLowMax (.bitLowTimeout s.irdec.bitIdx) _ s (setPhase_decoded .bitHigh)
    exact ⟨n, hn, hd⟩
  | bitHigh =>
    obtain ⟨n, hn, hd, -⟩ :=
      measureOrAbort_spec .high s.cfg.bitHighMax (.bitHighTimeout s.irdec.bitIdx) _ s storeBit_decoded
    exact ⟨n, hn, hd⟩
  | check => exact ⟨0, Nat.le_refl _, returnPoll_decoded _ s⟩

theorem runPhases_spec (k : Nat) (s : State) : ∃ n, Decoded n s (runPhases k s) := by
  induction k generalizing s with
  | zero => exact ⟨0, Decoded.refl s⟩
  | succ k ih =>
    by_cases h : s.irdec.phase = .idle
    · refine ⟨0, ?_⟩
      simpa [runPhases, h] using Decoded.refl s
    · obtain ⟨m, -, hm⟩ := decodePhase_spec s
      obtain ⟨n, hn⟩ := ih (decodePhase s)
      refine ⟨m + n, ?_⟩
      simpa [runPhases, h] using hm.trans hn

theorem runPhases_idle (n : Nat) (s : State) (h : s.irdec.phase = .idle) : runPhases n s = s := by
  cases n with
  | zero => rfl
  | succ n => simp [runPhases, h]

/-- An idle decoder has no attempt to finish. -/
theorem finishAttempt_idle (s : State) (h : s.irdec.phase = .idle) : finishAttempt s = s := by
  rw [finishAttempt, runPhases_idle _ s h]

/-- Finishing an attempt touches IRDEC, the environment, the result and the trace only (R130, R141). -/
theorem finishAttempt_spec (s : State) : ∃ n, Decoded n s (finishAttempt s) := by
  rw [finishAttempt]
  exact runPhases_spec _ s

/-- A `poll` touches IRDEC, the environment, the result and the trace only (R130, R227). -/
theorem poll_spec (s : State) : ∃ n, Decoded n s (poll s) := by
  unfold poll
  rcases hr : readIr s with ⟨v, s1⟩
  have h1 : Decoded 0 s s1 := by
    have h := readIr_decoded s
    rwa [hr] at h
  cases v with
  | high => exact ⟨0, h1.trans (Decoded.of_irdec _ _ rfl)⟩
  | low =>
    obtain ⟨n, hn⟩ := runPhases_spec phasesPerPoll (setPhase .startLow s1)
    exact ⟨0 + 0 + n, (h1.trans (setPhase_decoded .startLow s1)).trans hn⟩

theorem runPoll_spec (s : State) : ∃ n, Decoded n s (runPoll s) := by
  unfold runPoll
  split
  · exact poll_spec s
  · exact finishAttempt_spec s

theorem beginAttempt_spec (s : State) : Decoded 0 s (beginAttempt s) := by
  unfold beginAttempt
  split
  · rcases hr : readIr s with ⟨v, s1⟩
    have h1 : Decoded 0 s s1 := by
      have h := readIr_decoded s
      rwa [hr] at h
    cases v with
    | high => exact h1.trans (Decoded.of_irdec _ (s1.setResult (.polled .noSignal)) rfl)
    | low => exact h1.trans (setPhase_decoded .startLow s1)
  · exact Decoded.refl s

/-- A further phase, made or not, touches no more. -/
theorem Decoded.andPhase {m : Nat} {s t : State} (h : Decoded m s t) (p : Prop) [Decidable p] :
    ∃ n, Decoded n s (if p then decodePhase t else t) := by
  split
  · obtain ⟨k, -, hk⟩ := decodePhase_spec t
    exact ⟨_, h.trans hk⟩
  · exact ⟨m, h⟩

/-- Receiving a symbol touches IRDEC, the environment, the result and the trace only. -/
theorem receive_spec (s : State) : ∃ n, Decoded n s (receive s) := by
  have h0 : Decoded 0 s (s.setResult .nothing) := Decoded.of_irdec _ _ rfl
  obtain ⟨a, -, ha⟩ := decodePhase_spec (beginAttempt (s.setResult .nothing))
  have h1 := (h0.trans (beginAttempt_spec (s.setResult .nothing))).trans ha
  obtain ⟨m, hm⟩ := h1.andPhase ¬(decodePhase (beginAttempt (s.setResult .nothing))).irdec.phase = .idle
  rw [ite_not] at hm
  exact hm.andPhase _

/-- Putting samples on the line changes nothing else. -/
theorem present_decoded (l : List Level) (s : State) : Decoded 0 s (present l s) :=
  ⟨⟨rfl, rfl, Nat.le_refl _, [], rfl⟩, ⟨rfl, rfl, rfl, rfl, rfl, rfl⟩, rfl, by simp [present], [], rfl, rfl⟩

theorem useFree_decoded (n : Nat) (s : State) : Decoded 0 s (useFree n s) :=
  ⟨⟨rfl, rfl, Nat.le_refl _, [], rfl⟩, ⟨rfl, rfl, rfl, rfl, rfl, rfl⟩, rfl, by simp [useFree], [], rfl, rfl⟩

end Sys2Proof.Machine
end

