-- ==== Sys2Proof/Laws/Encoding.lean ====
section
/-! SUPPORT. Laws/Encoding.lean: each operand field reads back what was written, and fits. -/

namespace Sys2Proof

@[simp] theorem Level.ofCode_code (v : Level) : Level.ofCode v.code = v := by cases v <;> rfl

@[simp] theorem Side.ofCode_code (x : Side) : Side.ofCode x.code = x := by cases x <;> rfl

@[simp] theorem boolOfCode_codeOfBool (b : Bool) : boolOfCode (codeOfBool b) = b := by cases b <;> rfl

@[simp] theorem Pin.ofCode_code (p : Pin) : Pin.ofCode p.code = .ok p := by rcases p with _ | (_ | _ | _ | _) <;> rfl

@[simp] theorem Pin.ofWriteCode_writeCode (p : Pin) : Pin.ofWriteCode p.writeCode = .ok p := by
  rcases p with _ | (_ | _ | _ | _) <;> rfl

@[simp] theorem PinMode.ofCode_code (m : PinMode) : PinMode.ofCode m.code = .ok m := by
  rcases m with (_ | _ | _) | (_ | _ | _ | _) <;> rfl

@[simp] theorem Action.ofCode_code (a : Action) : Action.ofCode a.ctorCode a.valueCode = .ok a := by
  cases a with
  | numeric d => simp [Action.ctorCode, Action.valueCode, Action.ofCode, d.isLt]
  | raw b => simp [Action.ctorCode, Action.valueCode, Action.ofCode]
  | _ => rfl

theorem Level.code_lt (v : Level) : v.code < 2 := by cases v <;> decide

theorem Side.code_lt (x : Side) : x.code < 2 := by cases x <;> decide

theorem codeOfBool_lt (b : Bool) : codeOfBool b < 2 := by cases b <;> decide

theorem Pin.code_lt (p : Pin) : p.code < 8 := by rcases p with _ | (_ | _ | _ | _) <;> decide

theorem Pin.writeCode_lt (p : Pin) : p.writeCode < 8 := by rcases p with _ | (_ | _ | _ | _) <;> decide

theorem PinMode.code_lt (m : PinMode) : m.code < 8 := by rcases m with (_ | _ | _) | (_ | _ | _ | _) <;> decide

theorem Action.ctorCode_lt (a : Action) : a.ctorCode < 16 := by cases a <;> simp [Action.ctorCode]

theorem Action.valueCode_lt (a : Action) : a.valueCode < 256 := by
  cases a with
  | numeric d => exact Nat.lt_trans d.isLt (by decide)
  | raw b => exact b.isLt
  | _ => decide

theorem low32_lt (v : Int) : low32 v < 2 ^ 32 := by unfold low32; omega

/-- Sign extension undoes the truncation of an `i32` (R10). -/
theorem sext32_low32 (v : Int) (h : isI32 v = true) : sext32 (low32 v) = v := by
  simp only [isI32, Bool.and_eq_true, decide_eq_true_eq] at h
  unfold sext32 low32
  split <;> omega

/-- A bit field of a number below its width is the number. -/
theorem bitField_zero_of_lt (v n : Nat) (h : v < 2 ^ n) : bitField v 0 n = v := by
  simp [bitField, Nat.mod_eq_of_lt h]

end Sys2Proof
end

