-- ==== Sys2Proof/Laws/Runs.lean ====
section
/-! SUPPORT. Laws/Runs.lean: runs of given lengths on the line: `measure_run`, the phases of a decode attempt and a `poll`
up to a given bit, and the bits of the frame buffer. -/

namespace Sys2Proof.Machine

/-- What a decoder operation leaves as it was, as one equation (R130, R227). -/
theorem Decoded.frame {n s t} (h : Decoded n s t) : t = { s with irdec := t.irdec, env := t.env, result := t.result, trace := t.trace } := by
  obtain ⟨⟨h1, h2, _, _⟩, ⟨h3,h4,h5,h6,h7,h8⟩, _, _⟩ := h
  cases t; cases s; simp_all

/-- `n` samples of a run in a trace, the newest first: a read and the sleep after it (R131). -/
abbrev samplePairs (T : Nat) (level : Level) (n : Nat) : List Txn :=
  (List.replicate n [Txn.sleepFor T, Txn.pinRead .ir level]).flatten

theorem samplePairs_succ (T level n) : samplePairs T level n ++ [Txn.sleepFor T, Txn.pinRead .ir level] = samplePairs T level (n+1) := by
  simp only [samplePairs, List.replicate_succ', List.flatten_append]; simp

/-- A run of `n` below the fuel, ended by the other level: the ending read is used up (R131). -/
theorem measureLoop_ends (level v : Level) (hv : v ≠ level) (rest) (n fuel : Nat) (hf : n < fuel) (s : State)
    (h : s.env.line = List.replicate n level ++ v :: rest) :
    (measureLoop level fuel s).irdec.count = s.irdec.count + n ∧ (measureLoop level fuel s).env.line = rest
    ∧ (measureLoop level fuel s).trace = .pinRead .ir v :: (samplePairs s.cfg.tSUs level n ++ s.trace) := by
  induction n generalizing fuel s with
  | zero =>
    obtain ⟨f, rfl⟩ : ∃ f, fuel = f + 1 := ⟨fuel - 1, by omega⟩
    have := readIr_cons s v rest (by simpa using h)
    simp [measureLoop, this, hv, record]
  | succ n ih =>
    obtain ⟨f, rfl⟩ : ∃ f, fuel = f + 1 := ⟨fuel - 1, by omega⟩
    have hr := readIr_cons s level (List.replicate n level ++ v :: rest) (by simpa [List.replicate_succ] using h)
    simp only [measureLoop, hr]
    rw [if_neg (by simp)]
    have := ih f (by omega) (sleepFor s.cfg.tSUs (setCount (s.irdec.count + 1) (record (.pinRead .ir level) (s.setEnv { s.env with line := List.replicate n level ++ v :: rest })))) (by
      rw [(sleepFor_spec _ _).2.2.2.1]; simp [setCount, record])
    refine ⟨?_, this.2.1, ?_⟩
    · refine this.1.trans ?_
      simp [sleepFor, setCount, record]; omega
    · refine this.2.2.trans ?_
      rw [← samplePairs_succ]
      simp [sleepFor, setCount, record]

/-- A run that lasts as long as the fuel: the next sample is not read (R131). -/
theorem measureLoop_cap (level : Level) (rest) (fuel : Nat) (s : State)
    (h : s.env.line = List.replicate fuel level ++ rest) :
    (measureLoop level fuel s).irdec.count = s.irdec.count + fuel ∧ (measureLoop level fuel s).env.line = rest
    ∧ (measureLoop level fuel s).trace = (samplePairs s.cfg.tSUs level fuel ++ s.trace) := by
  induction fuel generalizing s with
  | zero =>
    simpa [measureLoop] using h
  | succ n ih =>
    have hr := readIr_cons s level (List.replicate n level ++ rest) (by simpa [List.replicate_succ] using h)
    simp only [measureLoop, hr]
    rw [if_neg (by simp)]
    have := ih (sleepFor s.cfg.tSUs (setCount (s.irdec.count + 1) (record (.pinRead .ir level) (s.setEnv { s.env with line := List.replicate n level ++ rest })))) (by
      rw [(sleepFor_spec _ _).2.2.2.1]; simp [setCount, record])
    refine ⟨?_, this.2.1, ?_⟩
    · refine this.1.trans ?_
      simp [sleepFor, setCount, record]; omega
    · refine this.2.2.trans ?_
      rw [← samplePairs_succ]
      simp [sleepFor, setCount, record]

/-- `measure_run` on a run of `n` samples below the cap (R131). -/
theorem measureRun_ends (level v : Level) (hv : v ≠ level) (rest) (n cap : Nat) (hf : n < cap) (s : State)
    (h : s.env.line = List.replicate n level ++ v :: rest) :
    Decoded n s (measureRun level cap s) ∧ (measureRun level cap s).irdec = { s.irdec with count := n } ∧
    (measureRun level cap s).result = s.result ∧ (measureRun level cap s).env.line = rest ∧ 
    (measureRun level cap s).trace = .pinRead .ir v :: (samplePairs s.cfg.tSUs level n ++ s.trace) := by
  obtain ⟨m, hm, hd, hi, hr⟩ := measureRun_spec level cap s
  have hl := measureLoop_ends level v hv rest n cap hf (setCount 0 s) h
  have hc := hl.1
  change (measureRun level cap s).irdec.count = _ at hc
  rw [hi] at hc
  have : m = n := by simpa [setCount] using hc
  subst this
  exact ⟨hd, hi, hr, hl.2.1, hl.2.2⟩

/-- `measure_run` on a run that reaches the cap (R131). -/
theorem measureRun_cap (level : Level) (rest) (cap : Nat) (s : State)
    (h : s.env.line = List.replicate cap level ++ rest) :
    Decoded cap s (measureRun level cap s) ∧ (measureRun level cap s).irdec = { s.irdec with count := cap } ∧
    (measureRun level cap s).result = s.result ∧ (measureRun level cap s).env.line = rest ∧ 
    (measureRun level cap s).trace = (samplePairs s.cfg.tSUs level cap ++ s.trace) := by
  obtain ⟨m, hm, hd, hi, hr⟩ := measureRun_spec level cap s
  have hl := measureLoop_cap level rest cap (setCount 0 s) h
  have hc := hl.1
  change (measureRun level cap s).irdec.count = _ at hc
  rw [hi] at hc
  have : m = cap := by simpa [setCount] using hc
  subst this
  exact ⟨hd, hi, hr, hl.2.1, hl.2.2⟩

/-- A run inside a `poll` that ends below its cap is accepted (R133). -/
theorem measureOrAbort_ends (level v cap r k) (hv : v ≠ level) (rest) (n : Nat) (hf : n < cap) (s : State)
    (h : s.env.line = List.replicate n level ++ v :: rest) :
    measureOrAbort level cap r k s = k (measureRun level cap s) := by
  have := measureRun_ends level v hv rest n cap hf s h
  simp only [measureOrAbort]
  rw [if_neg]; rw [this.2.1]; simp; omega

/-- A run inside a `poll` that reaches its cap aborts it (R133). -/
theorem measureOrAbort_cap (level cap r k) (rest) (s : State)
    (h : s.env.line = List.replicate cap level ++ rest) :
    measureOrAbort level cap r k s = abortPoll r (measureRun level cap s) := by
  have := measureRun_cap level rest cap s h
  simp only [measureOrAbort]
  rw [if_pos]; rw [this.2.1]

/-- Where a decode attempt stands: `n` samples after `s`, in phase `ph` at bit `i` with payload `d`, `line` still to come. -/
structure StandsAt (s : State) (n : Nat) (t : State) (ph : IrPhase) (i : Fin 32) (d : Payload) (line : List Level) : Prop where
  dec : Decoded n s t
  phase : t.irdec.phase = ph
  idx : t.irdec.bitIdx = i
  data : t.irdec.data = d
  line : t.env.line = line

/-- The two runs of the start mark, both below their caps: bit 0 is awaited with a cleared payload (R134, R135, R136). -/
theorem decodePhase_start (s : State) (cl ch : Nat) (rest) (hp : s.irdec.phase = .startLow)
    (h1 : cl < s.cfg.startLowMax) (h2 : ch < s.cfg.startHighMax) (h : s.env.line = runPair cl ch ++ rest) :
    ∃ t, decodePhase (decodePhase s) = t ∧ StandsAt s (cl + ch) t .bitLow 0 Payload.zero rest ∧ t.irdec.count = ch ∧ t.result = s.result := by
  refine ⟨_, rfl, ?_⟩
  have e1 : decodePhase s = setPhase .startHigh (measureRun .low s.cfg.startLowMax s) := by
    rw [decodePhase, hp]
    exact measureOrAbort_ends .low .high _ _ _ (by decide) _ cl h1 s (by rw [h]; simp [runPair]; rfl)
  have r1 := measureRun_ends .low .high (by decide) (List.replicate ch .high ++ .low :: rest) cl _ h1 s (by rw [h]; simp [runPair])
  rw [e1]
  generalize ht : setPhase .startHigh (measureRun .low s.cfg.startLowMax s) = t1
  have l1 : t1.env.line = List.replicate ch .high ++ .low :: rest := by rw [← ht]; exact r1.2.2.2.1
  have c1 : t1.cfg = s.cfg := by rw [← ht]; exact r1.1.later.cfg
  have e2 : decodePhase t1 = beginPayload (measureRun .high t1.cfg.startHighMax t1) := by
    rw [decodePhase, show t1.irdec.phase = .startHigh by rw [← ht]; rfl]
    exact measureOrAbort_ends .high .low _ _ _ (by decide) _ ch (by rw [c1]; exact h2) t1 l1
  have r2 := measureRun_ends .high .low (by decide) rest ch t1.cfg.startHighMax (by rw [c1]; exact h2) t1 l1
  rw [e2]
  have hd : Decoded (cl + 0 + (ch + 0)) s (beginPayload (measureRun .high t1.cfg.startHighMax t1)) := by
    refine (r1.1.trans (ht ▸ setPhase_decoded .startHigh _)).trans (r2.1.trans (beginPayload_decoded _))
  refine ⟨⟨hd, rfl, rfl, rfl, r2.2.2.2.1⟩, ?_, ?_⟩
  · simp [beginPayload, r2.2.1]
  · simp [beginPayload, r2.2.2.1]; rw [← ht]; exact r1.2.2.1

/-- The two runs of a bit, both below their caps: the bit is stored and the next bit or the check follows (R136, R138). -/
theorem decodePhase_bit (s : State) (cl ch : Nat) (rest) (hp : s.irdec.phase = .bitLow)
    (h1 : cl < s.cfg.bitLowMax) (h2 : ch < s.cfg.bitHighMax) (h : s.env.line = runPair cl ch ++ rest) :
    ∃ t, decodePhase (decodePhase s) = t ∧ Decoded (cl + ch) s t ∧ t.env.line = rest ∧ t.result = s.result ∧
      t.irdec.data = s.irdec.data.setBit s.irdec.bitIdx.val (decide (ch > s.cfg.bitThreshold)) ∧
      (∀ hlt : s.irdec.bitIdx.val + 1 < 32, t.irdec.phase = .bitLow ∧ t.irdec.bitIdx = ⟨s.irdec.bitIdx.val + 1, hlt⟩) ∧
      (¬ s.irdec.bitIdx.val + 1 < 32 → t.irdec.phase = .check ∧ t.irdec.bitIdx = s.irdec.bitIdx) := by
  refine ⟨_, rfl, ?_⟩
  have e1 : decodePhase s = setPhase .bitHigh (measureRun .low s.cfg.bitLowMax s) := by
    rw [decodePhase, hp]
    exact measureOrAbort_ends .low .high _ _ _ (by decide) _ cl h1 s (by rw [h]; simp [runPair]; rfl)
  have r1 := measureRun_ends .low .high (by decide) (List.replicate ch .high ++ .low :: rest) cl _ h1 s (by rw [h]; simp [runPair])
  rw [e1]
  generalize ht : setPhase .bitHigh (measureRun .low s.cfg.bitLowMax s) = t1
  have l1 : t1.env.line = List.replicate ch .high ++ .low :: rest := by rw [← ht]; exact r1.2.2.2.1
  have c1 : t1.cfg = s.cfg := by rw [← ht]; exact r1.1.later.cfg
  have i1 : t1.irdec = { s.irdec with count := cl, phase := .bitHigh } := by rw [← ht]; simp [setPhase, r1.2.1]
  have e2 : decodePhase t1 = storeBit (measureRun .high t1.cfg.bitHighMax t1) := by
    rw [decodePhase, show t1.irdec.phase = .bitHigh by rw [← ht]; rfl]
    exact measureOrAbort_ends .high .low _ _ _ (by decide) _ ch (by rw [c1]; exact h2) t1 l1
  have r2 := measureRun_ends .high .low (by decide) rest ch t1.cfg.bitHighMax (by rw [c1]; exact h2) t1 l1
  rw [e2]
  generalize ht2 : measureRun .high t1.cfg.bitHighMax t1 = t2 at *
  have c2 : t2.cfg = s.cfg := r2.1.later.cfg.trans c1
  have i2 : t2.irdec = { s.irdec with count := ch, phase := .bitHigh } := by rw [r2.2.1, i1]
  have hd : Decoded (cl + 0 + (ch + 0)) s (storeBit t2) := by
    refine (r1.1.trans (ht ▸ setPhase_decoded .bitHigh _)).trans (r2.1.trans (storeBit_decoded _))
  refine ⟨hd, ?_, ?_, ?_, ?_, ?_⟩
  · rw [← r2.2.2.2.1]; unfold storeBit; simp only; split <;> rfl
  · have : t1.result = s.result := by rw [← ht]; exact r1.2.2.1
    rw [← this, ← r2.2.2.1]; unfold storeBit; simp only; split <;> rfl
  · unfold storeBit; simp only [i2, c2, bitOfRun]; split <;> rfl
  · intro hlt; unfold storeBit; simp only [i2, c2, bitOfRun]; rw [dif_pos hlt]; simp
  · intro hlt; unfold storeBit; simp only [i2, c2, bitOfRun]; rw [dif_neg hlt]; simp

/-- A written bit reads as written, and the others as before. -/
theorem writeBit_getLsbD (b : Byte) (j k : Nat) (v : Bool) (hj : j < 8) : (writeBit b j v).getLsbD k = if k = j then v else b.getLsbD k := by
  unfold writeBit
  by_cases hk : k < 8
  · interval_cases j <;> interval_cases k <;> cases v <;> simp
  · have : ∀ c : Byte, c.getLsbD k = false := fun c => BitVec.getLsbD_of_ge _ _ (by omega)
    rw [this, this]; rw [if_neg (by omega)]

/-- A byte of the frame buffer that is set reads as set, and the others as before. -/
theorem Payload.byte_setByte (d : Payload) (k k' : Nat) (b : Byte) (h : k < 4) (h' : k' < 4) : (d.setByte k b).byte k' = if k' = k then b else d.byte k' := by
  interval_cases k <;> interval_cases k' <;> rfl

/-- A payload bit that is set reads as set, and the other 31 as before (R83). -/
theorem Payload.bit_setBit (d : Payload) (i j : Nat) (v : Bool) (hi : i < 32) (hj : j < 32) : (d.setBit i v).bit j = if j = i then v else d.bit j := by
  unfold Payload.setBit Payload.bit
  rw [Payload.byte_setByte _ _ _ _ (by omega) (by omega)]
  by_cases h : j / 8 = i / 8
  · rw [if_pos h, writeBit_getLsbD _ _ _ _ (by omega), h]
    by_cases h2 : j = i
    · subst h2; simp
    · rw [if_neg (by omega), if_neg h2]
  · rw [if_neg h, if_neg (by rintro rfl; exact h rfl)]

/-- The 32 payload bits are the whole frame buffer (R83). -/
theorem Payload.ext_bits (d e : Payload) (h : ∀ j, j < 32 → d.bit j = e.bit j) : d = e := by
  have key : ∀ k, k < 4 → d.byte k = e.byte k := by
    intro k hk
    apply BitVec.eq_of_getLsbD_eq
    intro i hi
    have := h (8 * k + i) (by omega)
    simpa [Payload.bit, show (8 * k + i) / 8 = k by omega, show (8*k+i) % 8 = i by omega] using this
  have h0 := key 0 (by omega); have h1 := key 1 (by omega); have h2 := key 2 (by omega); have h3 := key 3 (by omega)
  simp only [Payload.byte] at h0 h1 h2 h3
  cases d; cases e; simp_all

theorem runPhases_step (n s) (h : s.irdec.phase ≠ .idle) : runPhases (n+1) s = runPhases n (decodePhase s) := by
  simp [runPhases, h]

/-- After an accepted low run the attempt goes on. -/
theorem decodePhase_low_goes_on (s : State) (cl ch rest) (hp : (s.irdec.phase = .startLow ∧ cl < s.cfg.startLowMax) ∨ (s.irdec.phase = .bitLow ∧ cl < s.cfg.bitLowMax)) (h : s.env.line = runPair cl ch ++ rest) :
    (decodePhase s).irdec.phase ≠ .idle := by
  rcases hp with ⟨hp, h1⟩ | ⟨hp, h1⟩ <;> rw [decodePhase, hp] <;> simp only
  all_goals
    rw [measureOrAbort_ends .low .high _ _ _ (by decide) (List.replicate ch .high ++ .low :: rest) cl h1 s (by rw [h]; simp [runPair])]
    simp [setPhase]

/-- How many samples `n` bits from bit `i` on take. -/
def bitCounts (runs : Nat → Nat × Nat) (i : Nat) : Nat → Nat
  | 0 => 0
  | n + 1 => (runs i).1 + (runs i).2 + bitCounts runs (i+1) n

/-- `n` bits in a row, none of them the last of the frame, all runs below their caps: each is stored (R136). -/
theorem runPhases_bits (runs : Nat → Nat × Nat) (rest) (n : Nat) : ∀ (i : Nat) (s : State), s.irdec.phase = .bitLow → s.irdec.bitIdx.val = i → i + n ≤ 31 →
    (∀ j, i ≤ j → j < i + n → (runs j).1 < s.cfg.bitLowMax ∧ (runs j).2 < s.cfg.bitHighMax) →
    s.env.line = bitSamples runs i n ++ rest →
    ∃ t, (∀ m, runPhases (2*n+m) s = runPhases m t) ∧ Decoded (bitCounts runs i n) s t ∧ t.irdec.phase = .bitLow ∧ t.irdec.bitIdx.val = i + n
      ∧ t.env.line = rest ∧ t.result = s.result ∧
      ∀ j, j < 32 → t.irdec.data.bit j = if i ≤ j ∧ j < i + n then decide ((runs j).2 > s.cfg.bitThreshold) else s.irdec.data.bit j := by
  induction n with
  | zero =>
    intro i s h1 h2 h3 h4 h5
    refine ⟨s, fun m => by simp, Decoded.refl s, h1, h2, by simpa [bitSamples] using h5, rfl, ?_⟩
    intro j _; rw [if_neg (by omega)]
  | succ n ih =>
    intro i s h1 h2 h3 h4 h5
    have h4i := h4 i (by omega) (by omega)
    have h5' : s.env.line = runPair (runs i).1 (runs i).2 ++ (bitSamples runs (i+1) n ++ rest) := by rw [h5]; simp [bitSamples]
    obtain ⟨t, ht, hd, hl, hr, hdat, hlt, -⟩ := decodePhase_bit s _ _ _ h1 h4i.1 h4i.2 h5'
    have hlt := hlt (by omega)
    have hidle := decodePhase_low_goes_on s _ _ _ (.inr ⟨h1, h4i.1⟩) h5'
    obtain ⟨u, hu, ud, up, ui, ul, ur, ub⟩ := ih (i+1) t hlt.1 (by rw [hlt.2]; simp only; omega) (by omega) (by
      intro j a b; rw [hd.later.cfg]; exact h4 j (by omega) (by omega)) hl
    refine ⟨u, ?_, ?_, up, by rw [ui]; omega, ul, ur.trans hr, ?_⟩
    · intro m
      rw [show 2 * (n+1) + m = (2*n+m) + 1 + 1 by omega, runPhases_step _ _ (by rw [h1]; decide), runPhases_step _ _ hidle, ht, hu]
    · exact hd.trans ud
    · intro j hj
      rw [ub j hj, hd.later.cfg, hdat, Payload.bit_setBit _ _ _ _ s.irdec.bitIdx.isLt hj, h2]
      by_cases h : j = i
      · subst h; rw [if_neg (by omega), if_pos rfl, if_pos (by omega)]
      · by_cases h' : i + 1 ≤ j ∧ j < i + 1 + n
        · rw [if_pos h', if_pos (by omega)]
        · rw [if_neg h', if_neg h, if_neg (by omega)]

theorem bitCounts_range (runs : Nat → Nat × Nat) (n i : Nat) : bitCounts runs i n = ((List.range n).map fun j => (runs (i+j)).1 + (runs (i+j)).2).sum := by
  induction n generalizing i with
  | zero => rfl
  | succ n ih => rw [bitCounts, ih, List.range_succ_eq_map]; simp [Function.comp_def, Nat.add_assoc, Nat.add_comm, Nat.add_left_comm]

theorem bitSamples_append (runs i) (m n : Nat) : bitSamples runs i (m + n) = bitSamples runs i m ++ bitSamples runs (i + m) n := by
  induction m generalizing i with
  | zero => simp [bitSamples]
  | succ m ih => rw [show m + 1 + n = (m+n)+1 by omega, bitSamples, bitSamples, ih]; simp [Nat.add_assoc, Nat.add_comm 1 m]

/-- A `poll` on a start mark and `i` accepted bits stands before bit `i` (R134 to R136). -/
theorem poll_up_to_bit (s : State) (sl sh : Nat) (runs) (i : Nat) (rest) (hi : i ≤ 31) (_hp : s.irdec.phase = .idle)
    (hs : isStart s.cfg sl sh = true) (hr : ∀ j, j < i → (runs j).1 < s.cfg.bitLowMax ∧ (runs j).2 < s.cfg.bitHighMax)
    (h : s.env.line = .low :: (runPair sl sh ++ bitSamples runs 0 i ++ rest)) :
    ∃ t, poll s = runPhases (65 - 2 * i) t ∧ Decoded (sl + sh + bitCounts runs 0 i) s t ∧ t.irdec.phase = .bitLow ∧ t.irdec.bitIdx.val = i ∧ t.env.line = rest ∧ 
      ∀ j, j < 32 → t.irdec.data.bit j = if j < i then decide ((runs j).2 > s.cfg.bitThreshold) else false := by
  simp only [isStart, Bool.and_eq_true, decide_eq_true_eq] at hs
  have e0 := readIr_cons s .low _ h
  have hpoll : poll s = runPhases phasesPerPoll (setPhase .startLow (readIr s).2) := by
    unfold poll; rw [e0]
  have d0 := (readIr_decoded s).trans (setPhase_decoded .startLow (readIr s).2)
  generalize hs0 : setPhase .startLow (readIr s).2 = s0 at *
  have l0 : s0.env.line = runPair sl sh ++ (bitSamples runs 0 i ++ rest) := by rw [← hs0, e0]; simp [setPhase, record]
  have p0 : s0.irdec.phase = .startLow := by rw [← hs0]; rfl
  have c0 := d0.later.cfg
  obtain ⟨t, ht, hat, -, -⟩ := decodePhase_start s0 sl sh _ p0 (by rw [c0]; exact hs.1) (by rw [c0]; exact hs.2) l0
  have hidle := decodePhase_low_goes_on s0 _ _ _ (.inl ⟨p0, by rw [c0]; exact hs.1⟩) l0
  have c1 := hat.dec.later.cfg
  obtain ⟨u, hu, ud, up, ui, ul, ur, ub⟩ := runPhases_bits runs rest i 0 t hat.phase (by rw [hat.idx]; rfl) (by omega) (by
    intro j a b; rw [c1, c0]; exact hr j (by omega)) hat.line
  refine ⟨u, ?_, ?_, up, by omega, ul, ?_⟩
  · rw [hpoll, show phasesPerPoll = (2 * i + (65 - 2*i)) + 1 + 1 by simp [phasesPerPoll]; omega, runPhases_step _ _ (by rw [p0]; decide), runPhases_step _ _ hidle, ht, hu]
  · have := (d0.trans hat.dec).trans ud
    simpa using this
  · intro j hj
    rw [ub j hj, hat.data, c1, c0]
    by_cases h : j < i
    · rw [if_pos (by omega), if_pos h]
    · rw [if_neg (by omega), if_neg h]; simp [Payload.bit, Payload.zero]
      unfold Payload.byte; split <;> simp

end Sys2Proof.Machine
end

