-- ==== Sys2Proof/Laws/Units.lean ====
section
/-! SUPPORT. Laws/Units.lean: the guards, and what the shared operations of MOTOR, SERVO and SCHED can do. -/

namespace Sys2Proof.Machine

/-! ## Guards: each lets its continuation through, or refuses by name -/

theorem needInput_eq_next (p : Pin) (s : State) (k : Answer) (t : State) :
    needInput p s k = .next t ↔ readable s p = true ∧ k = .next t := by
  unfold needInput
  split <;> simp [*]

/-- An operation given during a decode attempt is that operation in the state the attempt ends in (R13, R141). -/
theorem afterAttempt_eq_next (s : State) (k : State → Answer) (t : State) :
    afterAttempt s k = .next t
      ↔ (s.irdec.phase = .idle ∨ readable s .ir = true) ∧ k (finishAttempt s) = .next t := by
  unfold afterAttempt
  by_cases h : s.irdec.phase = .idle
  · simp [h, finishAttempt_idle s h]
  · simp [h, needInput_eq_next]

theorem needOutput_eq_next (o : OutPin) (s : State) (k : Answer) (t : State) :
    needOutput o s k = .next t ↔ writable s o = true ∧ k = .next t := by
  unfold needOutput
  split <;> simp [*]

theorem needFresh_eq_next (p : Pin) (s : State) (k : Answer) (t : State) :
    needFresh p s k = .next t ↔ (s.pins.mode p).isNone = true ∧ k = .next t := by
  unfold needFresh
  split <;> simp [*]

theorem needPins_eq_next (s : State) (k : Answer) (t : State) :
    needPins s k = .next t ↔ s.PinsReady ∧ k = .next t := by
  simp only [needPins, needInput_eq_next, needOutput_eq_next, State.PinsReady, and_assoc]

/-! ## Arithmetic -/

/-- A clamp is the nearest value of a nonempty range (R10). -/
theorem clamp_eq_max_min (v lo hi : Int) (h : lo ≤ hi) : clamp v lo hi = max lo (min hi v) := by
  unfold clamp
  split
  · omega
  · split <;> omega

theorem clamp_mem (v lo hi : Int) (h : lo ≤ hi) : lo ≤ clamp v lo hi ∧ clamp v lo hi ≤ hi := by
  rw [clamp_eq_max_min v lo hi h]
  omega

/-- The duty never exceeds the period (R27, R151). -/
theorem dutyOf_le (c : Params) (percent : Int) : dutyOf c percent ≤ c.motorPeriodUs := by
  unfold dutyOf
  have h : (clampPercent percent).natAbs ≤ 100 := by
    have h := clamp_mem percent (-100) 100 (by decide)
    unfold clampPercent
    omega
  have h2 : c.motorPeriodUs * (clampPercent percent).natAbs ≤ c.motorPeriodUs * 100 := Nat.mul_le_mul_left _ h
  omega

/-- The target never leaves the hard limit (R173). -/
theorem targetDeg_mem (c : Params) (rollCmd : Int) (isLeft : Bool) :
    -(c.hardLimitDeg : Int) ≤ targetDeg c rollCmd isLeft ∧ targetDeg c rollCmd isLeft ≤ c.hardLimitDeg :=
  clamp_mem _ _ _ (by omega)

/-- A slew step ends between the position and the target, at most `SLEW_PER_FRAME_DEG` from the position (R174). -/
theorem slewToward_spec (c : Params) (p target : Int) :
    min p target ≤ slewToward c p target ∧ slewToward c p target ≤ max p target
      ∧ (slewToward c p target - p).natAbs ≤ c.slewPerFrameDeg := by
  unfold slewToward
  split
  · omega
  · split <;> omega

/-- A slew step in closed form (R174). -/
theorem slewToward_eq (c : Params) (p t : Int) : slewToward c p t
    = if p < t then min t (p + c.slewPerFrameDeg) else max t (p - c.slewPerFrameDeg) := by
  unfold slewToward
  rcases lt_trichotomy p t with h | h | h
  · rw [if_pos h, if_pos h]; omega
  · subst h; simp
  · rw [if_neg (by omega), if_pos h, if_neg (by omega)]; omega

/-- The target in closed form (R172, R173). -/
theorem targetDeg_eq (c : Params) (r : Int) (b : Bool) : targetDeg c r b
    = max (-(c.hardLimitDeg : Int)) (min (c.hardLimitDeg : Int) (((if b then r else -r) * c.rollMaxDeg).tdiv 100)) :=
  clamp_eq_max_min _ _ _ (by omega)

/-- The pulse width in closed form (R175). -/
theorem pulseWidthUs_eq (c : Params) (p : Int) : pulseWidthUs c p
    = c.servoMinUs + (max 0 (min 180 (p + 90))).toNat * (c.servoMaxUs - c.servoMinUs) / 180 := by
  rw [pulseWidthUs, pseudoAngle, clamp_eq_max_min _ _ _ (by decide)]

/-! ## MOTOR -/

/-- The two writes of one code change the two motor latches, whatever their order (R156, R157). -/
theorem writePins_spec (code : Level × Level) (s : State) :
    Later s (writePins code s) ∧ (writePins code s).env = s.env ∧ (writePins code s).irdec = s.irdec
      ∧ (writePins code s).motor = s.motor ∧ (writePins code s).servoL = s.servoL
      ∧ (writePins code s).servoR = s.servoR ∧ (writePins code s).sched = s.sched ∧ (writePins code s).run = s.run
      ∧ (writePins code s).pins = { s.pins with
          motIn1 := { s.pins.motIn1 with latch := code.1 }, motIn2 := { s.pins.motIn2 with latch := code.2 } } := by
  unfold writePins
  cases s.cfg.motorWriteOrder with
  | in1First =>
    have a := pinWrite_spec .motIn1 code.1 s
    simp only
    generalize pinWrite .motIn1 code.1 s = q at *
    have b := pinWrite_spec .motIn2 code.2 q
    obtain ⟨a1, a2, a3, a4, a5, a6, a7, a8, a9⟩ := a
    obtain ⟨b1, b2, b3, b4, b5, b6, b7, b8, b9⟩ := b
    exact ⟨a1.trans b1, b2.trans a2, b3.trans a3, b4.trans a4, b5.trans a5, b6.trans a6, b7.trans a7, b8.trans a8, by
      rw [b9, a9]
      rfl⟩
  | in2First =>
    have a := pinWrite_spec .motIn2 code.2 s
    simp only
    generalize pinWrite .motIn2 code.2 s = q at *
    have b := pinWrite_spec .motIn1 code.1 q
    obtain ⟨a1, a2, a3, a4, a5, a6, a7, a8, a9⟩ := a
    obtain ⟨b1, b2, b3, b4, b5, b6, b7, b8, b9⟩ := b
    exact ⟨a1.trans b1, b2.trans a2, b3.trans a3, b4.trans a4, b5.trans a5, b6.trans a6, b7.trans a7, b8.trans a8, by
      rw [b9, a9]
      rfl⟩

/-- `service` writes the code of the phase it enters and records that phase (R152). -/
theorem serviceMotor_spec (s : State) :
    Later s (serviceMotor s).2 ∧ (serviceMotor s).2.env = s.env ∧ (serviceMotor s).2.irdec = s.irdec
      ∧ (serviceMotor s).2.motor = { s.motor with phase := servicePhase s.cfg s.motor }
      ∧ (serviceMotor s).2.servoL = s.servoL ∧ (serviceMotor s).2.servoR = s.servoR
      ∧ (serviceMotor s).2.sched = s.sched ∧ (serviceMotor s).2.run = s.run
      ∧ (serviceMotor s).2.pins = { s.pins with
          motIn1 := { s.pins.motIn1 with latch := (serviceCode s.cfg s.motor).1 },
          motIn2 := { s.pins.motIn2 with latch := (serviceCode s.cfg s.motor).2 } } := by
  have h := writePins_spec (serviceCode s.cfg s.motor) s
  exact ⟨⟨h.1.cfg, h.1.program, h.1.clock, h.1.trace⟩, h.2.1, h.2.2.1, rfl, h.2.2.2.2.1, h.2.2.2.2.2.1, h.2.2.2.2.2.2.1,
    h.2.2.2.2.2.2.2.1, h.2.2.2.2.2.2.2.2⟩

theorem writePins_trace (code : Level × Level) (s : State) :
    (writePins code s).trace = motorWrites s.cfg code ++ s.trace := by
  unfold writePins motorWrites
  cases s.cfg.motorWriteOrder <;> rfl

/-- The two transactions of a `service` (R156). -/
theorem serviceMotor_trace (s : State) :
    (serviceMotor s).2.trace = motorWrites s.cfg (serviceCode s.cfg s.motor) ++ s.trace := writePins_trace _ s

/-- What `service` leaves as it was, as one equation (R152). -/
theorem serviceMotor_frame (s : State) (r : Result) :
    (serviceMotor s).2.setResult r = { s with
      motor := (serviceMotor s).2.motor, pins := (serviceMotor s).2.pins, result := r,
          trace := (serviceMotor s).2.trace } := by
  obtain ⟨⟨hc, hp, -, -⟩, he, hi, -, hl, hr, hs, hn, -⟩ := serviceMotor_spec s
  generalize (serviceMotor s).2 = t at *
  cases t
  cases s
  simp only [State.setResult] at *
  subst hc hp he hi hl hr hs hn
  rfl

/-- The returned delta is at least 1 when the period is (R155). -/
theorem serviceDelta_pos (c : Params) (m : Motor) (h : 1 ≤ c.motorPeriodUs) : 1 ≤ serviceDelta c m := by
  unfold serviceDelta
  split
  · exact h
  · split
    · exact h
    · split <;> omega

/-! ## SERVO -/

/-- `update` writes its own pin once and its own registers (R62, R171). -/
theorem updateServo_spec (x : Side) (rollCmd : Int) (isLeft : Bool) (s : State) :
    Later s (updateServo x rollCmd isLeft s).2 ∧ (updateServo x rollCmd isLeft s).2.env = s.env
      ∧ (updateServo x rollCmd isLeft s).2.irdec = s.irdec ∧ (updateServo x rollCmd isLeft s).2.motor = s.motor
      ∧ (updateServo x rollCmd isLeft s).2.sched = s.sched ∧ (updateServo x rollCmd isLeft s).2.run = s.run
      ∧ (updateServo x rollCmd isLeft s).2.servo x =
          { positionDeg := slewToward s.cfg (s.servo x).positionDeg (targetDeg s.cfg rollCmd isLeft),
            pulsePhase := emittedPhase (s.servo x).pulsePhase }
      ∧ (∀ y, y ≠ x → (updateServo x rollCmd isLeft s).2.servo y = s.servo y)
      ∧ (updateServo x rollCmd isLeft s).2.pins = s.pins.setCell (servoPin x)
          { (s.pins.cell (servoPin x)) with latch := emittedLevel (s.servo x).pulsePhase } := by
  cases x with
  | left =>
    exact ⟨⟨rfl, rfl, Nat.le_refl _, [_], rfl⟩, rfl, rfl, rfl, rfl, rfl, rfl,
      fun y hy => by cases y <;> first | rfl | exact absurd rfl hy, rfl⟩
  | right =>
    exact ⟨⟨rfl, rfl, Nat.le_refl _, [_], rfl⟩, rfl, rfl, rfl, rfl, rfl, rfl,
      fun y hy => by cases y <;> first | rfl | exact absurd rfl hy, rfl⟩

/-- What `update` leaves as it was, as one equation (R171). -/
theorem updateServo_frame (x : Side) (r : Int) (b : Bool) (s : State) (q : Result) :
    (updateServo x r b s).2.setResult q = { s with
      servoL := (updateServo x r b s).2.servoL, servoR := (updateServo x r b s).2.servoR,
      pins := (updateServo x r b s).2.pins, result := q, trace := (updateServo x r b s).2.trace } := by
  cases x <;> rfl

/-- SERVO_PULSE writes its pin HIGH, lets the pulse width pass, writes it LOW and lets the rest of the frame pass, and
changes no register (R95, R177). -/
theorem emitPulse_spec (x : Side) (s : State) :
    Later s (emitPulse x s) ∧ (emitPulse x s).irdec = s.irdec ∧ (emitPulse x s).motor = s.motor
      ∧ (emitPulse x s).servoL = s.servoL ∧ (emitPulse x s).servoR = s.servoR ∧ (emitPulse x s).sched = s.sched
      ∧ (emitPulse x s).run = s.run ∧ (emitPulse x s).env.line = s.env.line
      ∧ (emitPulse x s).pins = s.pins.setCell (servoPin x) { (s.pins.cell (servoPin x)) with latch := .low }
      ∧ (emitPulse x s).trace
        = .pinWrite (.out (servoPin x)) .low :: .pinWrite (.out (servoPin x)) .high :: s.trace := by
  unfold emitPulse
  have a := pinWrite_spec (servoPin x) .high s
  have at' : (pinWrite (servoPin x) .high s).trace = .pinWrite (.out (servoPin x)) .high :: s.trace := rfl
  simp only
  generalize pinWrite (servoPin x) .high s = q at *
  have b := hold_spec (pulseWidthUs s.cfg (s.servo x).positionDeg) q
  have bl : (hold (pulseWidthUs s.cfg (s.servo x).positionDeg) q).env.line = q.env.line := (advanceTo_spec _ _).2.2
  generalize hold (pulseWidthUs s.cfg (s.servo x).positionDeg) q = r at *
  have c := pinWrite_spec (servoPin x) .low r
  have ct : (pinWrite (servoPin x) .low r).trace = .pinWrite (.out (servoPin x)) .low :: r.trace := rfl
  generalize pinWrite (servoPin x) .low r = u at *
  have d := hold_spec (lowIntervalUs s.cfg (s.servo x).positionDeg) u
  have dl : (hold (lowIntervalUs s.cfg (s.servo x).positionDeg) u).env.line = u.env.line := (advanceTo_spec _ _).2.2
  obtain ⟨a1, a2, a3, a4, a5, a6, a7, a8, a9⟩ := a
  obtain ⟨b1, b2, b3, -, b5⟩ := b
  obtain ⟨c1, c2, c3, c4, c5, c6, c7, c8, c9⟩ := c
  obtain ⟨d1, d2, d3, -, d5⟩ := d
  refine ⟨a1.trans (b1.trans (c1.trans d1)), ?_, ?_, ?_, ?_, ?_, ?_, ?_, ?_, ?_⟩
  · rw [d3, c3, b3, a3]
  · rw [d2.motor, c4, b2.motor, a4]
  · rw [d2.servoL, c5, b2.servoL, a5]
  · rw [d2.servoR, c6, b2.servoR, a6]
  · rw [d2.sched, c7, b2.sched, a7]
  · rw [d2.run, c8, b2.run, a8]
  · rw [dl, c2, bl, a2]
  · rw [d2.pins, c9, b2.pins, a9]
    cases x <;> rfl
  · rw [d5, ct, b5, at']

/-! ## SCHED -/

/-- An action touches the command state only (R39, R193). -/
theorem applyAction_spec (a : Action) (s : State) :
    applyAction a s = { s with sched := { s.sched with
      rollCmd := (applyAction a s).sched.rollCmd, throttleCmd := (applyAction a s).sched.throttleCmd,
      engineEnabled := (applyAction a s).sched.engineEnabled } } := by
  cases a <;> rfl

/-- Step 1 of an iteration: the clock is read once into `SCHED.now` (R191). -/
theorem readNow_spec (s : State) :
    Later s (readNow s) ∧ (readNow s).irdec = s.irdec ∧ (readNow s).motor = s.motor
      ∧ (readNow s).servoL = s.servoL ∧ (readNow s).servoR = s.servoR ∧ (readNow s).pins = s.pins
      ∧ (readNow s).run = s.run ∧ (readNow s).sched = { s.sched with now := (readNow s).sched.now }
      ∧ s.env.clock ≤ (readNow s).sched.now ∧ (readNow s).sched.now = (readNow s).env.clock
      ∧ (readNow s).env.line = s.env.line := by
  have h := clockRead_spec s
  have e : readNow s = (clockRead s).2.setSched { (clockRead s).2.sched with now := (clockRead s).1 } := rfl
  have hc := h.1.clock; rw [h.2.2.2.2.1] at hc
  rw [e]
  exact ⟨⟨h.1.cfg, h.1.program, h.1.clock, h.1.trace⟩, h.2.2.1, h.2.1.motor, h.2.1.servoL, h.2.1.servoR, h.2.1.pins,
      h.2.1.run, by simp [h.2.1.sched], hc, h.2.2.2.2.1.symm, h.2.2.2.1⟩

/-- What the gated throttle leaves in MOTOR while the command is in range (R198). -/
theorem gateThrottle_eq (s : State) (h8 : 0 ≤ s.sched.throttleCmd) (h9 : s.sched.throttleCmd ≤ 100) : gateThrottle s = { s with motor := { s.motor with
        direction := .forward,
        dutyUs := if s.sched.engineEnabled then s.cfg.motorPeriodUs * s.sched.throttleCmd.toNat / 100 else 0 } } := by
  have hd : directionOf (if s.sched.engineEnabled = true then s.sched.throttleCmd else 0) = .forward := by
    unfold directionOf; rw [if_neg]; unfold clampPercent; rw [clamp_eq_max_min _ _ _ (by decide)]; split <;> omega
  have hdu : dutyOf s.cfg (if s.sched.engineEnabled = true then s.sched.throttleCmd else 0) = if s.sched.engineEnabled = true then s.cfg.motorPeriodUs * s.sched.throttleCmd.toNat / 100 else 0 := by
    unfold dutyOf clampPercent; rw [clamp_eq_max_min _ _ _ (by decide)]; split
    · congr 2; omega
    · simp
  simp only [gateThrottle, setThrottle, State.setMotor, hd, hdu]

/-! ## boot -/

/-- One output pin's line of the boot sequence: its mode, a low level, nothing else (R252). -/
theorem bootPin_spec (o : OutPin) (s : State) :
    Later s (bootPin o s) ∧ (bootPin o s).env = { s.env with freeUsed := s.env.freeUsed + 1 }
      ∧ (bootPin o s).irdec = s.irdec ∧ (bootPin o s).motor = s.motor ∧ (bootPin o s).servoL = s.servoL
      ∧ (bootPin o s).servoR = s.servoR ∧ (bootPin o s).sched = s.sched ∧ (bootPin o s).run = s.run
      ∧ (bootPin o s).pins = s.pins.setCell o (OutCell.reset s.cfg)
      ∧ (bootPin o s).trace = .pinWrite (.out o) .low :: .pinConfigure (.out o) (.output s.cfg.outDrive) :: s.trace := by
  unfold bootPin
  have a := pinConfigure_spec (.out o) (.output s.cfg.outDrive) s
  have ae : (pinConfigure (.out o) (.output s.cfg.outDrive) s).env = { s.env with freeUsed := s.env.freeUsed + 1 } := rfl
  have ap : (pinConfigure (.out o) (.output s.cfg.outDrive) s).pins
      = s.pins.setCell o { mode := some (.output s.cfg.outDrive), latch := Config.freeLevel s.env.freeUsed } := rfl
  have at' : (pinConfigure (.out o) (.output s.cfg.outDrive) s).trace
      = .pinConfigure (.out o) (.output s.cfg.outDrive) :: s.trace := rfl
  generalize pinConfigure (.out o) (.output s.cfg.outDrive) s = q at *
  have b := pinWrite_spec o .low q
  have bt : (pinWrite o .low q).trace = .pinWrite (.out o) .low :: q.trace := rfl
  obtain ⟨a1, a3, a4, a5, a6, a7, a8, -⟩ := a
  obtain ⟨b1, b2, b3, b4, b5, b6, b7, b8, b9⟩ := b
  refine ⟨a1.trans b1, b2.trans ae, b3.trans a3, b4.trans a4, b5.trans a5, b6.trans a6, b7.trans a7, b8.trans a8, ?_, by
    rw [bt, at']⟩
  rw [b9, ap]
  cases o <;> rfl

/-- The pin lines of the boot sequence: every mode set, every output low (R252). -/
theorem bootPins_spec (s : State) :
    Later s (bootPins s) ∧ (bootPins s).env = { s.env with freeUsed := s.env.freeUsed + 4 }
      ∧ (bootPins s).irdec = s.irdec ∧ (bootPins s).motor = s.motor ∧ (bootPins s).servoL = s.servoL
      ∧ (bootPins s).servoR = s.servoR ∧ (bootPins s).sched = s.sched ∧ (bootPins s).run = s.run
      ∧ (bootPins s).pins = Pins.reset s.cfg
      ∧ (bootPins s).trace = [.pinWrite (.out .srvR) .low, .pinConfigure (.out .srvR) (.output s.cfg.outDrive),
          .pinWrite (.out .srvL) .low, .pinConfigure (.out .srvL) (.output s.cfg.outDrive),
          .pinWrite (.out .motIn2) .low, .pinConfigure (.out .motIn2) (.output s.cfg.outDrive),
          .pinWrite (.out .motIn1) .low, .pinConfigure (.out .motIn1) (.output s.cfg.outDrive),
          .pinConfigure .ir (.input s.cfg.irPinMode)] ++ s.trace := by
  unfold bootPins
  have h0 := pinConfigure_spec .ir (.input s.cfg.irPinMode) s
  have p0 : (pinConfigure .ir (.input s.cfg.irPinMode) s).pins = { s.pins with irMode := some (.input s.cfg.irPinMode) } := rfl
  have v0 : (pinConfigure .ir (.input s.cfg.irPinMode) s).env = s.env := rfl
  have t0 : (pinConfigure .ir (.input s.cfg.irPinMode) s).trace = .pinConfigure .ir (.input s.cfg.irPinMode) :: s.trace := rfl
  generalize pinConfigure .ir (.input s.cfg.irPinMode) s = a at *
  have h1 := bootPin_spec .motIn1 a
  generalize bootPin .motIn1 a = b at *
  have h2 := bootPin_spec .motIn2 b
  generalize bootPin .motIn2 b = c at *
  have h3 := bootPin_spec .srvL c
  generalize bootPin .srvL c = d at *
  have h4 := bootPin_spec .srvR d
  generalize bootPin .srvR d = e at *
  have c1 := h0.1.cfg
  have c2 := h1.1.cfg.trans c1
  have c3 := h2.1.cfg.trans c2
  have c4 := h3.1.cfg.trans c3
  refine ⟨h0.1.trans (h1.1.trans (h2.1.trans (h3.1.trans h4.1))), ?_, ?_, ?_, ?_, ?_, ?_, ?_, ?_, ?_⟩
  · rw [h4.2.1, h3.2.1, h2.2.1, h1.2.1, v0]
  · rw [h4.2.2.1, h3.2.2.1, h2.2.2.1, h1.2.2.1, h0.2.1]
  · rw [h4.2.2.2.1, h3.2.2.2.1, h2.2.2.2.1, h1.2.2.2.1, h0.2.2.1]
  · rw [h4.2.2.2.2.1, h3.2.2.2.2.1, h2.2.2.2.2.1, h1.2.2.2.2.1, h0.2.2.2.1]
  · rw [h4.2.2.2.2.2.1, h3.2.2.2.2.2.1, h2.2.2.2.2.2.1, h1.2.2.2.2.2.1, h0.2.2.2.2.1]
  · rw [h4.2.2.2.2.2.2.1, h3.2.2.2.2.2.2.1, h2.2.2.2.2.2.2.1, h1.2.2.2.2.2.2.1, h0.2.2.2.2.2.1]
  · rw [h4.2.2.2.2.2.2.2.1, h3.2.2.2.2.2.2.2.1, h2.2.2.2.2.2.2.2.1, h1.2.2.2.2.2.2.2.1, h0.2.2.2.2.2.2.1]
  · rw [h4.2.2.2.2.2.2.2.2.1, h3.2.2.2.2.2.2.2.2.1, h2.2.2.2.2.2.2.2.2.1, h1.2.2.2.2.2.2.2.2.1, p0, c1, c2, c3, c4]
    rfl
  · rw [h4.2.2.2.2.2.2.2.2.2, h3.2.2.2.2.2.2.2.2.2, h2.2.2.2.2.2.2.2.2.2, h1.2.2.2.2.2.2.2.2.2, t0, c1, c2, c3, c4]
    rfl

end Sys2Proof.Machine
end

