-- ==== Sys2Proof/Laws/Iteration.lean ====
section
/-! SUPPORT. Laws/Iteration.lean: a `poll` ends, and what each of the five steps of an iteration can do (R190). -/

namespace Sys2Proof.Machine

/-! ## A `poll` ends -/

/-- How many phases a decode attempt can still make from a phase at bit `i`. -/
def phasesLeft : IrPhase → Nat → Nat
  | .idle, _ => 0
  | .startLow, _ => 67
  | .startHigh, _ => 66
  | .bitLow, i => 65 - 2 * i
  | .bitHigh, i => 64 - 2 * i
  | .check, _ => 1

/-- A phase ends the attempt with an outcome, or is followed by one nearer to the end. -/
theorem decodePhase_progress (s : State) (hid : s.irdec.phase ≠ .idle) :
    ((decodePhase s).irdec.phase = .idle ∧ ∃ o, (decodePhase s).result = .polled o)
    ∨ ((decodePhase s).irdec.phase ≠ .idle
        ∧ phasesLeft (decodePhase s).irdec.phase (decodePhase s).irdec.bitIdx.val < phasesLeft s.irdec.phase s.irdec.bitIdx.val) := by
  have hi := s.irdec.bitIdx.isLt
  unfold decodePhase
  cases hp : s.irdec.phase with
  | idle => exact absurd hp hid
  | startLow =>
    obtain ⟨n, hn, hd, h⟩ := measureOrAbort_spec .low s.cfg.startLowMax .startLowTimeout _ s (setPhase_decoded .startHigh)
    rcases h with ⟨e, h1, h2⟩ | ⟨e, s1, i1, r1, c1, k1⟩
    · left; exact ⟨h1, _, h2⟩
    · right; simp only [k1, setPhase, State.setIrdec_irdec, hp, i1]; simp [phasesLeft]
  | startHigh =>
    obtain ⟨n, hn, hd, h⟩ := measureOrAbort_spec .high s.cfg.startHighMax .startHighTimeout _ s beginPayload_decoded
    rcases h with ⟨e, h1, h2⟩ | ⟨e, s1, i1, r1, c1, k1⟩
    · left; exact ⟨h1, _, h2⟩
    · right; simp only [k1, beginPayload, State.setIrdec_irdec, hp, i1]; simp [phasesLeft]
  | bitLow =>
    obtain ⟨n, hn, hd,
        h⟩ := measureOrAbort_spec .low s.cfg.bitLowMax (.bitLowTimeout s.irdec.bitIdx) _ s (setPhase_decoded .bitHigh)
    rcases h with ⟨e, h1, h2⟩ | ⟨e, s1, i1, r1, c1, k1⟩
    · left; exact ⟨h1, _, h2⟩
    · right; simp only [k1, setPhase, State.setIrdec_irdec, hp, i1]; simp [phasesLeft]; omega
  | bitHigh =>
    obtain ⟨n, hn, hd,
        h⟩ := measureOrAbort_spec .high s.cfg.bitHighMax (.bitHighTimeout s.irdec.bitIdx) _ s storeBit_decoded
    rcases h with ⟨e, h1, h2⟩ | ⟨e, s1, i1, r1, c1, k1⟩
    · left; exact ⟨h1, _, h2⟩
    · right
      rw [k1]
      unfold storeBit
      simp only [i1]
      split
      · simp only [State.setIrdec_irdec]; simp [phasesLeft]; omega
      · simp only [State.setIrdec_irdec]; simp [phasesLeft]; omega
  | check => left; exact ⟨rfl, _, rfl⟩

/-- Enough phases end the attempt (R141). -/
theorem runPhases_ends (k : Nat) : ∀ s : State,
    phasesLeft s.irdec.phase s.irdec.bitIdx.val ≤ k → (runPhases k s).irdec.phase = .idle
    ∧ (s.irdec.phase ≠ .idle → ∃ o, (runPhases k s).result = .polled o) := by
  induction k with
  | zero =>
    intro s h
    have hi := s.irdec.bitIdx.isLt
    cases hp : s.irdec.phase <;> simp [hp, phasesLeft] at h
    · exact ⟨hp, by simp⟩
    all_goals omega
  | succ k ih =>
    intro s h
    by_cases hid : s.irdec.phase = .idle
    · rw [runPhases_idle _ _ hid]; exact ⟨hid, fun h => absurd hid h⟩
    rw [runPhases_step _ _ hid]
    have key := decodePhase_progress s hid
    rcases key with ⟨a, b⟩ | ⟨a, b⟩
    · rw [runPhases_idle _ _ a]; exact ⟨a, fun _ => b⟩
    · have := ih (decodePhase s) (by omega); exact ⟨this.1, fun _ => this.2 a⟩

/-- A `poll` ends with an outcome and an idle decoder, whatever the line does (R25, R141). -/
theorem poll_ends (s : State) (h : s.irdec.phase = .idle) : (poll s).irdec.phase = .idle
    ∧ ∃ o, (poll s).result = .polled o := by
  unfold poll
  rcases hr : readIr s with ⟨v, s1⟩
  have hi : s1.irdec = s.irdec := by have := (readIr_spec s).2.2.1; rwa [hr] at this
  cases v with
  | high => exact ⟨by simp [hi, h], _, rfl⟩
  | low =>
    have := runPhases_ends phasesPerPoll (setPhase .startLow s1) (by simp [setPhase, phasesLeft, phasesPerPoll])
    exact ⟨this.1, this.2 (by simp [setPhase])⟩

/-- The attempt in progress ends with an outcome and an idle decoder (R141). -/
theorem finishAttempt_ends (s : State) : (finishAttempt s).irdec.phase = .idle
    ∧ (s.irdec.phase ≠ .idle → ∃ o, (finishAttempt s).result = .polled o) := by
  rw [finishAttempt]
  refine runPhases_ends phasesPerPoll s ?_
  cases s.irdec.phase <;> simp [phasesLeft, phasesPerPoll] <;> omega

/-- A `poll` row ends with an outcome and an idle decoder in whatever phase it is given (R25, R141). -/
theorem runPoll_ends (s : State) : (runPoll s).irdec.phase = .idle ∧ ∃ o, (runPoll s).result = .polled o := by
  unfold runPoll
  split
  · next h => exact poll_ends s h
  · next h => exact ⟨(finishAttempt_ends s).1, (finishAttempt_ends s).2 h⟩

/-! ## The steps of an iteration -/

/-- Step 2: one `poll`, and the action it returned on the command state (R192). -/
theorem pollAndApply_spec (s : State) : Later s (pollAndApply s)
    ∧ (pollAndApply s).irdec.phase = .idle ∧ (pollAndApply s).motor = s.motor ∧ (pollAndApply s).servoL = s.servoL ∧
    (pollAndApply s).servoR = s.servoR ∧ (pollAndApply s).pins = s.pins ∧ (pollAndApply s).run = s.run ∧
    (∃ a b c, (pollAndApply s).sched = { s.sched with rollCmd := a, throttleCmd := b, engineEnabled := c }) ∧
    (∀ a, (runPoll s).result = .polled (.decoded a) → (pollAndApply s).sched = (applyAction a s).sched) ∧
    ((∀ a, (runPoll s).result ≠ .polled (.decoded a)) → (pollAndApply s).sched = s.sched) ∧
    (∃ new, (pollAndApply s).trace = new ++ s.trace ∧ new.all (isSampling s.cfg) = true) := by
  obtain ⟨n, hd⟩ := runPoll_spec s
  obtain ⟨hi, o, ho⟩ := runPoll_ends s
  have hcfg := hd.later.cfg
  have hsch := hd.units.sched
  have e : pollAndApply s = match o.returned with | some a => applyAction a (runPoll s) | none => runPoll s := by
    cases o <;> simp [pollAndApply, polledAction, ho, PollOutcome.returned]
  rw [e]
  cases o with
  | noSignal => exact ⟨hd.later, hi, hd.units.motor, hd.units.servoL, hd.units.servoR, hd.units.pins, hd.units.run,
      ⟨_, _, _, hsch⟩, by rw [ho]; simp, fun _ => hsch, hd.fresh⟩
  | aborted r => exact ⟨hd.later, hi, hd.units.motor, hd.units.servoL, hd.units.servoR, hd.units.pins, hd.units.run,
      ⟨_, _, _, hsch⟩, by rw [ho]; simp, fun _ => hsch, hd.fresh⟩
  | decoded a =>
    have hs := applyAction_spec a (runPoll s)
    simp only [PollOutcome.returned]
    rw [hs]
    refine ⟨⟨hcfg, hd.later.program, hd.later.clock, hd.later.trace⟩, hi, hd.units.motor, hd.units.servoL,
      hd.units.servoR, hd.units.pins, hd.units.run, ⟨_, _, _, by rw [← hsch]⟩, ?_, ?_, hd.fresh⟩
    · intro a' e; rw [ho] at e; simp at e; subst e
      have : ∀ (u v : State), u.sched = v.sched → u.cfg = v.cfg → (applyAction a u).sched = (applyAction a v).sched := by
        intro u v e1 e2
        cases a <;> simp [applyAction, rollLeft, rollRight, volumeUp, volumeDown, powerToggle, setRollCmd,
            setThrottleCmd, e1, e2]
      rw [← hs]
      exact this _ _ hsch hcfg
    · intro e; exact absurd ho (e a)

/-- Step 3: only the direction and the duty of MOTOR (R198). -/
theorem gateThrottle_spec (s : State) : Later s (gateThrottle s)
    ∧ (gateThrottle s) = { s with motor := { s.motor with direction := (gateThrottle s).motor.direction, dutyUs := (gateThrottle s).motor.dutyUs } } ∧ (gateThrottle s).motor.dutyUs ≤ s.cfg.motorPeriodUs :=
  ⟨⟨rfl, rfl, Nat.le_refl _, [], rfl⟩, rfl, dutyOf_le _ _⟩

/-- Step 4 for SERVO_L: nothing before the deadline, one `update` from it on (R199). -/
theorem dispatchServoL_spec (s : State) : Later s (dispatchServoL s) ∧ (dispatchServoL s).irdec = s.irdec
    ∧ (dispatchServoL s).motor = s.motor ∧ (dispatchServoL s).servoR = s.servoR ∧ (dispatchServoL s).run = s.run
    ∧ (dispatchServoL s).env = s.env ∧
   (s.sched.now < s.sched.nextServoL → dispatchServoL s = s) ∧
   (s.sched.nextServoL ≤ s.sched.now → (dispatchServoL s).servoL = { positionDeg := slewToward s.cfg s.servoL.positionDeg (targetDeg s.cfg s.sched.rollCmd true), pulsePhase := emittedPhase s.servoL.pulsePhase } ∧
      (dispatchServoL s).sched = { s.sched with nextServoL := s.sched.nextServoL + emittedDelta s.cfg (dispatchServoL s).servoL.positionDeg s.servoL.pulsePhase } ∧
      (dispatchServoL s).pins = { s.pins with srvL := { s.pins.srvL with latch := emittedLevel s.servoL.pulsePhase } } ∧
      (dispatchServoL s).trace = .pinWrite (.out .srvL) (emittedLevel s.servoL.pulsePhase) :: s.trace) := by
  by_cases h : s.sched.nextServoL ≤ s.sched.now
  · have e : dispatchServoL s = ((updateServo .left s.sched.rollCmd true s).2.setSched { s.sched with nextServoL := s.sched.nextServoL + (updateServo .left s.sched.rollCmd true s).1 }) := by
      unfold dispatchServoL; rw [if_pos h]; rfl
    have k := updateServo_spec .left s.sched.rollCmd true s
    rw [e]
    exact ⟨⟨k.1.cfg, k.1.program, k.1.clock, k.1.trace⟩, k.2.2.1, k.2.2.2.1, rfl, rfl, k.2.1,
        fun h' => absurd h' (by omega), fun _ => ⟨rfl, rfl, rfl, rfl⟩⟩
  · have e : dispatchServoL s = s := by unfold dispatchServoL; rw [if_neg (by omega)]
    rw [e]
    exact ⟨Later.refl s, rfl, rfl, rfl, rfl, rfl, fun _ => rfl, fun h' => absurd h' h⟩

/-- Step 4 for SERVO_R (R199). -/
theorem dispatchServoR_spec (s : State) : Later s (dispatchServoR s) ∧ (dispatchServoR s).irdec = s.irdec
    ∧ (dispatchServoR s).motor = s.motor ∧ (dispatchServoR s).servoL = s.servoL ∧ (dispatchServoR s).run = s.run
    ∧ (dispatchServoR s).env = s.env ∧
   (s.sched.now < s.sched.nextServoR → dispatchServoR s = s) ∧
   (s.sched.nextServoR ≤ s.sched.now → (dispatchServoR s).servoR = { positionDeg := slewToward s.cfg s.servoR.positionDeg (targetDeg s.cfg s.sched.rollCmd false), pulsePhase := emittedPhase s.servoR.pulsePhase } ∧
      (dispatchServoR s).sched = { s.sched with nextServoR := s.sched.nextServoR + emittedDelta s.cfg (dispatchServoR s).servoR.positionDeg s.servoR.pulsePhase } ∧
      (dispatchServoR s).pins = { s.pins with srvR := { s.pins.srvR with latch := emittedLevel s.servoR.pulsePhase } } ∧
      (dispatchServoR s).trace = .pinWrite (.out .srvR) (emittedLevel s.servoR.pulsePhase) :: s.trace) := by
  by_cases h : s.sched.nextServoR ≤ s.sched.now
  · have e : dispatchServoR s = ((updateServo .right s.sched.rollCmd false s).2.setSched { s.sched with nextServoR := s.sched.nextServoR + (updateServo .right s.sched.rollCmd false s).1 }) := by
      unfold dispatchServoR; rw [if_pos h]; rfl
    have k := updateServo_spec .right s.sched.rollCmd false s
    rw [e]
    exact ⟨⟨k.1.cfg, k.1.program, k.1.clock, k.1.trace⟩, k.2.2.1, k.2.2.2.1, rfl, rfl, k.2.1,
        fun h' => absurd h' (by omega), fun _ => ⟨rfl, rfl, rfl, rfl⟩⟩
  · have e : dispatchServoR s = s := by unfold dispatchServoR; rw [if_neg (by omega)]
    rw [e]
    exact ⟨Later.refl s, rfl, rfl, rfl, rfl, rfl, fun _ => rfl, fun h' => absurd h' h⟩

/-- Step 4 for MOTOR: nothing before the deadline, one `service` from it on (R199). -/
theorem dispatchMotor_spec (s : State) : Later s (dispatchMotor s) ∧ (dispatchMotor s).irdec = s.irdec
    ∧ (dispatchMotor s).servoL = s.servoL ∧ (dispatchMotor s).servoR = s.servoR ∧ (dispatchMotor s).run = s.run
    ∧ (dispatchMotor s).env = s.env ∧
   (s.sched.now < s.sched.nextMotor → dispatchMotor s = s) ∧
   (s.sched.nextMotor ≤ s.sched.now → (dispatchMotor s).motor = { s.motor with phase := servicePhase s.cfg s.motor } ∧
      (dispatchMotor s).sched = { s.sched with nextMotor := s.sched.nextMotor + serviceDelta s.cfg s.motor } ∧
      (dispatchMotor s).pins = { s.pins with
          motIn1 := { s.pins.motIn1 with latch := (serviceCode s.cfg s.motor).1 },
          motIn2 := { s.pins.motIn2 with latch := (serviceCode s.cfg s.motor).2 } } ∧
      (dispatchMotor s).trace = motorWrites s.cfg (serviceCode s.cfg s.motor) ++ s.trace) := by
  by_cases h : s.sched.nextMotor ≤ s.sched.now
  · have k := serviceMotor_spec s
    have e : dispatchMotor s = ((serviceMotor s).2.setSched { (serviceMotor s).2.sched with nextMotor := (serviceMotor s).2.sched.nextMotor + (serviceMotor s).1 }) := by
      unfold dispatchMotor; rw [if_pos h]
    rw [e]
    refine ⟨⟨k.1.cfg, k.1.program, k.1.clock, k.1.trace⟩, k.2.2.1, k.2.2.2.2.1, k.2.2.2.2.2.1, k.2.2.2.2.2.2.2.1, k.2.1,
        fun h' => absurd h' (by omega), fun _ => ⟨k.2.2.2.1, ?_, k.2.2.2.2.2.2.2.2, ?_⟩⟩
    · simp only [State.setSched_sched, k.2.2.2.2.2.2.1]; rfl
    · exact serviceMotor_trace s
  · have e : dispatchMotor s = s := by unfold dispatchMotor; rw [if_neg (by omega)]
    rw [e]
    exact ⟨Later.refl s, rfl, rfl, rfl, rfl, rfl, fun _ => rfl, fun h' => absurd h' h⟩

/-- Step 5 (R201). -/
theorem sleepToSoonest_spec (s : State) : Later s (sleepToSoonest s) ∧ SameUnits s (sleepToSoonest s)
    ∧ (sleepToSoonest s).irdec = s.irdec ∧
   (s.sched.now < soonest s.sched → (sleepToSoonest s).trace = .sleepUntil (soonest s.sched) :: s.trace
       ∧ soonest s.sched ≤ (sleepToSoonest s).env.clock) ∧
   (soonest s.sched ≤ s.sched.now → sleepToSoonest s = s) := by
  by_cases h : s.sched.now < soonest s.sched
  · have e : sleepToSoonest s = sleepUntil (soonest s.sched) s := by unfold sleepToSoonest; rw [if_pos h]
    rw [e]
    have k := sleepUntil_spec (soonest s.sched) s
    exact ⟨k.1, k.2.1, k.2.2.1, fun _ => ⟨k.2.2.2.2.2, k.2.2.2.2.1⟩, fun h' => absurd h (by omega)⟩
  · have e : sleepToSoonest s = s := by unfold sleepToSoonest; rw [if_neg h]
    rw [e]
    exact ⟨Later.refl s, SameUnits.refl s, rfl, fun h' => absurd h' h, fun _ => rfl⟩

/-- A whole iteration: later, the decoder idle, the block still where it was (R190, R205). -/
theorem iterateState_spec (s : State) : Later s (iterateState s)
    ∧ (iterateState s).irdec.phase = .idle ∧ (iterateState s).run = s.run := by
  have k1 := readNow_spec s
  have k2 := pollAndApply_spec (readNow s)
  have k3 := gateThrottle_spec (pollAndApply (readNow s))
  have k4 := dispatchServoL_spec (gateThrottle (pollAndApply (readNow s)))
  have k5 := dispatchServoR_spec (dispatchServoL (gateThrottle (pollAndApply (readNow s))))
  have k6 := dispatchMotor_spec (dispatchServoR (dispatchServoL (gateThrottle (pollAndApply (readNow s)))))
  have k7 := sleepToSoonest_spec (dispatchMotor (dispatchServoR (dispatchServoL (gateThrottle (pollAndApply (readNow s))))))
  refine ⟨k1.1.trans (k2.1.trans (k3.1.trans (k4.1.trans (k5.1.trans (k6.1.trans k7.1))))), ?_, ?_⟩
  · unfold iterateState; rw [k7.2.2.1, k6.2.1, k5.2.1, k4.2.1]; exact k2.2.1
  · unfold iterateState; rw [k7.2.1.run, k6.2.2.2.2.1, k5.2.2.2.2.1,
      k4.2.2.2.2.1]; exact k2.2.2.2.2.2.2.1.trans k1.2.2.2.2.2.2.1

/-- When an `iterate` completes: whatever the decoder's phase (R190, R205). -/
theorem exec_iterate (s : State) (h : s.PinsReady) : exec .iterate s = .next ((iterateState s).setResult .nothing) := by
  obtain ⟨a, b, c, d, e⟩ := h
  simp [exec, execIterate, needPins, needInput, needOutput, *]

end Sys2Proof.Machine
end

