-- ==== Sys2Proof/Laws/Exec.lean ====
section
/-! SUPPORT. Laws/Exec.lean: everything that an operation can do when it answers a next state, said once. -/

namespace Sys2Proof.Machine

/-- The rows that write IRDEC's registers: those a decode attempt is made of, and the iteration with its `poll`. -/
abbrev WritesDecoder (i : Instr) : Prop :=
  (∃ v cap, i = .measureRun v cap) ∨ i = .poll ∨ (∃ a an c cn, i = .necFrame a an c cn) ∨ (∃ m n, i = .start m n)
  ∨ (∃ m n, i = .bit0 m n) ∨ (∃ m n, i = .bit1 m n) ∨ (∃ v m, i = .noSymbol v m) ∨ i = .iterate

/-- What an operation that answers `next t` in state `s` has done; but for those that are part of a `poll`, and `iterate`, it
has done it in the state `finishAttempt s`, which is `s` itself when the decoder is idle. -/
inductive Effect (i : Instr) (s t : State) : Prop
  /-- Reads, clock readings, sleeps, table look-ups and everything a decode attempt is made of. -/
  | sampled (later : Later s t) (units : SameUnits s t)
      (decoder : t.irdec = s.irdec ∨ t.irdec = (finishAttempt s).irdec ∨ WritesDecoder i)
  | configured (p : Pin) (m : PinMode) (row : i = .configure p m)
      (eq : t = (pinConfigure p m (finishAttempt s)).setResult .nothing)
  | wrote (o : OutPin) (v : Level) (row : i = .write (.out o) v)
      (eq : t = (pinWrite o v (finishAttempt s)).setResult .nothing)
  | coded (code : Level × Level)
      (row : i = .motorForward ∨ i = .motorReverse ∨ i = .motorCoast ∨ i = .motorUndefined)
      (eq : t = (writePins code (finishAttempt s)).setResult .nothing)
  | throttled (p : Int) (row : i = .setThrottle p) (eq : t = (setThrottle p (finishAttempt s)).setResult .nothing)
  | serviced (n : Nat) (row : i = .service n) (r : Result) (eq : t = (serviceMotor (finishAttempt s)).2.setResult r)
  | updated (x : Side) (c : Int) (b : Bool) (row : i = .update x c b) (r : Result)
      (eq : t = (updateServo x c b (finishAttempt s)).2.setResult r)
  | pulsed (x : Side) (row : i = .servoPulse x) (r : Result) (eq : t = (emitPulse x (finishAttempt s)).setResult r)
  | applied (a : Action) (row : i = .applyAction a ∨ i = a.toInstr)
      (eq : t = (applyAction a (finishAttempt s)).setResult .nothing)
  | iterated (row : i = .iterate) (pins : s.PinsReady) (eq : t = (iterateState s).setResult .nothing)
  | booted (row : i = .boot) (run : s.run = .powerOn)
      (eq : t = (bootRegisters (bootPins (finishAttempt s))).setResult .nothing)

theorem Decoded.setResult {n : Nat} {s t : State} (h : Decoded n s t) (r : Result) :
    Later s (t.setResult r) ∧ SameUnits s (t.setResult r) :=
  ⟨⟨h.later.cfg, h.later.program, h.later.clock, h.later.trace⟩,
    ⟨h.units.run, h.units.motor, h.units.servoL, h.units.servoR, h.units.sched, h.units.pins⟩⟩

/-- The one inversion lemma of `exec`. -/
theorem exec_effect (i : Instr) (s t : State) (h : exec i s = .next t) : Effect i s t := by
  cases i with
  | configure p m =>
    simp only [exec, execConfigure, afterAttempt_eq_next, needFresh_eq_next, Host.Outcome.next.injEq] at h
    obtain ⟨-, -, rfl⟩ := h
    exact .configured p m rfl rfl
  | read p =>
    simp only [exec, execRead, needInput_eq_next, Host.Outcome.next.injEq] at h
    obtain ⟨-, rfl⟩ := h
    cases p with
    | ir => have := Decoded.setResult (readIr_decoded s) (.level (readIr s).1); exact .sampled this.1 this.2 (.inl rfl)
    | out o =>
      exact .sampled ⟨rfl, rfl, Nat.le_refl _, [.pinRead (.out o) (Config.freeLevel s.env.freeUsed)], rfl⟩
        ⟨rfl, rfl, rfl, rfl, rfl, rfl⟩ (.inl rfl)
  | write p v =>
    cases p with
    | ir => simp [exec, execWrite] at h
    | out o =>
      simp only [exec, execWrite, afterAttempt_eq_next, needOutput_eq_next, Host.Outcome.next.injEq] at h
      obtain ⟨-, -, rfl⟩ := h
      exact .wrote o v rfl rfl
  | now =>
    simp only [exec, execNow, afterAttempt_eq_next, Host.Outcome.next.injEq] at h
    obtain ⟨-, rfl⟩ := h
    obtain ⟨n, hd⟩ := finishAttempt_spec s
    have k := hd.later.trans (clockRead_spec (finishAttempt s)).1
    have u := hd.units
    exact .sampled ⟨k.cfg, k.program, k.clock, k.trace⟩
      ⟨u.run, u.motor, u.servoL, u.servoR, u.sched, u.pins⟩ (.inr (.inl rfl))
  | sleepFor d =>
    simp only [exec, execSleepFor, Host.Outcome.next.injEq] at h
    subst h
    have k := sleepFor_spec d s
    exact .sampled ⟨k.1.cfg, k.1.program, k.1.clock, k.1.trace⟩ ⟨rfl, rfl, rfl, rfl, rfl, rfl⟩ (.inl rfl)
  | sleepUntil d =>
    simp only [exec, execSleepUntil, afterAttempt_eq_next, Host.Outcome.next.injEq] at h
    obtain ⟨-, rfl⟩ := h
    obtain ⟨n, hd⟩ := finishAttempt_spec s
    have k := hd.later.trans (sleepUntil_spec d (finishAttempt s)).1
    have u := hd.units
    exact .sampled ⟨k.cfg, k.program, k.clock, k.trace⟩
      ⟨u.run, u.motor, u.servoL, u.servoR, u.sched, u.pins⟩ (.inr (.inl rfl))
  | measureRun l c =>
    simp only [exec, execMeasureRun, needInput_eq_next, Host.Outcome.next.injEq] at h
    obtain ⟨-, rfl⟩ := h
    obtain ⟨n, -, hd, -⟩ := measureRun_spec l c s
    have := Decoded.setResult hd (.count (measureRun l c s).irdec.count); exact .sampled this.1 this.2 (.inr (.inr (by simp [WritesDecoder])))
  | poll =>
    simp only [exec, execPoll, needInput_eq_next, Host.Outcome.next.injEq] at h
    obtain ⟨-, rfl⟩ := h
    obtain ⟨n, hd⟩ := runPoll_spec s
    exact .sampled hd.later hd.units (.inr (.inr (by simp [WritesDecoder])))
  | actionFor c =>
    simp only [exec, execActionFor, Host.Outcome.next.injEq] at h
    subst h
    exact .sampled ⟨rfl, rfl, Nat.le_refl _, [], rfl⟩ ⟨rfl, rfl, rfl, rfl, rfl, rfl⟩ (.inl rfl)
  | setThrottle p =>
    simp only [exec, execSetThrottle, afterAttempt_eq_next, Host.Outcome.next.injEq] at h
    exact .throttled p rfl h.2.symm
  | service n =>
    simp only [exec, execService, afterAttempt_eq_next, needOutput_eq_next, Host.Outcome.next.injEq] at h
    exact .serviced n rfl _ h.2.2.2.symm
  | update x r b =>
    simp only [exec, execUpdate, afterAttempt_eq_next, needOutput_eq_next, Host.Outcome.next.injEq] at h
    exact .updated x r b rfl _ h.2.2.symm
  | applyAction a =>
    simp only [exec, execApplyAction, afterAttempt_eq_next, Host.Outcome.next.injEq] at h
    exact .applied a (.inl rfl) h.2.symm
  | iterate =>
    simp only [exec, execIterate, needPins_eq_next, Host.Outcome.next.injEq] at h
    exact .iterated rfl h.1 h.2.symm
  | boot =>
    simp only [exec, execBoot] at h
    cases hr : s.run with
    | running => simp [hr] at h
    | powerOn =>
      simp only [hr, afterAttempt_eq_next, needFresh_eq_next, Host.Outcome.next.injEq] at h
      exact .booted rfl hr h.2.2.2.2.2.2.symm
  | necFrame a an c cn =>
    simp only [exec, execNecFrame, afterAttempt_eq_next, needInput_eq_next, Host.Outcome.next.injEq] at h
    obtain ⟨-, -, rfl⟩ := h
    obtain ⟨m, hf⟩ := finishAttempt_spec s
    generalize finishAttempt s = u at *
    obtain ⟨n, hd⟩ := poll_spec
      (useFree 66 (present (freeFrame u.cfg u.env.freeUsed { d0 := a, d1 := an, d2 := c, d3 := cn }) u))
    have d := hf.trans (((present_decoded _ u).trans (useFree_decoded 66 _)).trans hd)
    exact .sampled d.later d.units (.inr (.inr (by simp [WritesDecoder])))
  | start cl ch =>
    simp only [exec, execStart, needInput_eq_next] at h
    obtain ⟨-, h⟩ := h
    split at h <;> simp at h
    subst h
    obtain ⟨n, hd⟩ := receive_spec (present (leadIn s ++ runPair cl ch) s)
    have d := (present_decoded _ s).trans hd
    exact .sampled d.later d.units (.inr (.inr (by simp [WritesDecoder])))
  | bit0 cl ch =>
    simp only [exec, execBit0, needInput_eq_next] at h
    obtain ⟨-, h⟩ := h
    split at h <;> simp at h
    subst h
    obtain ⟨n, hd⟩ := receive_spec (present (leadIn s ++ runPair cl ch) s)
    have d := (present_decoded _ s).trans hd
    exact .sampled d.later d.units (.inr (.inr (by simp [WritesDecoder])))
  | bit1 cl ch =>
    simp only [exec, execBit1, needInput_eq_next] at h
    obtain ⟨-, h⟩ := h
    split at h <;> simp at h
    subst h
    obtain ⟨n, hd⟩ := receive_spec (present (leadIn s ++ runPair cl ch) s)
    have d := (present_decoded _ s).trans hd
    exact .sampled d.later d.units (.inr (.inr (by simp [WritesDecoder])))
  | noSymbol v cl =>
    simp only [exec, execNoSymbol, needInput_eq_next, Host.Outcome.next.injEq] at h
    obtain ⟨-, rfl⟩ := h
    obtain ⟨n, hd⟩ := receive_spec (present (leadIn s ++ stuckSamples v cl s) s)
    have d := (present_decoded _ s).trans hd
    exact .sampled d.later d.units (.inr (.inr (by simp [WritesDecoder])))
  | servoPulse x =>
    simp only [exec, execServoPulse, afterAttempt_eq_next, needOutput_eq_next, Host.Outcome.next.injEq] at h
    exact .pulsed x rfl _ h.2.2.symm
  | motorForward | motorReverse | motorCoast | motorUndefined =>
    simp only [exec, execMotorForward, execMotorReverse, execMotorCoast, execMotorUndefined, putCode, afterAttempt_eq_next,
        needOutput_eq_next, Host.Outcome.next.injEq] at h
    obtain ⟨-, -, -, rfl⟩ := h
    exact .coded _ (by simp) rfl
  | noseUp =>
    simp only [exec, execNoseUp, afterAttempt_eq_next, Host.Outcome.next.injEq] at h
    exact .applied .noseUp (.inr rfl) h.2.symm
  | noseDown =>
    simp only [exec, execNoseDown, afterAttempt_eq_next, Host.Outcome.next.injEq] at h
    exact .applied .noseDown (.inr rfl) h.2.symm
  | rollLeft =>
    simp only [exec, execRollLeft, afterAttempt_eq_next, Host.Outcome.next.injEq] at h
    exact .applied .rollLeft (.inr rfl) h.2.symm
  | rollRight =>
    simp only [exec, execRollRight, afterAttempt_eq_next, Host.Outcome.next.injEq] at h
    exact .applied .rollRight (.inr rfl) h.2.symm
  | volumeUp =>
    simp only [exec, execVolumeUp, afterAttempt_eq_next, Host.Outcome.next.injEq] at h
    exact .applied .volumeUp (.inr rfl) h.2.symm
  | volumeDown =>
    simp only [exec, execVolumeDown, afterAttempt_eq_next, Host.Outcome.next.injEq] at h
    exact .applied .volumeDown (.inr rfl) h.2.symm
  | powerToggle =>
    simp only [exec, execPowerToggle, afterAttempt_eq_next, Host.Outcome.next.injEq] at h
    exact .applied .powerToggle (.inr rfl) h.2.symm
  | select =>
    simp only [exec, execSelect, afterAttempt_eq_next, Host.Outcome.next.injEq] at h
    exact .applied .select (.inr rfl) h.2.symm
  | numeric d =>
    simp only [exec, execNumeric, afterAttempt_eq_next, Host.Outcome.next.injEq] at h
    exact .applied (.numeric d) (.inr rfl) h.2.symm
  | raw b =>
    simp only [exec, execRaw, afterAttempt_eq_next, Host.Outcome.next.injEq] at h
    exact .applied (.raw b) (.inr rfl) h.2.symm

end Sys2Proof.Machine
end

