-- ==== Sys2Proof/Laws/PerInstr.lean ====
section
/-! SUPPORT. Laws/PerInstr.lean: statements made constructor by constructor. -/

namespace Sys2Proof.Laws.OpcodeByte

/-- The word of an instruction carries the instruction's opcode byte, which for an operation of R100 is its id, in its low
eight bits. -/
def Statement (i : Instr) : Prop := (encode i).toNat % 256 = i.opcode

/-- The low byte of a word is the opcode, whatever the operands. -/
theorem of_lt (i : Instr) (h : i.opcode < 256) : Statement i := by
  unfold Statement encode
  rw [BitVec.toNat_ofNat]
  omega

theorem configure (pin : Pin) (mode : PinMode) : Statement (.configure pin mode) := of_lt _ (by simp [Instr.opcode])
theorem read (pin : Pin) : Statement (.read pin) := of_lt _ (by simp [Instr.opcode])
theorem write (pin : Pin) (level : Level) : Statement (.write pin level) := of_lt _ (by simp [Instr.opcode])
theorem now : Statement .now := of_lt _ (by simp [Instr.opcode])
theorem sleepFor (d : Nat) : Statement (.sleepFor d) := of_lt _ (by simp [Instr.opcode])
theorem sleepUntil (t : Nat) : Statement (.sleepUntil t) := of_lt _ (by simp [Instr.opcode])
theorem measureRun (level : Level) (cap : Nat) : Statement (.measureRun level cap) := of_lt _ (by simp [Instr.opcode])
theorem poll : Statement .poll := of_lt _ (by simp [Instr.opcode])
theorem actionFor (code : Byte) : Statement (.actionFor code) := of_lt _ (by simp [Instr.opcode])
theorem setThrottle (percent : Int) : Statement (.setThrottle percent) := of_lt _ (by simp [Instr.opcode])
theorem service (t : Nat) : Statement (.service t) := of_lt _ (by simp [Instr.opcode])
theorem update (x : Side) (rollCmd : Int) (isLeft : Bool) : Statement (.update x rollCmd isLeft) := of_lt _ (by simp [Instr.opcode])
theorem applyAction (a : Action) : Statement (.applyAction a) := of_lt _ (by simp [Instr.opcode])
theorem iterate : Statement .iterate := of_lt _ (by simp [Instr.opcode])
theorem boot : Statement .boot := of_lt _ (by simp [Instr.opcode])
theorem necFrame (addr : Byte) (addrInv : Byte) (cmd : Byte) (cmdInv : Byte) : Statement (.necFrame addr addrInv cmd cmdInv) := of_lt _ (by simp [Instr.opcode])
theorem start (cLow : Nat) (cHigh : Nat) : Statement (.start cLow cHigh) := of_lt _ (by simp [Instr.opcode])
theorem bit0 (cLow : Nat) (cHigh : Nat) : Statement (.bit0 cLow cHigh) := of_lt _ (by simp [Instr.opcode])
theorem bit1 (cLow : Nat) (cHigh : Nat) : Statement (.bit1 cLow cHigh) := of_lt _ (by simp [Instr.opcode])
theorem noSymbol (stuck : Level) (cLow : Nat) : Statement (.noSymbol stuck cLow) := of_lt _ (by simp [Instr.opcode])
theorem noseUp : Statement .noseUp := of_lt _ (by simp [Instr.opcode])
theorem noseDown : Statement .noseDown := of_lt _ (by simp [Instr.opcode])
theorem rollLeft : Statement .rollLeft := of_lt _ (by simp [Instr.opcode])
theorem rollRight : Statement .rollRight := of_lt _ (by simp [Instr.opcode])
theorem volumeUp : Statement .volumeUp := of_lt _ (by simp [Instr.opcode])
theorem volumeDown : Statement .volumeDown := of_lt _ (by simp [Instr.opcode])
theorem powerToggle : Statement .powerToggle := of_lt _ (by simp [Instr.opcode])
theorem select : Statement .select := of_lt _ (by simp [Instr.opcode])
theorem numeric (digit : Fin 10) : Statement (.numeric digit) := of_lt _ (by simp [Instr.opcode])
theorem raw (byte : Byte) : Statement (.raw byte) := of_lt _ (by simp [Instr.opcode])
theorem motorForward : Statement .motorForward := of_lt _ (by simp [Instr.opcode])
theorem motorReverse : Statement .motorReverse := of_lt _ (by simp [Instr.opcode])
theorem motorCoast : Statement .motorCoast := of_lt _ (by simp [Instr.opcode])
theorem motorUndefined : Statement .motorUndefined := of_lt _ (by simp [Instr.opcode])
theorem servoPulse (x : Side) : Statement (.servoPulse x) := of_lt _ (by simp [Instr.opcode])

end Sys2Proof.Laws.OpcodeByte
end

