-- ==== Sys2Proof/Tests/Slice0.lean ====
section
/-! SUPPORT. Tests/Slice0.lean: the refusals of WellFormed, words written out by hand from the layout in Decode.lean, the
vectors of 95_test_vectors.md (named in the docstrings), and one witness for the hypotheses of each statement. -/

namespace Sys2Proof.Tests
open Sys2Proof Sys2Proof.Machine

/-! ## The reference configuration (95_test_vectors.md section 0) and small states -/

def refParams : Params where
  tSUs := 60
  startLowMax := 200
  startHighMax := 80
  bitLowMax := 15
  bitHighMax := 40
  bitThreshold := 8
  actionTable := Config.tableT1
  motorFreqHz := 400
  motorWriteOrder := .in1First
  servoFrameUs := 20000
  servoMinUs := 600
  servoMaxUs := 2400
  rollMaxDeg := 30
  hardLimitDeg := 40
  slewPerFrameDeg := 3
  throttleStep := 5
  rollStep := 10
  armedThrottle := 20
  irPinMode := .up
  outDrive := .ma4

/-- The block after a boot at clock 1000000, with this line and this lateness to come. -/
def booted (line : List Level) (delays : List Nat) : State :=
  let s := State.afterBoot refParams 1000000
  s.setEnv { s.env with line := line, delays := delays }

/-- The block before its boot sequence. -/
def unbooted : State := State.beforeBoot refParams 1000000

/-- The decoder in this phase at bit `i`. -/
def decoding (p : IrPhase) (i : Fin 32) (s : State) : State := s.setIrdec { s.irdec with phase := p, bitIdx := i }

def withDuty (duty : Nat) (d : Direction) (p : MotorPhase) (s : State) : State :=
  s.setMotor { direction := d, dutyUs := duty, phase := p }

def withCommand (roll throttle : Int) (on : Bool) (s : State) : State :=
  s.setSched { s.sched with rollCmd := roll, throttleCmd := throttle, engineEnabled := on }

def withDeadlines (l r m : Nat) (s : State) : State :=
  s.setSched { s.sched with nextServoL := l, nextServoR := r, nextMotor := m }

def reached : Answer → Option State
  | .next t => some t
  | .fault _ => none
  | .refused _ => none

def refusal : Answer → Option Refusal
  | .next _ => none
  | .fault _ => none
  | .refused r => some r

def command (s : State) : Int × Int × Bool := (s.sched.rollCmd, s.sched.throttleCmd, s.sched.engineEnabled)

def deadlines (s : State) : Nat × Nat × Nat := (s.sched.nextServoL, s.sched.nextServoR, s.sched.nextMotor)

def motorPins (s : State) : Level × Level := (s.pins.motIn1.latch, s.pins.motIn2.latch)

/-! ## WellFormed refuses -/

theorem test_wf_u64 : (Instr.sleepFor (2 ^ 64)).wellFormed = false ∧ (Instr.sleepUntil (2 ^ 64)).wellFormed = false
    ∧ (Instr.service (2 ^ 64)).wellFormed = false ∧ (Instr.service (2 ^ 64 - 1)).wellFormed = true := by decide

theorem test_wf_i32 : (Instr.setThrottle (2 ^ 31)).wellFormed = false
    ∧ (Instr.setThrottle (-(2 ^ 31) - 1)).wellFormed = false ∧ (Instr.update .left (2 ^ 31) true).wellFormed = false
    ∧ (Instr.setThrottle (-(2 ^ 31))).wellFormed = true := by decide

theorem test_wf_cap : (Instr.measureRun .low 0).wellFormed = false
    ∧ (Instr.measureRun .low (2 ^ 32 + 1)).wellFormed = false ∧ (Instr.measureRun .low 1).wellFormed = true := by decide

theorem test_wf_count : (Instr.start 65536 0).wellFormed = false ∧ (Instr.start 0 65536).wellFormed = false
    ∧ (Instr.bit0 65536 0).wellFormed = false ∧ (Instr.bit1 0 65536).wellFormed = false
    ∧ (Instr.noSymbol .low 65536).wellFormed = false := by decide

/-! ## Words, written out from the layout table of Decode.lean (ids of R100 in the low four bits) -/

theorem test_decode_hal : decode 0x3400#72 = .ok (.configure (.out .srvR) (.output .ma12))
    ∧ decode 0x001#72 = .ok (.read .ir) ∧ decode 0x301#72 = .ok (.read (.out .srvL))
    ∧ decode 0xB02#72 = .ok (.write (.out .srvR) .high) ∧ decode 0x03#72 = .ok .now
    ∧ decode 0x3C04#72 = .ok (.sleepFor 60) ∧ decode 0xF55C805#72 = .ok (.sleepUntil 1005000)
    ∧ decode 0xFFFFFFFFFFFFFFFF05#72 = .ok (.sleepUntil 18446744073709551615) := by decide

theorem test_decode_irdec : decode 0x9F06#72 = .ok (.measureRun .high 80)
    ∧ decode 0x18E06#72 = .ok (.measureRun .low 200) ∧ decode 0x07#72 = .ok .poll
    ∧ decode 0x4508#72 = .ok (.actionFor 0x45)
    ∧ decode 0b10111010010001011111111100000000_00001111#72 = .ok (.necFrame 0x00 0xFF 0x45 0xBA)
    ∧ decode 0x004B00961F#72 = .ok (.start 150 75) ∧ decode 0x000400092F#72 = .ok (.bit0 9 4)
    ∧ decode 0x001C00093F#72 = .ok (.bit1 9 28) ∧ decode 0x4F#72 = .ok (.noSymbol .low 0)
    ∧ decode 0x134F#72 = .ok (.noSymbol .high 9) := by decide

theorem test_decode_motor_servo : decode 0xFFFFFFD809#72 = .ok (.setThrottle (-40))
    ∧ decode 0xF42400A#72 = .ok (.service 1000000) ∧ decode 0x2000000640B#72 = .ok (.update .right 100 false)
    ∧ decode 0x1FFFFFFF90B#72 = .ok (.update .left (-7) true) ∧ decode 0x26F#72 = .ok .motorForward
    ∧ decode 0x16F#72 = .ok .motorReverse ∧ decode 0x06F#72 = .ok .motorCoast
    ∧ decode 0x36F#72 = .ok .motorUndefined ∧ decode 0x17F#72 = .ok (.servoPulse .right) := by decide

theorem test_decode_sched : decode 0x40C#72 = .ok (.applyAction .volumeUp)
    ∧ decode 0x4590C#72 = .ok (.applyAction (.raw 0x45)) ∧ decode 0x0D#72 = .ok .iterate
    ∧ decode 0x0E#72 = .ok .boot := by decide

theorem test_decode_actions : decode 0x05F#72 = .ok .noseUp ∧ decode 0x15F#72 = .ok .noseDown
    ∧ decode 0x25F#72 = .ok .rollLeft ∧ decode 0x35F#72 = .ok .rollRight ∧ decode 0x45F#72 = .ok .volumeUp
    ∧ decode 0x55F#72 = .ok .volumeDown ∧ decode 0x65F#72 = .ok .powerToggle ∧ decode 0x75F#72 = .ok .select
    ∧ decode 0x385F#72 = .ok (.numeric 3) ∧ decode 0x4595F#72 = .ok (.raw 0x45) := by decide

theorem test_decode_rejects : decode 0x501#72 = .error (.badPin 5) ∧ decode 0x3800#72 = .error (.badMode 7)
    ∧ decode 0xA85F#72 = .error (.badAction 8 10) ∧ decode 0x105F#72 = .error (.badAction 0 1)
    ∧ decode 0x103#72 = .error (.strayBits 3) ∧ decode 0x8F#72 = .error (.unknownOpcode 0x8F) := by decide

theorem test_encode : encode (.start 150 75) = 0x004B00961F#72 ∧ encode (.update .right 100 false) = 0x2000000640B#72
    ∧ encode (.raw 0x45) = 0x4595F#72 := by decide

/-! ## Boundary -/

/-- H5: the second write of the same level is a transaction too. -/
theorem test_write_same_level :
    ((reached (exec (.write (.out .srvL) .high) (booted [] []))).bind
        fun t => reached (exec (.write (.out .srvL) .high) t)).map (fun t => (t.pins.srvL.latch, t.trace))
      = some (.high, [.pinWrite (.out .srvL) .high, .pinWrite (.out .srvL) .high]) := by decide

/-- H7. -/
theorem test_misuse : refusal (exec (.write .ir .low) (booted [] [])) = some (.pinNotOutput .ir)
    ∧ refusal (exec (.read (.out .srvL)) (booted [] [])) = some (.pinNotInput (.out .srvL))
    ∧ refusal (exec (.configure .ir (.input .up)) (booted [] [])) = some (.pinReconfigured .ir) := by decide

/-- H2, with 1000000 for 1000: a sleep of 60 that is 7 late. -/
theorem test_sleepFor : (reached (exec (.sleepFor 60) (booted [] [7]))).map (fun t => t.env.clock) = some 1000067 := by
  decide

/-- H3 and H4: the clock ends at the moment asked for, or stays where it is. -/
theorem test_sleepUntil : (reached (exec (.sleepUntil 1002500) (booted [] [0]))).map (fun t => t.env.clock) = some 1002500
    ∧ (reached (exec (.sleepUntil 2500) (booted [] [0]))).map (fun t => t.env.clock) = some 1000000 := by decide

/-- H1 and H6. -/
theorem test_now_read : (reached (exec .now (booted [] [3]))).map (fun t => t.result) = some (.time 1000003)
    ∧ (reached (exec (.read .ir) (booted [.low, .high] []))).map (fun t => (t.result, t.env.line))
      = some (.level .low, [.high]) := by decide

theorem test_configure :
    (reached (exec (.configure .ir (.input .down)) unbooted)).map (fun t => (t.pins.irMode, t.trace))
      = some (some (.input .down), [.pinConfigure .ir (.input .down)]) := by decide

/-! ## IRDEC -/

/-- M1. -/
theorem test_measureRun : (reached (exec (.measureRun .low 200) (booted [.low, .low, .low, .high, .low] [0, 0, 0]))).map
    (fun t => (t.result, t.env.line, t.env.clock)) = some (.count 3, [.low], 1000180) := by decide

/-- M9: at the cap the next sample is not read. -/
theorem test_measureRun_cap : (reached (exec (.measureRun .high 1) (booted [.high, .high] [0]))).map
    (fun t => (t.result, t.env.line)) = some (.count 1, [.high]) := by decide

/-- The run counts of a frame with bytes `d`: `h1` or `h0` by the bit, low runs `lo`. -/
def frameRuns (lo h1 h0 : Nat) (d : Payload) (j : Nat) : Nat × Nat := (lo, if d.bit j then h1 else h0)

/-- V11: every low run and both start runs of count 0; 384 samples. -/
theorem test_poll_frame :
    (reached (exec .poll (booted (frameSamples 0 0 (frameRuns 0 20 4 ⟨0x00, 0xFF, 0x45, 0xBA⟩)) []))).map
      (fun t => (t.result, t.irdec.data, t.env.line, sleepsIn t.trace))
      = some (.polled (.decoded .powerToggle), ⟨0x00, 0xFF, 0x45, 0xBA⟩, [], 384) := by decide +kernel

/-- V7b: the line is stuck low; two samples follow. -/
theorem test_poll_stuck_low :
    (reached (exec .poll (booted (List.replicate 203 .low) []))).map (fun t => (t.result, t.env.line, sleepsIn t.trace))
      = some (.polled (.aborted .startLowTimeout), [.low, .low], 200) := by decide +kernel

/-- A1, A2, A3. -/
theorem test_actionFor : actionFor refParams 0x45 = .powerToggle ∧ actionFor refParams 0x5E = .numeric 3
    ∧ actionFor refParams 0x00 = .raw 0 ∧ actionFor refParams 0xFF = .raw 255 := by decide

/-- V3, V4, V4b, V1 at the check. -/
theorem test_check : checkPayload refParams ⟨0x00, 0xFF, 0x45, 0xBB⟩ = .aborted .checksumCommand
    ∧ checkPayload refParams ⟨0x01, 0xFF, 0x45, 0xBA⟩ = .aborted .checksumAddress
    ∧ checkPayload refParams ⟨0x01, 0xFF, 0x45, 0xBB⟩ = .aborted .checksumAddress
    ∧ checkPayload refParams ⟨0xFF, 0x00, 0x00, 0xFF⟩ = .decoded (.raw 0) := by decide

/-- R83: bit 10 of the frame is bit 2 of the second byte. -/
theorem test_bit_order : (⟨0, 0x04, 0, 0⟩ : Payload).bit 10 = true
    ∧ Payload.zero.setBit 10 true = ⟨0, 0x04, 0, 0⟩ := by decide

/-- A START row, then BIT1 and BIT0: the first bit of the frame is bit 0 of `data[0]` (R83, R136). -/
theorem test_symbols : (reached (execAll [.start 0 0, .bit1 0 9, .bit0 0 8, .bit1 0 9] (booted [] []))).map
    (fun t => (t.irdec.phase, t.irdec.bitIdx, t.irdec.data, t.env.line)) = some (.bitLow, 3, ⟨0x05, 0, 0, 0⟩, []) := by
  decide +kernel

/-- V9b with short start runs: bit 0's low run reaches 15. -/
theorem test_noSymbol : (reached (execAll [.start 0 0, .noSymbol .low 0] (booted [] []))).map
    (fun t => (t.irdec.phase, t.result)) = some (.idle, .polled (.aborted (.bitLowTimeout 0))) := by decide +kernel

/-- START with a count at its cap is no START (R81). -/
theorem test_start_cap : refusal (exec (.start 200 0) (booted [] [])) = some .notThatSymbol
    ∧ refusal (exec (.bit0 0 9) (booted [] [])) = some .notThatSymbol
    ∧ refusal (exec (.bit1 0 8) (booted [] [])) = some .notThatSymbol := by decide

/-! ## MOTOR -/

/-- T-M1. -/
theorem test_setThrottle :
    (reached (exec (.setThrottle (-2147483648)) (booted [] []))).map (fun t => t.motor) = some ⟨.reverse, 2500, .coasting⟩
    ∧ (reached (exec (.setThrottle 33) (booted [] []))).map (fun t => t.motor) = some ⟨.forward, 825, .coasting⟩
    ∧ (reached (exec (.setThrottle (-99)) (booted [] []))).map (fun t => t.motor) = some ⟨.reverse, 2475, .coasting⟩ := by
  decide

/-- T-M1, period 3. -/
theorem test_setThrottle_floor : dutyOf { refParams with motorFreqHz := 333333 } 33 = 0
    ∧ dutyOf { refParams with motorFreqHz := 333333 } 34 = 1
    ∧ dutyOf { refParams with motorFreqHz := 333333 } 67 = 2 := by decide

/-- T-M2 steps 9 and 10. -/
theorem test_service :
    (reached (exec (.service 0) (withDuty 1000 .reverse .driving (booted [] [])))).map
      (fun t => (t.result, motorPins t, t.motor.phase)) = some (.delta 1500, (.low, .low), .coasting)
    ∧ (reached (exec (.service 0) (withDuty 1000 .reverse .coasting (booted [] [])))).map
      (fun t => (t.result, motorPins t, t.motor.phase)) = some (.delta 1000, (.low, .high), .driving) := by decide

/-- T-M2 steps 1 and 16. -/
theorem test_service_ends :
    (reached (exec (.service 0) (booted [] []))).map (fun t => (t.result, motorPins t)) = some (.delta 2500, (.low, .low))
    ∧ (reached (exec (.service 0) (withDuty 2500 .reverse .driving (booted [] [])))).map
      (fun t => (t.result, t.trace))
      = some (.delta 2500, [.pinWrite (.out .motIn2) .high, .pinWrite (.out .motIn1) .low]) := by decide

/-- R92 and U6: the four codes. -/
theorem test_motor_codes :
    (reached (exec .motorForward (booted [] []))).map motorPins = some (.high, .low)
    ∧ (reached (exec .motorReverse (booted [] []))).map motorPins = some (.low, .high)
    ∧ (reached (exec .motorCoast (booted [] []))).map motorPins = some (.low, .low)
    ∧ (reached (exec .motorUndefined (booted [] []))).map motorPins = some (.high, .high) := by decide

/-! ## SERVO -/

/-- T-S4 calls 1 and 2. -/
theorem test_update :
    (reached (exec (.update .left 100 true) (booted [] []))).map (fun t => (t.result, t.servoL, t.pins.srvL.latch))
      = some (.delta 1530, ⟨3, .highPhase⟩, .high)
    ∧ (reached (exec (.update .left 100 true) ((booted [] []).setServoL ⟨3, .highPhase⟩))).map
      (fun t => (t.result, t.servoL, t.pins.srvL.latch)) = some (.delta 18440, ⟨6, .lowPhase⟩, .low) := by decide

/-- T-S7 f and T-S5: the other instance's pin and sign. -/
theorem test_update_right :
    (reached (exec (.update .right (-2147483648) false) (booted [] []))).map (fun t => (t.result, t.servoR))
      = some (.delta 1530, ⟨3, .highPhase⟩)
    ∧ (reached (exec (.update .right 100 false) (booted [] []))).map (fun t => (t.servoR, t.servoL, t.pins.srvR.latch))
      = some (⟨-3, .highPhase⟩, ⟨0, .lowPhase⟩, .high) := by decide

/-- T-S1 and T-S2. -/
theorem test_width : pulseWidthUs refParams (-91) = 600 ∧ pulseWidthUs refParams (-89) = 610
    ∧ pulseWidthUs refParams 120 = 2400
    ∧ pulseWidthUs { refParams with servoMinUs := 1000, servoMaxUs := 2000 } (-1) = 1494 := by decide

/-- T-S3: truncation toward zero, and the hard limit. -/
theorem test_target : targetDeg refParams (-7) true = -2 ∧ targetDeg refParams 150 true = 40
    ∧ targetDeg refParams 200 false = -40 ∧ targetDeg refParams 3 true = 0 := by decide

/-- P3's pulse: high from 1000000 to 1001500, low until 1020000. -/
theorem test_servoPulse : (reached (exec (.servoPulse .left) (booted [] [0, 0]))).map
    (fun t => (t.result, t.env.clock, t.pins.srvL.latch, t.servoL)) = some (.delta 20000, 1020000, .low, ⟨0, .lowPhase⟩) := by
  decide

/-- R31: the pulse code writes no register, so `pulse_phase` keeps the level the last `update` drove. -/
theorem test_servoPulse_keeps_phase :
    (reached (exec (.servoPulse .right) ((booted [] [0, 0]).setServoR ⟨30, .highPhase⟩))).map
      (fun t => (t.servoR, t.pins.srvR.latch)) = some (⟨30, .highPhase⟩, .low) := by decide

/-! ## SCHED -/

/-- T-A1, throttle and engine. -/
theorem test_throttle_actions :
    (reached (exec .volumeUp (withCommand 0 98 true (booted [] [])))).map command = some (0, 100, true)
    ∧ (reached (exec .volumeDown (withCommand 0 3 true (booted [] [])))).map command = some (0, 0, true)
    ∧ (reached (exec .powerToggle (withCommand 0 55 false (booted [] [])))).map command = some (0, 20, true)
    ∧ (reached (exec .powerToggle (withCommand 0 55 true (booted [] [])))).map command = some (0, 0, false) := by decide

/-- T-A1, roll and the no-ops. -/
theorem test_roll_actions :
    (reached (exec .rollRight (withCommand 95 0 false (booted [] [])))).map command = some (100, 0, false)
    ∧ (reached (exec .rollLeft (withCommand (-95) 0 false (booted [] [])))).map command = some (-100, 0, false)
    ∧ (reached (exec (.applyAction .rollLeft) (booted [] []))).map command = some (-10, 0, false)
    ∧ (reached (exec (.raw 0x45) (withCommand 10 15 true (booted [] [])))).map command = some (10, 15, true) := by decide

/-- I1: nothing due. -/
theorem test_iterate_none_due :
    (reached (exec .iterate (withDeadlines 1020000 1020000 1005000 (booted [.high] [3000, 0])))).map
      (fun t => (deadlines t, t.trace))
      = some ((1020000, 1020000, 1005000), [.sleepUntil 1005000, .pinRead .ir .high, .now 1003000]) := by decide

/-- I5: all three due, with its transactions in order. -/
theorem test_iterate_all_due : (reached (exec .iterate (booted [.high] [0, 0]))).map (fun t => (deadlines t, t.trace))
      = some ((1001500, 1001500, 1002500), [.sleepUntil 1001500, .pinWrite (.out .motIn2) .low,
          .pinWrite (.out .motIn1) .low, .pinWrite (.out .srvR) .high, .pinWrite (.out .srvL) .high,
          .pinRead .ir .high, .now 1000000]) := by decide

/-- B1. -/
theorem test_boot : (reached (exec .boot (unbooted.setEnv { unbooted.env with delays := [0] }))).map
      (fun t => (deadlines t, t.run, t.pins, t.trace.length))
      = some ((1000000, 1000000, 1000000), .running, Pins.reset refParams, 10) := by decide

/-- U22. -/
theorem test_guards : refusal (exec .boot (booted [] [])) = some .secondBoot := by decide

/-- The decoder awaiting bit 0 of P1's frame, whose samples stand on the line; every sleep is on time. -/
def midFrame : State :=
  decoding .bitLow 0 (booted (bitSamples (frameRuns 0 9 0 ⟨0x00, 0xFF, 0x45, 0xBA⟩) 0 32) (List.replicate 200 0))

/-- R141 and R205: with nothing waiting, the iteration takes the attempt in progress for its `poll`, to its end, and applies
the action (V2 and T-A1). -/
theorem test_iterate_finishes_the_attempt : (reached (step midFrame)).map
    (fun t => (command t, t.irdec.phase, t.env.line)) = some ((0, 20, true), .idle, []) := by decide +kernel

/-- R13 and R141: an operation given during an attempt starts when the attempt has timed out. -/
theorem test_operation_follows_the_attempt :
    (reached (exec .volumeUp (decoding .bitLow 0 (booted (List.replicate 16 Level.low) [])))).map
      (fun t => (command t, t.irdec.phase, t.env.line)) = some ((0, 5, false), .idle, [.low]) := by decide +kernel

/-- The first step after reset runs the word placed there, and with no word waiting the block iterates. -/
theorem test_step : step ((booted [] []).withFetchWord 8 0x03) = exec .now (booted [] [])
    ∧ step (booted [] []) = exec .iterate (booted [] []) := ⟨rfl, rfl⟩

/-! ## Witnesses: for each statement with hypotheses, a state and operands that meet them, each clause at a boundary -/

/-- The frame of P1, shortest runs. -/
def frameP1 : Payload := ⟨0x00, 0xFF, 0x45, 0xBA⟩

theorem witness_DecodeOfEncode : (Instr.measureRun .high (2 ^ 32)).wellFormed = true
    ∧ (Instr.setThrottle (-(2 ^ 31))).wellFormed = true := by decide

theorem witness_EncodeOfDecode : decode 0xFFFFFFFFFFFFFFFF0A#72 = .ok (.service (2 ^ 64 - 1)) := by decide

theorem witness_StepRunsTheNextOperation :
    (((booted [] []).setProgram [0x03]).program = 0x03#72 :: [] ∧ decode 0x03#72 = .ok .now)
    ∧ decode 0xFF#72 = .error (.unknownOpcode 0xFF)
    ∧ ((booted [] []).program = [] ∧ (booted [] []).run = .running)
    ∧ (unbooted.program = [] ∧ unbooted.run = .powerOn) := by decide

theorem witness_FetchWordRunsNext : decodeTableWord 8 0x0D = some .iterate ∧ decodeTableWord 8 0 = some (.configure .ir (.input .floating))
    := by decide

theorem witness_ConfigureSetsTheMode : unbooted.irdec.phase = .idle ∧ unbooted.pins.irMode = none
    ∧ (unbooted.pins.cell .srvR).mode = none := by decide

theorem witness_PinMisuseIsRefused : (booted [] []).irdec.phase = .idle
    ∧ (booted [] []).pins.mode .ir = some (.input .up) ∧ (booted [] []).pins.mode (.out .srvL) = some (.output .ma4)
    ∧ unbooted.irdec.phase = .idle ∧ unbooted.pins.mode (.out .motIn1) = none := by decide

theorem witness_ReadReturnsALevel : (booted [.low] []).pins.irMode = some (.input .up)
    ∧ (booted [.low] []).env.line = .low :: [] ∧ (booted [] []).pins.mode .ir = some (.input .up)
    ∧ (booted [] []).env.line = [] := by decide

theorem witness_WriteSetsOneLatch : (booted [] []).irdec.phase = .idle
    ∧ ((booted [] []).pins.cell .motIn1).mode = some (.output .ma4) := by decide

theorem witness_NowIsMonotone : (booted [] [0]).irdec.phase = .idle := by decide

theorem witness_SleepsLastAtLeastAsAsked : (booted [] [0]).irdec.phase = .idle := by decide

/-- A run of 0 and a run one below the cap. -/
theorem witness_MeasureRunCountsTheRun : readable (booted [Level.high] []) .ir = true ∧ Level.high ≠ .low ∧ 0 < 1
    ∧ (booted [Level.high] []).env.line = List.replicate 0 Level.low ++ Level.high :: []
    ∧ (booted [Level.low, Level.low, Level.high] []).env.line = List.replicate (3 - 1) Level.low ++ Level.high :: [] := by decide

/-- M9. -/
theorem witness_MeasureRunGivesUpAtTheCap : readable (booted [Level.high, Level.low] []) .ir = true
    ∧ (booted [Level.high, Level.low] []).env.line = List.replicate 1 Level.high ++ [Level.low] := by decide

theorem witness_MeasureRunIsBounded : readable (booted [] []) .ir = true := by decide

theorem witness_PollOfAnIdleLineIsOneRead : (booted [Level.high] []).irdec.phase = .idle
    ∧ readable (booted [Level.high] []) .ir = true ∧ (booted [Level.high] []).env.line = Level.high :: [] := by decide

/-- V7b: the start-low run at its cap. -/
def stuckLow : State := booted (Level.low :: (List.replicate 200 Level.low ++ [Level.low])) []

/-- V8b: a start-low run one below its cap, and the start-high run at its cap. -/
def stuckHigh : State := booted (Level.low :: (List.replicate 199 Level.low ++ Level.high :: (List.replicate 80 Level.high ++ []))) []

theorem witness_PollAbortsOnALongStartRun :
    (stuckLow.irdec.phase = .idle ∧ readable stuckLow .ir = true
      ∧ stuckLow.env.line = Level.low :: (List.replicate stuckLow.cfg.startLowMax Level.low ++ [Level.low]))
    ∧ (stuckHigh.irdec.phase = .idle ∧ readable stuckHigh .ir = true ∧ 199 < stuckHigh.cfg.startLowMax
      ∧ stuckHigh.env.line
        = Level.low :: (List.replicate 199 Level.low ++ Level.high :: (List.replicate stuckHigh.cfg.startHighMax Level.high ++ []))) :=
  ⟨⟨rfl, rfl, rfl⟩, rfl, rfl, by decide, rfl⟩

def runsP1 : Nat → Nat × Nat := frameRuns 0 20 4 frameP1

/-- V9b with short start runs: bit 0's low run at its cap. -/
def stuckBit0 : State := booted (Level.low :: (runPair 0 0 ++ bitSamples runsP1 0 0 ++ (List.replicate 15 Level.low ++ []))) []

/-- V10g: bit 31's high run at its cap, after a low run one below its own. -/
def stuckBit31 : State :=
  booted (Level.low :: (runPair 0 0 ++ bitSamples runsP1 0 31
    ++ (List.replicate 14 Level.low ++ Level.high :: (List.replicate 40 Level.high ++ [])))) []

theorem witness_PollAbortsOnALongBitRun :
    (stuckBit0.irdec.phase = .idle ∧ readable stuckBit0 .ir = true ∧ isStart stuckBit0.cfg 0 0 = true
      ∧ stuckBit0.env.line
        = Level.low :: (runPair 0 0 ++ bitSamples runsP1 0 0 ++ (List.replicate stuckBit0.cfg.bitLowMax Level.low ++ [])))
    ∧ (stuckBit31.irdec.phase = .idle ∧ readable stuckBit31 .ir = true ∧ isStart stuckBit31.cfg 0 0 = true
      ∧ (∀ j, j < 31 → (runsP1 j).1 < stuckBit31.cfg.bitLowMax ∧ (runsP1 j).2 < stuckBit31.cfg.bitHighMax)
      ∧ 14 < stuckBit31.cfg.bitLowMax
      ∧ stuckBit31.env.line = Level.low :: (runPair 0 0 ++ bitSamples runsP1 0 31
        ++ (List.replicate 14 Level.low ++ Level.high :: (List.replicate stuckBit31.cfg.bitHighMax Level.high ++ [])))) :=
  ⟨⟨rfl, rfl, rfl, rfl⟩, rfl, rfl, rfl, by decide +kernel, by decide, rfl⟩

/-- V10a's counts at the threshold (9 is a 1, 8 is a 0), low runs one below their cap. -/
def runsAtThreshold : Nat → Nat × Nat := frameRuns 14 9 8 frameP1

/-- The frame of P1 on the line, every start run one below its cap. -/
def frameOnLine : State := booted (frameSamples 199 79 runsAtThreshold ++ []) []

/-- And payload bytes for each of the three endings (V2, V4b, V3). -/
theorem witness_PollDecodesEveryFrame :
    frameOnLine.irdec.phase = .idle ∧ readable frameOnLine .ir = true ∧ isStart frameOnLine.cfg 199 79 = true
    ∧ (∀ j, j < 32 → if frameP1.bit j then isBit1 frameOnLine.cfg (runsAtThreshold j).1 (runsAtThreshold j).2 = true
        else isBit0 frameOnLine.cfg (runsAtThreshold j).1 (runsAtThreshold j).2 = true)
    ∧ frameOnLine.env.line = frameSamples 199 79 runsAtThreshold ++ []
    ∧ (frameP1.d0 + frameP1.d1 = 0xFF ∧ frameP1.d2 + frameP1.d3 = 0xFF)
    ∧ (0x01#8 + 0xFF#8 ≠ 0xFF ∧ 0x45#8 + 0xBB#8 ≠ 0xFF) :=
  ⟨rfl, rfl, rfl, by decide +kernel, rfl, by decide, by decide⟩

theorem witness_PollChangesOnlyTheDecoder : readable (booted [] []) .ir = true ∧ readable midFrame .ir = true := by decide

theorem witness_PollSamplesAreBounded : (booted [] []).cfg.legal = true ∧ (booted [] []).irdec.phase = .idle
    ∧ readable (booted [] []) .ir = true := by decide

theorem witness_ActionForLooksUpTheTable : (booted [] []).cfg.legal = true
    ∧ ((0x5E, Action.numeric 3) ∈ (booted [] []).cfg.actionTable)
    ∧ (0xFF ∉ (booted [] []).cfg.actionTable.map Prod.fst) := by decide

/-- Both caps less 1 for START; BIT0 and BIT1 on the two sides of the threshold. -/
theorem witness_FirstSymbolIsTheStart :
    IsSymbol (booted [] []).cfg (.start 199 79) 199 79 ∧ 199 < (booted [] []).cfg.startLowMax
    ∧ 79 < (booted [] []).cfg.startHighMax ∧ IsSymbol (booted [] []).cfg (.bit0 14 8) 14 8
    ∧ IsSymbol (booted [] []).cfg (.bit1 14 9) 14 9 ∧ (booted [] []).irdec.phase = .idle
    ∧ readable (booted [] []) .ir = true := by decide

theorem witness_SymbolStoresItsBit :
    let s := decoding .bitLow 30 (booted [] [])
    IsSymbol s.cfg (.bit0 14 8) 14 8 ∧ IsSymbol s.cfg (.bit1 0 39) 0 39 ∧ IsSymbol s.cfg (.start 14 39) 14 39
    ∧ s.irdec.phase = .bitLow ∧ s.irdec.bitIdx.val < 31 ∧ readable s .ir = true ∧ 14 < s.cfg.bitLowMax
    ∧ 39 < s.cfg.bitHighMax := by decide

theorem witness_LastSymbolEndsTheFrame :
    let s := decoding .bitLow 31 (booted [] [])
    IsSymbol s.cfg (.bit0 14 8) 14 8 ∧ IsSymbol s.cfg (.bit1 0 39) 0 39 ∧ s.irdec.phase = .bitLow
    ∧ s.irdec.bitIdx.val = 31 ∧ readable s .ir = true ∧ 14 < s.cfg.bitLowMax ∧ 39 < s.cfg.bitHighMax := by decide

/-- START rows at a bit's caps; a start-low cap of 15 and a start-high cap of 9 that bit symbols reach. -/
theorem witness_SymbolAtTheCapAborts :
    let s := decoding .bitLow 31 (booted [] [])
    let u := { booted [] [] with cfg := { refParams with startLowMax := 14, startHighMax := 9 } }
    (IsSymbol s.cfg (.start 15 0) 15 0 ∧ IsSymbol s.cfg (.start 14 40) 14 40 ∧ readable s .ir = true
      ∧ s.irdec.phase = .bitLow ∧ s.cfg.bitLowMax ≤ 15 ∧ s.cfg.bitHighMax ≤ 40)
    ∧ (IsSymbol u.cfg (.bit0 14 0) 14 0 ∧ IsSymbol u.cfg (.bit1 13 9) 13 9 ∧ readable u .ir = true
      ∧ u.irdec.phase = .idle ∧ u.cfg.startLowMax ≤ 14 ∧ u.cfg.startHighMax ≤ 9) := by decide

theorem witness_NoSymbolAborts : readable (booted [] []) .ir = true ∧ (booted [] []).irdec.phase = .idle
    ∧ readable (decoding .bitLow 31 (booted [] [])) .ir = true
    ∧ (decoding .bitLow 31 (booted [] [])).irdec.phase = .bitLow := by decide

theorem witness_SymbolOutOfRangeIsRefused : readable (booted [] []) .ir = true
    ∧ ¬(200 < (booted [] []).cfg.startLowMax ∧ 0 < (booted [] []).cfg.startHighMax)
    ∧ ¬(0 < (booted [] []).cfg.bitLowMax ∧ 9 ≤ (booted [] []).cfg.bitThreshold ∧ 9 < (booted [] []).cfg.bitHighMax)
    ∧ ¬(0 < (booted [] []).cfg.bitLowMax ∧ (booted [] []).cfg.bitThreshold < 8 ∧ 8 < (booted [] []).cfg.bitHighMax) := by
  decide

/-- A frame that passes, and the two complements that do not. -/
theorem witness_NecFrameIsDecoded : (booted [] []).cfg.legal = true ∧ (booted [] []).irdec.phase = .idle
    ∧ readable (booted [] []) .ir = true ∧ (0xFF#8 = ~~~0x00#8 ∧ 0xBA#8 = ~~~0x45#8) ∧ 0xFE#8 ≠ ~~~0x00#8
    ∧ 0xBB#8 ≠ ~~~0x45#8 := by decide

theorem witness_SymbolBySymbolIsThePoll :
    (booted [] []).irdec.phase = .idle ∧ readable (booted [] []) .ir = true ∧ isStart (booted [] []).cfg 199 79 = true
    ∧ ∀ j, j < 32 → (frameRuns 14 39 8 frameP1 j).1 < (booted [] []).cfg.bitLowMax
        ∧ (frameRuns 14 39 8 frameP1 j).2 < (booted [] []).cfg.bitHighMax := by decide +kernel

/-- An attempt that ends with an action, one that ends without, and one on a pin that is no input. -/
theorem witness_OperationsWaitForThePoll :
    (midFrame.irdec.phase ≠ .idle ∧ midFrame.PinsReady
      ∧ (finishAttempt (readNow midFrame)).result = .polled (.decoded .powerToggle))
    ∧ (let s := decoding .startLow 0 (booted (List.replicate 200 Level.low) [])
      s.irdec.phase ≠ .idle ∧ s.PinsReady
      ∧ (finishAttempt (readNow s)).result = .polled (.aborted .startLowTimeout))
    ∧ (decoding .check 31 unbooted).irdec.phase ≠ .idle ∧ readable (decoding .check 31 unbooted) .ir = false
    ∧ runsInsidePoll .volumeUp = false ∧ runsInsidePoll (.write .ir .low) = false ∧ runsInsidePoll .boot = false := by
  decide +kernel

theorem witness_SetThrottleStoresTheDuty : (booted [] []).irdec.phase = .idle := by decide

theorem witness_ServiceAtZeroDutyCoasts : (booted [] []).irdec.phase = .idle ∧ writable (booted [] []) .motIn1 = true
    ∧ writable (booted [] []) .motIn2 = true ∧ (booted [] []).motor.dutyUs = 0 := by decide

theorem witness_ServiceAtFullDutyDrives :
    let s := withDuty 2500 .reverse .driving (booted [] [])
    s.irdec.phase = .idle ∧ writable s .motIn1 = true ∧ writable s .motIn2 = true ∧ s.motor.dutyUs ≠ 0
    ∧ s.motor.dutyUs ≥ s.cfg.motorPeriodUs := by decide

/-- The least and the greatest partial duty, one in each phase. -/
theorem witness_ServiceAtPartialDutyAlternates :
    let s := withDuty 1 .forward .coasting (booted [] [])
    let u := withDuty 2499 .reverse .driving (booted [] [])
    (s.irdec.phase = .idle ∧ writable s .motIn1 = true ∧ writable s .motIn2 = true ∧ 0 < s.motor.dutyUs
      ∧ s.motor.dutyUs < s.cfg.motorPeriodUs ∧ s.motor.phase = .coasting)
    ∧ (u.irdec.phase = .idle ∧ writable u .motIn1 = true ∧ writable u .motIn2 = true ∧ 0 < u.motor.dutyUs
      ∧ u.motor.dutyUs < u.cfg.motorPeriodUs ∧ u.motor.phase = .driving) := by decide

theorem witness_ServiceWritesBothPinsInOrder :
    let u := { booted [] [] with cfg := { refParams with motorWriteOrder := .in2First } }
    ((booted [] []).irdec.phase = .idle ∧ writable (booted [] []) .motIn1 = true
      ∧ writable (booted [] []) .motIn2 = true ∧ (booted [] []).cfg.motorWriteOrder = .in1First)
    ∧ (u.irdec.phase = .idle ∧ writable u .motIn1 = true ∧ writable u .motIn2 = true
      ∧ u.cfg.motorWriteOrder = .in2First) := by decide

theorem witness_DriveAndCoastFillOnePeriod :
    let s := withDuty 2499 .forward .driving (booted [] [])
    s.irdec.phase = .idle ∧ writable s .motIn1 = true ∧ writable s .motIn2 = true ∧ 0 < s.motor.dutyUs
    ∧ s.motor.dutyUs < s.cfg.motorPeriodUs := by decide

theorem witness_MotorCodesStandOnThePins : (booted [] []).irdec.phase = .idle
    ∧ writable (booted [] []) .motIn1 = true ∧ writable (booted [] []) .motIn2 = true := by decide

/-- One instance in each pulse phase. -/
theorem witness_UpdateTracksAndEmits :
    let s := (booted [] []).setServoR ⟨40, .highPhase⟩
    s.irdec.phase = .idle ∧ writable s (servoPin .left) = true ∧ writable s (servoPin .right) = true
    ∧ (s.servo .left).pulsePhase = .lowPhase ∧ (s.servo .right).pulsePhase = .highPhase := by decide

theorem witness_UpdateSlewsWithinItsBounds :
    let s := (booted [] []).setServoR ⟨-40, .highPhase⟩
    s.irdec.phase = .idle ∧ writable s (servoPin .right) = true ∧ (s.servo .right).positionDeg.natAbs ≤ s.cfg.hardLimitDeg
    := by decide

theorem witness_PulseWidthIsMonotone : refParams.legal = true
    ∧ { refParams with servoMinUs := 2400 }.legal = true := by decide

theorem witness_SurfacesDeflectOppositely :
    let s := ((booted [] []).setServoR ⟨-40, .lowPhase⟩).setServoL ⟨40, .highPhase⟩
    s.irdec.phase = .idle ∧ writable s .srvL = true ∧ writable s .srvR = true
    ∧ s.servoR.positionDeg = -s.servoL.positionDeg := by decide

/-- T-S4 calls 11 and 12. -/
theorem witness_ServoFrameIsConstantAtRest :
    let s := (booted [] []).setServoL ⟨30, .lowPhase⟩
    s.cfg.legal = true ∧ s.irdec.phase = .idle ∧ writable s (servoPin .left) = true
    ∧ (s.servo .left).positionDeg = targetDeg s.cfg 100 true := by decide

/-- A pin left LOW and one left HIGH by the last `update`. -/
theorem witness_ServoPulseIsHighThenLow :
    let s := (booted [] []).setServoR ⟨40, .highPhase⟩
    s.cfg.legal = true ∧ s.irdec.phase = .idle ∧ writable s (servoPin .left) = true ∧ writable s (servoPin .right) = true
    ∧ (s.servo .left).pulsePhase = .lowPhase ∧ (s.servo .right).pulsePhase = .highPhase := by decide

theorem witness_VolumeStepsTheThrottle : (booted [] []).irdec.phase = .idle := by decide

theorem witness_PowerToggleArmsOrZeroes :
    ((booted [] []).irdec.phase = .idle ∧ (booted [] []).sched.engineEnabled = false)
    ∧ ((withCommand 0 20 true (booted [] [])).irdec.phase = .idle
      ∧ (withCommand 0 20 true (booted [] [])).sched.engineEnabled = true) := by decide

theorem witness_RollStepsTheCommand : (withCommand 95 0 false (booted [] [])).irdec.phase = .idle := by decide

theorem witness_OtherActionsAreNoOps : (booted [] []).irdec.phase = .idle
    ∧ (Action.raw 0xFF = .noseUp ∨ Action.raw 0xFF = .noseDown ∨ Action.raw 0xFF = .select
      ∨ (∃ d, Action.raw 0xFF = .numeric d) ∨ (∃ b, Action.raw 0xFF = .raw b)) :=
  ⟨by decide, .inr (.inr (.inr (.inr ⟨0xFF, rfl⟩)))⟩

theorem witness_ApplyActionIsTheActionsRow : (booted [] []).irdec.phase = .idle := by decide

/-- I2: the motor's deadline equal to the clock reading, the servos' one after it. -/
def onlyMotorDue : State := withDeadlines 1000001 1000001 1000000 (booted [.high] [0, 0])

/-- All three deadlines equal to the clock reading, one servo in each pulse phase. -/
def allDue : State := (withDuty 1000 .forward .driving (booted [.high] [0, 0])).setServoR ⟨30, .highPhase⟩

/-- I3: the deadlines so far back that the advanced ones are still behind the clock, and there is no sleep. -/
def allLate : State := withDeadlines 0 0 0 (booted [.high] [0])

theorem witness_IterateAdvancesTheDueDeadlines :
    (onlyMotorDue.irdec.phase = .idle ∧ onlyMotorDue.PinsReady
      ∧ onlyMotorDue.env.clock + 0 < onlyMotorDue.sched.nextServoL
      ∧ onlyMotorDue.env.clock + 0 < onlyMotorDue.sched.nextServoR
      ∧ onlyMotorDue.sched.nextMotor ≤ onlyMotorDue.env.clock + 0)
    ∧ (allDue.irdec.phase = .idle ∧ allDue.PinsReady ∧ allDue.sched.nextServoL ≤ allDue.env.clock + 0
      ∧ allDue.sched.nextServoR ≤ allDue.env.clock + 0 ∧ allDue.sched.nextMotor ≤ allDue.env.clock + 0
      ∧ allDue.servoL.pulsePhase = .lowPhase ∧ allDue.servoR.pulsePhase = .highPhase)
    ∧ (allLate.irdec.phase = .idle ∧ allLate.PinsReady ∧ (reached (exec .iterate allLate)).map
        (fun t => decide (soonest t.sched ≤ t.sched.now)) = some true)
    ∧ (midFrame.irdec.phase ≠ .idle ∧ midFrame.PinsReady) := by decide

/-- I1, each deadline one after the clock reading, the throttle at either end. -/
theorem witness_IterateWithNothingDueOnlySleeps :
    let s := withCommand 0 100 true (withDeadlines 1000001 1000001 1000001 (booted [.high] [0, 0]))
    s.irdec.phase = .idle ∧ s.PinsReady ∧ s.env.line = .high :: [] ∧ s.env.delays = 0 :: 0 :: []
    ∧ s.env.clock + 0 < s.sched.nextServoL ∧ s.env.clock + 0 < s.sched.nextServoR
    ∧ s.env.clock + 0 < s.sched.nextMotor ∧ 0 ≤ s.sched.throttleCmd ∧ s.sched.throttleCmd ≤ 100 := by decide

/-- An iteration whose poll returns nothing, and one whose poll returns `PowerToggle`. -/
theorem witness_IterateAppliesOneActionAndGates :
    (∃ s1 s2, (booted [.high] [0]).InRange ∧ (booted [.high] [0]).irdec.phase = .idle ∧ (booted [.high] [0]).PinsReady
      ∧ exec .now (booted [.high] [0]) = .next s1 ∧ exec .poll s1 = .next s2 ∧ s2.result = .polled .noSignal)
    ∧ (let s := booted (frameSamples 0 0 (frameRuns 0 9 0 frameP1)) []
      s.InRange ∧ s.irdec.phase = .idle ∧ s.PinsReady ∧ ((reached (exec .now s)).bind fun s1 => reached (exec .poll s1)).map
        (fun s2 => s2.result) = some (.polled (.decoded .powerToggle))) :=
  ⟨⟨_, _, by decide, by decide, by decide, rfl, rfl, by decide⟩, by decide +kernel⟩

theorem witness_BootLeavesTheResetValues : unbooted.run = .powerOn ∧ unbooted.irdec.phase = .idle
    ∧ (∀ p, unbooted.pins.mode p = none) ∧ (booted [] []).run = .running := by
  refine ⟨by decide, by decide, ?_, by decide⟩
  intro p
  cases p with
  | ir => rfl
  | out o => cases o <;> rfl

theorem witness_StepKeepsRegistersInRange :
    let s := withCommand (-100) 100 true (booted [.high] [0, 0])
    s.InRange ∧ ∃ t, step s = .next t := ⟨by decide, ⟨_, rfl⟩⟩

/-- Between polls, and inside a frame. -/
theorem witness_SchedulerNeverStops : (booted [] []).Settled ∧ midFrame.Settled := by decide +kernel

theorem witness_ClockAndTraceOnlyGrow : ∃ t, exec .boot unbooted = .next t := ⟨_, rfl⟩

theorem witness_DeadlinesNeverFall : (booted [.high] [0, 0]).run = .running ∧ ∃ t, step (booted [.high] [0, 0]) = .next t :=
  ⟨by decide, ⟨_, rfl⟩⟩

/-- Each of the three registers does change somewhere. -/
theorem witness_OnlyActionsChangeTheCommand :
    (∃ t, exec .rollLeft (booted [] []) = .next t ∧ t.sched.rollCmd ≠ (booted [] []).sched.rollCmd)
    ∧ (∃ t, exec .volumeUp (booted [] []) = .next t ∧ t.sched.throttleCmd ≠ (booted [] []).sched.throttleCmd)
    ∧ (∃ t, exec .powerToggle (booted [] []) = .next t
      ∧ t.sched.engineEnabled ≠ (booted [] []).sched.engineEnabled) :=
  ⟨⟨_, rfl, by decide⟩, ⟨_, rfl, by decide⟩, ⟨_, rfl, by decide⟩⟩

/-- Each of the six pieces of state does change somewhere. -/
theorem witness_UnitsHaveTheirOwnWriters :
    (∃ t, exec (.setThrottle 1) (booted [] []) = .next t ∧ t.motor ≠ (booted [] []).motor)
    ∧ (∃ t, exec (.update .right 0 false) (booted [] []) = .next t
      ∧ t.servo .right ≠ (booted [] []).servo .right)
    ∧ (∃ t, exec (.measureRun .low 200) (booted [.low, .high] [0]) = .next t
      ∧ t.irdec ≠ (booted [.low, .high] [0]).irdec)
    ∧ (∃ t, exec .motorForward (booted [] []) = .next t ∧ t.pins.motIn1 ≠ (booted [] []).pins.motIn1)
    ∧ (∃ t, exec (.update .left 0 true) (booted [] []) = .next t
      ∧ t.pins.cell (servoPin .left) ≠ (booted [] []).pins.cell (servoPin .left))
    ∧ (∃ t, exec (.configure .ir (.input .up)) unbooted = .next t ∧ t.pins.irMode ≠ unbooted.pins.irMode) :=
  ⟨⟨_, rfl, by decide⟩, ⟨_, rfl, by decide⟩, ⟨_, rfl, by decide⟩, ⟨_, rfl, by decide⟩, ⟨_, rfl, by decide⟩,
    ⟨_, rfl, by decide⟩⟩

end Sys2Proof.Tests
end

/-! # Proofs of the family 00_scope: reset, the record, and operations during a decode attempt -/

namespace Sys2Proof.Machine

/-! ## Reset (R8, R46) -/

/-- Whatever the open table is, the table at reset is a legal one (R8, R89). -/
theorem legalActionTable_actionTable : legalActionTable Config.actionTable = true := by
  unfold Config.actionTable
  split
  · assumption
  · decide

/-- The parameters at reset meet R8 for every value of the open ones. -/
theorem legal_params : Config.params.legal = true := by
  simp only [Params.legal, Bool.and_eq_true, decide_eq_true_eq]
  simp only [Config.params, legalActionTable_actionTable, and_true]
  omega

/-- Under legal parameters the state after boot is in range: every register with a range stands at 0 (R46). -/
theorem afterBoot_inRange (c : Params) (t : Nat) (hc : c.legal = true) : (State.afterBoot c t).InRange := by
  refine ⟨hc, Nat.zero_le _, ?_, ?_, ?_, ?_⟩ <;> simp [State.afterBoot, Servo.reset, Sched.reset]

/-- The pins after boot are in the modes that `iterate` uses (R252). -/
theorem afterBoot_pinsReady (c : Params) (t : Nat) : (State.afterBoot c t).PinsReady := ⟨rfl, rfl, rfl, rfl, rfl⟩

/-- Under legal parameters the state after boot is settled: the motor coasts, both servo phases are low, and every output
is low (R46, R252). -/
theorem afterBoot_settled (c : Params) (t : Nat) (hc : c.legal = true) : (State.afterBoot c t).Settled :=
  ⟨afterBoot_inRange c t hc, afterBoot_pinsReady c t, rfl, rfl, rfl, rfl, rfl, rfl, rfl⟩

/-! ## Every operation leads to a later state (R14, R40, R68) -/

theorem Later.setResult {s t : State} (h : Later s t) (r : Result) : Later s (t.setResult r) :=
  ⟨h.cfg, h.program, h.clock, h.trace⟩

theorem finishAttempt_later (s : State) : Later s (finishAttempt s) :=
  let ⟨_, h⟩ := finishAttempt_spec s
  h.later

theorem setThrottle_later (p : Int) (s : State) : Later s (setThrottle p s) := ⟨rfl, rfl, Nat.le_refl _, [], rfl⟩

theorem applyAction_later (a : Action) (s : State) : Later s (applyAction a s) := by
  rw [applyAction_spec]
  exact ⟨rfl, rfl, Nat.le_refl _, [], rfl⟩

/-- The register part of boot makes one transaction, the clock reading (R252). -/
theorem bootRegisters_later (s : State) : Later s (bootRegisters s) := by
  obtain ⟨hcfg, hprogram, hclock, htrace⟩ := (clockRead_spec s).1
  exact ⟨hcfg, hprogram, hclock, htrace⟩

/-- Whatever an operation does, it does it later: the clock does not run back, the parameters and the waiting words stay, and
the record only grows (R14, R40, R68, R72). -/
theorem exec_later (i : Instr) (s t : State) (h : exec i s = .next t) : Later s t := by
  have hfin := finishAttempt_later s
  cases exec_effect i s t h with
  | sampled later => exact later
  | configured p m _ eq => rw [eq]; exact (hfin.trans (pinConfigure_spec p m _).1).setResult _
  | wrote o v _ eq => rw [eq]; exact (hfin.trans (pinWrite_spec o v _).1).setResult _
  | coded code _ eq => rw [eq]; exact (hfin.trans (writePins_spec code _).1).setResult _
  | throttled p _ eq => rw [eq]; exact (hfin.trans (setThrottle_later p _)).setResult _
  | serviced _ _ r eq => rw [eq]; exact (hfin.trans (serviceMotor_spec _).1).setResult _
  | updated x c b _ r eq => rw [eq]; exact (hfin.trans (updateServo_spec x c b _).1).setResult _
  | pulsed x _ r eq => rw [eq]; exact (hfin.trans (emitPulse_spec x _).1).setResult _
  | applied a _ eq => rw [eq]; exact (hfin.trans (applyAction_later a _)).setResult _
  | iterated _ _ eq => rw [eq]; exact (iterateState_spec s).1.setResult _
  | booted _ _ eq => rw [eq]; exact ((hfin.trans (bootPins_spec _).1).trans (bootRegisters_later _)).setResult _

/-! ## An operation given during a decode attempt follows it (R13, R141) -/

theorem finishAttempt_run (s : State) : (finishAttempt s).run = s.run :=
  let ⟨_, h⟩ := finishAttempt_spec s
  h.units.run

theorem afterAttempt_of_readable (s : State) (k : State → Answer) (hr : readable s .ir = true) :
    afterAttempt s k = k (finishAttempt s) := by
  unfold afterAttempt
  split
  · next h => rw [finishAttempt_idle s h]
  · rw [needInput, if_pos hr]

theorem afterAttempt_of_unreadable (s : State) (k : State → Answer) (hp : s.irdec.phase ≠ .idle)
    (hr : readable s .ir = false) : afterAttempt s k = .refused (.pinNotInput .ir) := by
  simp [afterAttempt, needInput, hp, hr]

/-- What waits for the attempt can as well be started where the attempt has ended, since nothing is in progress there. -/
theorem eq_afterAttempt_self {f k : State → Answer} (h : ∀ s, f s = afterAttempt s k) (s : State) :
    f s = afterAttempt s f := by
  by_cases hp : s.irdec.phase = .idle
  · rw [afterAttempt, if_pos hp]
  · simp only [h, afterAttempt, if_neg hp, if_pos (finishAttempt_ends s).1]

theorem exec_boot_of_running (s : State) (h : s.run = .running) : exec .boot s = .refused .secondBoot := by
  simp only [exec, execBoot, h]

theorem exec_boot_of_powerOn (s : State) (h : s.run = .powerOn) : exec .boot s = afterAttempt s (exec .boot) := by
  by_cases hp : s.irdec.phase = .idle
  · rw [afterAttempt, if_pos hp]
  · have hrun : (finishAttempt s).run = .powerOn := (finishAttempt_run s).trans h
    simp only [exec, execBoot, h, hrun, afterAttempt, if_neg hp, if_pos (finishAttempt_ends s).1]

/-- Every row that is no part of a `poll` waits for the attempt in progress, but for the write of `PIN_IR`, which is refused
at once, and a second `boot` (R13, R141, U3, U22). -/
theorem exec_waits (i : Instr) (s : State) (h : runsInsidePoll i = false) :
    exec i s = afterAttempt s (exec i) ∨ (∃ v, i = .write .ir v) ∨ (i = .boot ∧ s.run = .running) := by
  cases i with
  | read | sleepFor | measureRun | actionFor | start | bit0 | bit1 | noSymbol | poll | iterate => cases h
  | boot =>
    cases hs : s.run with
    | running => exact .inr (.inr ⟨rfl, rfl⟩)
    | powerOn => exact .inl (exec_boot_of_powerOn s hs)
  | write p v =>
    cases p with
    | ir => exact .inr (.inl ⟨v, rfl⟩)
    | out o =>
      left
      apply eq_afterAttempt_self
      intro s
      simp only [exec, execWrite]
      rfl
  | configure | now | sleepUntil | setThrottle | service | update | applyAction | necFrame | noseUp | noseDown | rollLeft
  | rollRight | volumeUp | volumeDown | powerToggle | select | numeric | raw | motorForward | motorReverse | motorCoast
  | motorUndefined | servoPulse =>
    left
    apply eq_afterAttempt_self
    intro s
    simp only [exec, execConfigure, execNow, execSleepUntil, execSetThrottle, execService, execUpdate, execApplyAction,
      execNecFrame, execNoseUp, execNoseDown, execRollLeft, execRollRight, execVolumeUp, execVolumeDown, execPowerToggle,
      execSelect, execNumeric, execRaw, execMotorForward, execMotorReverse, execMotorCoast, execMotorUndefined, putCode,
      execServoPulse]
    rfl

/-- An operation that is no part of a `poll` starts in the state the attempt ends in (R13, U19). -/
theorem exec_finishAttempt (i : Instr) (s : State) (h : runsInsidePoll i = false) (hr : readable s .ir = true) :
    exec i s = exec i (finishAttempt s) := by
  rcases exec_waits i s h with hwaits | ⟨v, rfl⟩ | ⟨rfl, hs⟩
  · rw [hwaits, afterAttempt_of_readable s _ hr]
  · rfl
  · rw [exec_boot_of_running s hs, exec_boot_of_running _ ((finishAttempt_run s).trans hs)]

/-- During an attempt on a pin that is no input nothing that waits for it, or takes it over, can run (U3). -/
theorem exec_of_unreadable (i : Instr) (s : State) (hp : s.irdec.phase ≠ .idle) (hr : readable s .ir = false)
    (hi : runsInsidePoll i = false ∨ i = .poll ∨ i = .iterate) :
    exec i s = .refused (.pinNotInput .ir)
    ∨ (∃ v, i = .write .ir v ∧ exec i s = .refused (.pinNotOutput .ir))
    ∨ (i = .boot ∧ s.run = .running ∧ exec i s = .refused .secondBoot) := by
  rcases hi with h | rfl | rfl
  · rcases exec_waits i s h with hwaits | ⟨v, rfl⟩ | ⟨rfl, hs⟩
    · exact .inl (hwaits.trans (afterAttempt_of_unreadable s _ hp hr))
    · exact .inr (.inl ⟨v, rfl, rfl⟩)
    · exact .inr (.inr ⟨rfl, hs, exec_boot_of_running s hs⟩)
  · exact .inl (by simp [exec, execPoll, needInput, hr])
  · exact .inl (by simp [exec, execIterate, needPins, needInput, hr])

theorem runPoll_of_attempt (s : State) (hp : s.irdec.phase ≠ .idle) : runPoll s = finishAttempt s := by
  rw [runPoll, if_neg hp]

/-- A `poll` given during an attempt is the rest of it (R141). -/
theorem exec_poll_of_attempt (s : State) (hp : s.irdec.phase ≠ .idle) (hr : readable s .ir = true) :
    exec .poll s = .next (finishAttempt s) := by
  simp [exec, execPoll, needInput, hr, runPoll_of_attempt s hp]

/-! ## The command state through an iteration (R39, R192) -/

/-- `t` has the command state of `s`: the three registers that only an action changes (R39). -/
structure SameCommand (s t : State) : Prop where
  roll : t.sched.rollCmd = s.sched.rollCmd
  throttle : t.sched.throttleCmd = s.sched.throttleCmd
  engine : t.sched.engineEnabled = s.sched.engineEnabled

theorem SameCommand.refl (s : State) : SameCommand s s := ⟨rfl, rfl, rfl⟩

theorem SameCommand.trans {s t u : State} (h : SameCommand s t) (k : SameCommand t u) : SameCommand s u :=
  ⟨k.roll.trans h.roll, k.throttle.trans h.throttle, k.engine.trans h.engine⟩

theorem SameCommand.of_sched_eq {s t : State} (h : t.sched = s.sched) : SameCommand s t := by
  constructor <;> rw [h]

theorem readNow_sameCommand (s : State) : SameCommand s (readNow s) := by
  obtain ⟨-, -, -, -, -, -, -, hsched, -⟩ := readNow_spec s
  constructor <;> rw [hsched]

/-- An action's effect on the command state depends on the parameters and the command state only (R193). -/
theorem applyAction_sameCommand (a : Action) {s t : State} (hcfg : t.cfg = s.cfg) (h : SameCommand s t) :
    SameCommand (applyAction a s) (applyAction a t) := by
  obtain ⟨hroll, hthrottle, hengine⟩ := h
  cases a <;> constructor <;>
    simp [applyAction, rollLeft, rollRight, volumeUp, volumeDown, powerToggle, setRollCmd, setThrottleCmd, *]

/-- A dispatch keeps the command state if it does so when its deadline `d` is due at `now`; before it, it does nothing
(R199). -/
theorem SameCommand.of_dispatch {s t : State} {now d : Nat} (early : now < d → t = s) (due : d ≤ now → SameCommand s t) :
    SameCommand s t := by
  rcases Nat.lt_or_ge now d with h | h
  · rw [early h]
    exact .refl s
  · exact due h

theorem dispatchServoL_sameCommand (s : State) : SameCommand s (dispatchServoL s) := by
  obtain ⟨-, -, -, -, -, -, early, due⟩ := dispatchServoL_spec s
  refine .of_dispatch early fun h => ?_
  obtain ⟨-, hsched, -⟩ := due h
  constructor <;> rw [hsched]

theorem dispatchServoR_sameCommand (s : State) : SameCommand s (dispatchServoR s) := by
  obtain ⟨-, -, -, -, -, -, early, due⟩ := dispatchServoR_spec s
  refine .of_dispatch early fun h => ?_
  obtain ⟨-, hsched, -⟩ := due h
  constructor <;> rw [hsched]

theorem dispatchMotor_sameCommand (s : State) : SameCommand s (dispatchMotor s) := by
  obtain ⟨-, -, -, -, -, -, early, due⟩ := dispatchMotor_spec s
  refine .of_dispatch early fun h => ?_
  obtain ⟨-, hsched, -⟩ := due h
  constructor <;> rw [hsched]

/-- The steps after the `poll` leave the command state alone (R198 to R201). -/
theorem iterateState_sameCommand (s : State) : SameCommand (pollAndApply (readNow s)) (iterateState s) :=
  have gate : SameCommand (pollAndApply (readNow s)) (gateThrottle (pollAndApply (readNow s))) := .of_sched_eq rfl
  (((gate.trans (dispatchServoL_sameCommand _)).trans (dispatchServoR_sameCommand _)).trans
    (dispatchMotor_sameCommand _)).trans (.of_sched_eq (sleepToSoonest_spec _).2.1.sched)

/-- An iteration whose `poll` decodes an action applies it to the command state it began with (R192). -/
theorem iterateState_command_of_decoded (s : State) (a : Action)
    (h : (runPoll (readNow s)).result = .polled (.decoded a)) : SameCommand (applyAction a s) (iterateState s) := by
  obtain ⟨-, -, -, -, -, -, -, -, applied, -, -⟩ := pollAndApply_spec (readNow s)
  exact ((applyAction_sameCommand a (readNow_spec s).1.cfg (readNow_sameCommand s)).trans
    (.of_sched_eq (applied a h))).trans (iterateState_sameCommand s)

/-- An iteration whose `poll` decodes no action keeps the command state (R192). -/
theorem iterateState_command_of_not_decoded (s : State)
    (h : ∀ a, (runPoll (readNow s)).result ≠ .polled (.decoded a)) : SameCommand s (iterateState s) := by
  obtain ⟨-, -, -, -, -, -, -, -, -, kept, -⟩ := pollAndApply_spec (readNow s)
  exact ((readNow_sameCommand s).trans (.of_sched_eq (kept h))).trans (iterateState_sameCommand s)

end Sys2Proof.Machine

section
open Sys2Proof Sys2Proof.Machine

/-- Settles O54: legal parameters make every state after boot settled, and those of reset are legal. -/
theorem resetIsSettled : Obligations.ResetIsSettled :=
  ⟨afterBoot_settled Config.params Config.freeBootTime legal_params, rfl⟩

/-- Settles O57, from the one inversion lemma of `exec`. -/
theorem clockAndTraceOnlyGrow : Obligations.ClockAndTraceOnlyGrow := by
  intro i s t h
  obtain ⟨hcfg, -, hclock, htrace⟩ := exec_later i s t h
  exact ⟨hcfg, hclock, htrace⟩

/-- Settles O30: the attempt ends with no unit but IRDEC changed, a waiting operation starts where it ends, and the `poll` of
an iteration given meanwhile is the rest of it. -/
theorem operationsWaitForThePoll : Obligations.OperationsWaitForThePoll := by
  refine ⟨fun s hp hr => ⟨?_, fun i hi => exec_finishAttempt i s hi hr, exec_poll_of_attempt s hp hr, fun hpins => ?_⟩,
    fun s i hp hr hi => exec_of_unreadable i s hp hr hi⟩
  · obtain ⟨n, hd⟩ := finishAttempt_spec s
    obtain ⟨hidle, ends⟩ := finishAttempt_ends s
    obtain ⟨o, ho⟩ := ends hp
    obtain ⟨new, htrace, hnew⟩ := hd.fresh
    exact ⟨o, new, hidle, ho, hd.later.clock, htrace, hnew, hd.frame⟩
  · have hpoll : runPoll (readNow s) = finishAttempt (readNow s) :=
      runPoll_of_attempt _ (by rwa [(readNow_spec s).2.1])
    obtain ⟨-, hidle, -⟩ := iterateState_spec s
    have decoded := iterateState_command_of_decoded s
    have kept := iterateState_command_of_not_decoded s
    rw [hpoll] at decoded kept
    refine ⟨_, exec_iterate s hpins, ?_⟩
    rw [State.setResult_irdec, State.setResult_sched]
    exact ⟨hidle, fun a ha => ⟨(decoded a ha).roll, (decoded a ha).throttle, (decoded a ha).engine⟩,
      fun hnone => ⟨(kept hnone).roll, (kept hnone).throttle, (kept hnone).engine⟩⟩

end

/-! # Proofs of the family 10_state: the registers' ranges, their writers, and the boundary, decoder and boot operations -/

namespace Sys2Proof.Machine

/-! ## A step is an operation, in the state less the waiting word it consumed -/

theorem step_exec {s t : State} (h : step s = .next t) : ∃ i rest, exec i (s.setProgram rest) = .next t := by
  unfold step at h
  cases hf : fetch s with
  | given i rest => exact ⟨i, rest, by simpa only [hf] using h⟩
  | own i =>
    simp only [hf] at h
    exact ⟨i, s.program, h⟩
  | bad e => simp only [hf, reduceCtorEq] at h

/-! ## What a decode attempt in progress leaves as it was (R130, R141) -/

theorem finishAttempt_units (s : State) : SameUnits s (finishAttempt s) :=
  let ⟨_, h⟩ := finishAttempt_spec s
  h.units

@[simp] theorem finishAttempt_motor (s : State) : (finishAttempt s).motor = s.motor := (finishAttempt_units s).motor

@[simp] theorem finishAttempt_sched (s : State) : (finishAttempt s).sched = s.sched := (finishAttempt_units s).sched

@[simp] theorem finishAttempt_pins (s : State) : (finishAttempt s).pins = s.pins := (finishAttempt_units s).pins

/-! ## The registers outside IRDEC, and the operations that write them -/

/-- `t` has the registers of `s` outside IRDEC, `run` among them. -/
structure SameRegisters (s t : State) : Prop where
  run : t.run = s.run
  motor : t.motor = s.motor
  servo : ∀ x, t.servo x = s.servo x
  sched : t.sched = s.sched

theorem SameRegisters.trans {s t u : State} (h : SameRegisters s t) (k : SameRegisters t u) : SameRegisters s u :=
  ⟨k.run.trans h.run, k.motor.trans h.motor, fun x => (k.servo x).trans (h.servo x), k.sched.trans h.sched⟩

theorem SameRegisters.setResult {s t : State} (h : SameRegisters s t) (r : Result) : SameRegisters s (t.setResult r) :=
  ⟨h.run, h.motor, h.servo, h.sched⟩

/-- The two servos, side by side. -/
theorem servo_eq_of_sides {s t : State} (hl : t.servoL = s.servoL) (hr : t.servoR = s.servoR) (x : Side) :
    t.servo x = s.servo x := by
  cases x with
  | left => exact hl
  | right => exact hr

theorem SameUnits.sameRegisters {s t : State} (h : SameUnits s t) : SameRegisters s t :=
  ⟨h.run, h.motor, servo_eq_of_sides h.servoL h.servoR, h.sched⟩

theorem finishAttempt_sameRegisters (s : State) : SameRegisters s (finishAttempt s) :=
  (finishAttempt_units s).sameRegisters

theorem pinConfigure_sameRegisters (p : Pin) (m : PinMode) (s : State) : SameRegisters s (pinConfigure p m s) :=
  let ⟨_, _, hmotor, hl, hr, hsched, hrun, _⟩ := pinConfigure_spec p m s
  ⟨hrun, hmotor, servo_eq_of_sides hl hr, hsched⟩

theorem pinWrite_sameRegisters (o : OutPin) (v : Level) (s : State) : SameRegisters s (pinWrite o v s) :=
  let ⟨_, _, _, hmotor, hl, hr, hsched, hrun, _⟩ := pinWrite_spec o v s
  ⟨hrun, hmotor, servo_eq_of_sides hl hr, hsched⟩

theorem writePins_sameRegisters (code : Level × Level) (s : State) : SameRegisters s (writePins code s) :=
  let ⟨_, _, _, hmotor, hl, hr, hsched, hrun, _⟩ := writePins_spec code s
  ⟨hrun, hmotor, servo_eq_of_sides hl hr, hsched⟩

theorem emitPulse_sameRegisters (x : Side) (s : State) : SameRegisters s (emitPulse x s) :=
  let ⟨_, _, hmotor, hl, hr, hsched, hrun, _⟩ := emitPulse_spec x s
  ⟨hrun, hmotor, servo_eq_of_sides hl hr, hsched⟩

/-- What an operation that answers `next t` in state `s` has done to the registers outside IRDEC: nothing, or what one of
their writers does in the state that an attempt in progress ends in. -/
inductive RegisterEffect (i : Instr) (s t : State) : Prop
  | kept (same : SameRegisters s t)
  | throttled (p : Int) (row : i = .setThrottle p) (eq : t = (setThrottle p (finishAttempt s)).setResult .nothing)
  | serviced (n : Nat) (row : i = .service n) (r : Result) (eq : t = (serviceMotor (finishAttempt s)).2.setResult r)
  | updated (x : Side) (c : Int) (b : Bool) (row : i = .update x c b) (r : Result)
      (eq : t = (updateServo x c b (finishAttempt s)).2.setResult r)
  | applied (a : Action) (row : i = .applyAction a ∨ i = a.toInstr)
      (eq : t = (applyAction a (finishAttempt s)).setResult .nothing)
  | iterated (row : i = .iterate) (eq : t = (iterateState s).setResult .nothing)
  | booted (row : i = .boot) (run : s.run = .powerOn)
      (eq : t = (bootRegisters (bootPins (finishAttempt s))).setResult .nothing)

/-- Reads, clock readings, sleeps, decode attempts and whatever only drives pins keep the registers outside IRDEC. -/
theorem exec_registerEffect {i : Instr} {s t : State} (h : exec i s = .next t) : RegisterEffect i s t := by
  have hfin := finishAttempt_sameRegisters s
  cases exec_effect i s t h with
  | sampled _ units => exact .kept units.sameRegisters
  | configured p m _ eq => rw [eq]; exact .kept ((hfin.trans (pinConfigure_sameRegisters p m _)).setResult _)
  | wrote o v _ eq => rw [eq]; exact .kept ((hfin.trans (pinWrite_sameRegisters o v _)).setResult _)
  | coded code _ eq => rw [eq]; exact .kept ((hfin.trans (writePins_sameRegisters code _)).setResult _)
  | pulsed x _ r eq => rw [eq]; exact .kept ((hfin.trans (emitPulse_sameRegisters x _)).setResult _)
  | throttled p row eq => exact .throttled p row eq
  | serviced n row r eq => exact .serviced n row r eq
  | updated x c b row r eq => exact .updated x c b row r eq
  | applied a row eq => exact .applied a row eq
  | iterated row _ eq => exact .iterated row eq
  | booted row run eq => exact .booted row run eq

/-! ## Registers in range (R27, R30, R34, R35) -/

/-- A position within the hard limit (R30). -/
abbrev PositionInRange (c : Params) (v : Servo) : Prop :=
  -(c.hardLimitDeg : Int) ≤ v.positionDeg ∧ v.positionDeg ≤ c.hardLimitDeg

/-- A slew step goes between the position and the target, and both are within the hard limit (R173, R174). -/
theorem positionInRange_slew {c : Params} {v : Servo} (h : PositionInRange c v) (r : Int) (b : Bool) (ph : PulsePhase) :
    PositionInRange c ⟨slewToward c v.positionDeg (targetDeg c r b), ph⟩ := by
  have htarget := targetDeg_mem c r b
  have hslew := slewToward_spec c v.positionDeg (targetDeg c r b)
  simp only [PositionInRange] at h ⊢
  omega

/-- The ranges speak of the parameters, the duty, the servos and the two commands only. -/
theorem State.InRange.congr {s t : State} (h : s.InRange) (hcfg : t.cfg = s.cfg)
    (hduty : t.motor.dutyUs = s.motor.dutyUs) (hservo : ∀ x, t.servo x = s.servo x) (hcmd : SameCommand s t) :
    t.InRange := by
  have hl : t.servoL = s.servoL := hservo .left
  have hr : t.servoR = s.servoR := hservo .right
  rw [State.InRange, hcfg, hduty, hl, hr, hcmd.roll, hcmd.throttle]
  exact h

theorem State.InRange.of_sameRegisters {s t : State} (h : s.InRange) (hcfg : t.cfg = s.cfg) (same : SameRegisters s t) :
    t.InRange :=
  h.congr hcfg (by rw [same.motor]) same.servo (.of_sched_eq same.sched)

theorem State.InRange.setResult {s : State} (h : s.InRange) (r : Result) : (s.setResult r).InRange := h

theorem finishAttempt_inRange {s : State} (h : s.InRange) : (finishAttempt s).InRange :=
  h.of_sameRegisters (finishAttempt_later s).cfg (finishAttempt_sameRegisters s)

theorem setThrottle_inRange {s : State} (p : Int) (h : s.InRange) : (setThrottle p s).InRange := by
  obtain ⟨hlegal, -, hrest⟩ := h
  exact ⟨hlegal, dutyOf_le s.cfg p, hrest⟩

theorem updateServo_inRange {s : State} (x : Side) (r : Int) (b : Bool) (h : s.InRange) :
    (updateServo x r b s).2.InRange := by
  obtain ⟨hlegal, hduty, hl, hr, hcmd⟩ := h
  cases x with
  | left => exact ⟨hlegal, hduty, positionInRange_slew hl r b _, hr, hcmd⟩
  | right => exact ⟨hlegal, hduty, hl, positionInRange_slew hr r b _, hcmd⟩

theorem serviceMotor_inRange {s : State} (h : s.InRange) : (serviceMotor s).2.InRange := by
  obtain ⟨later, -, -, hmotor, hl, hr, hsched, -⟩ := serviceMotor_spec s
  exact h.congr later.cfg (by rw [hmotor]) (servo_eq_of_sides hl hr) (.of_sched_eq hsched)

theorem armedThrottle_le {c : Params} (h : c.legal = true) : c.armedThrottle ≤ 100 := by
  simp only [Params.legal, Bool.and_eq_true, decide_eq_true_eq] at h
  obtain ⟨⟨-, harmed⟩, -⟩ := h
  exact harmed

/-- Each action clamps what it writes, or loads 0 or `ARMED_THROTTLE` (R194 to R196). -/
theorem applyAction_inRange {s : State} (a : Action) (h : s.InRange) : (applyAction a s).InRange := by
  obtain ⟨hlegal, hduty, hl, hr, hroll, hthrottle⟩ := h
  cases a with
  | rollLeft | rollRight => exact ⟨hlegal, hduty, hl, hr, clamp_mem _ _ _ (by decide), hthrottle⟩
  | volumeUp | volumeDown => exact ⟨hlegal, hduty, hl, hr, hroll, clamp_mem _ _ _ (by decide)⟩
  | powerToggle =>
    refine ⟨hlegal, hduty, hl, hr, hroll, ?_⟩
    have harmed := armedThrottle_le hlegal
    simp only [applyAction, powerToggle, State.setSched_sched]
    split <;> omega
  | noseUp | noseDown | select | numeric | raw => exact ⟨hlegal, hduty, hl, hr, hroll, hthrottle⟩

/-- The register part of boot: every register that R46 gives a value takes it (R252). -/
theorem bootRegisters_spec (s : State) :
    (bootRegisters s).run = .running ∧ (bootRegisters s).irdec = { s.irdec with phase := .idle }
    ∧ (bootRegisters s).motor = Motor.reset ∧ (bootRegisters s).servoL = Servo.reset
    ∧ (bootRegisters s).servoR = Servo.reset
    ∧ (bootRegisters s).sched = Sched.reset (bootRegisters s).env.clock s.sched.now
    ∧ (bootRegisters s).pins = s.pins ∧ (bootRegisters s).env.line = s.env.line
    ∧ (bootRegisters s).trace = .now (bootRegisters s).env.clock :: s.trace :=
  ⟨rfl, rfl, rfl, rfl, rfl, rfl, rfl, (clockRead_spec s).2.2.2.1, rfl⟩

theorem bootRegisters_inRange {s : State} (h : s.cfg.legal = true) : (bootRegisters s).InRange := by
  refine ⟨h, Nat.zero_le _, ?_, ?_, ?_, ?_⟩ <;> simp [bootRegisters_spec, Servo.reset, Sched.reset]

/-! ## Registers in range through an iteration (R190) -/

theorem readNow_inRange {s : State} (h : s.InRange) : (readNow s).InRange := by
  obtain ⟨later, -, hmotor, hl, hr, -⟩ := readNow_spec s
  exact h.congr later.cfg (by rw [hmotor]) (servo_eq_of_sides hl hr) (readNow_sameCommand s)

theorem pollAndApply_inRange {s : State} (h : s.InRange) : (pollAndApply s).InRange := by
  obtain ⟨n, hd⟩ := runPoll_spec s
  have hpoll : (runPoll s).InRange := h.of_sameRegisters hd.later.cfg hd.units.sameRegisters
  unfold pollAndApply
  simp only
  split
  · exact applyAction_inRange _ hpoll
  · exact hpoll

theorem dispatchServoL_inRange {s : State} (h : s.InRange) : (dispatchServoL s).InRange := by
  unfold dispatchServoL
  split
  · exact updateServo_inRange .left s.sched.rollCmd true h
  · exact h

theorem dispatchServoR_inRange {s : State} (h : s.InRange) : (dispatchServoR s).InRange := by
  unfold dispatchServoR
  split
  · exact updateServo_inRange .right s.sched.rollCmd false h
  · exact h

theorem dispatchMotor_inRange {s : State} (h : s.InRange) : (dispatchMotor s).InRange := by
  unfold dispatchMotor
  split
  · exact serviceMotor_inRange h
  · exact h

theorem iterateState_inRange {s : State} (h : s.InRange) : (iterateState s).InRange := by
  have hgate : (gateThrottle (pollAndApply (readNow s))).InRange :=
    setThrottle_inRange _ (pollAndApply_inRange (readNow_inRange h))
  have hdispatched := dispatchMotor_inRange (dispatchServoR_inRange (dispatchServoL_inRange hgate))
  obtain ⟨later, units, -⟩ := sleepToSoonest_spec
    (dispatchMotor (dispatchServoR (dispatchServoL (gateThrottle (pollAndApply (readNow s))))))
  exact hdispatched.of_sameRegisters later.cfg units.sameRegisters

/-- Every operation keeps the registers in range. -/
theorem exec_inRange {i : Instr} {s t : State} (h : exec i s = .next t) (hs : s.InRange) : t.InRange := by
  have hfin := finishAttempt_inRange hs
  cases exec_registerEffect h with
  | kept same => exact hs.of_sameRegisters (exec_later i s t h).cfg same
  | throttled p _ eq => rw [eq]; exact (setThrottle_inRange p hfin).setResult _
  | serviced _ _ r eq => rw [eq]; exact (serviceMotor_inRange hfin).setResult _
  | updated x c b _ r eq => rw [eq]; exact (updateServo_inRange x c b hfin).setResult _
  | applied a _ eq => rw [eq]; exact (applyAction_inRange a hfin).setResult _
  | iterated _ eq => rw [eq]; exact (iterateState_inRange hs).setResult _
  | booted _ _ eq =>
    obtain ⟨hlegal, -⟩ := hfin
    rw [← (bootPins_spec (finishAttempt s)).1.cfg] at hlegal
    rw [eq]
    exact (bootRegisters_inRange hlegal).setResult _

/-! ## Deadlines (R37, R199) -/

/-- No deadline of `t` is before that of `s`. -/
structure DeadlinesLe (s t : State) : Prop where
  servoL : s.sched.nextServoL ≤ t.sched.nextServoL
  servoR : s.sched.nextServoR ≤ t.sched.nextServoR
  motor : s.sched.nextMotor ≤ t.sched.nextMotor

theorem DeadlinesLe.refl (s : State) : DeadlinesLe s s := ⟨Nat.le_refl _, Nat.le_refl _, Nat.le_refl _⟩

theorem DeadlinesLe.trans {s t u : State} (h : DeadlinesLe s t) (k : DeadlinesLe t u) : DeadlinesLe s u :=
  ⟨h.servoL.trans k.servoL, h.servoR.trans k.servoR, h.motor.trans k.motor⟩

theorem DeadlinesLe.of_sched_eq {s t : State} (h : t.sched = s.sched) : DeadlinesLe s t := by
  constructor <;> rw [h]

theorem DeadlinesLe.setResult {s t : State} (h : DeadlinesLe s t) (r : Result) : DeadlinesLe s (t.setResult r) :=
  ⟨h.servoL, h.servoR, h.motor⟩

theorem applyAction_deadlinesLe (a : Action) (s : State) : DeadlinesLe s (applyAction a s) := by
  rw [applyAction_spec]
  exact ⟨Nat.le_refl _, Nat.le_refl _, Nat.le_refl _⟩

theorem readNow_deadlinesLe (s : State) : DeadlinesLe s (readNow s) := by
  obtain ⟨-, -, -, -, -, -, -, hsched, -⟩ := readNow_spec s
  constructor <;> rw [hsched]

theorem pollAndApply_deadlinesLe (s : State) : DeadlinesLe s (pollAndApply s) := by
  obtain ⟨-, -, -, -, -, -, -, ⟨_, _, _, hsched⟩, -⟩ := pollAndApply_spec s
  constructor <;> rw [hsched]

/-- A dispatch adds the returned delta to its own deadline, when it is due (R199). -/
theorem dispatchServoL_deadlinesLe (s : State) : DeadlinesLe s (dispatchServoL s) := by
  unfold dispatchServoL
  split
  · constructor <;> simp [updateServo_spec]
  · exact .refl s

theorem dispatchServoR_deadlinesLe (s : State) : DeadlinesLe s (dispatchServoR s) := by
  unfold dispatchServoR
  split
  · constructor <;> simp [updateServo_spec]
  · exact .refl s

theorem dispatchMotor_deadlinesLe (s : State) : DeadlinesLe s (dispatchMotor s) := by
  unfold dispatchMotor
  split
  · constructor <;> simp [serviceMotor_spec]
  · exact .refl s

theorem iterateState_deadlinesLe (s : State) : DeadlinesLe s (iterateState s) :=
  have polled := (readNow_deadlinesLe s).trans (pollAndApply_deadlinesLe _)
  have gated := polled.trans (.of_sched_eq (t := gateThrottle (pollAndApply (readNow s))) rfl)
  have servos := (gated.trans (dispatchServoL_deadlinesLe _)).trans (dispatchServoR_deadlinesLe _)
  (servos.trans (dispatchMotor_deadlinesLe _)).trans (.of_sched_eq (sleepToSoonest_spec _).2.1.sched)

/-- On a running block, which `boot` refuses, no operation moves a deadline back (R37). -/
theorem exec_deadlinesLe {i : Instr} {s t : State} (h : exec i s = .next t) (hrun : s.run = .running) :
    DeadlinesLe s t := by
  cases exec_registerEffect h with
  | kept same => exact .of_sched_eq same.sched
  | throttled p _ eq => exact .of_sched_eq (by rw [eq]; exact finishAttempt_sched s)
  | serviced _ _ r eq => exact .of_sched_eq (by simp [eq, serviceMotor_spec])
  | updated x c b _ r eq => exact .of_sched_eq (by simp [eq, updateServo_spec])
  | applied a _ eq =>
    have hfin : DeadlinesLe s (finishAttempt s) := .of_sched_eq (finishAttempt_sched s)
    rw [eq]
    exact (hfin.trans (applyAction_deadlinesLe a _)).setResult _
  | iterated _ eq => rw [eq]; exact (iterateState_deadlinesLe s).setResult _
  | booted _ hpower _ => rw [hrun] at hpower; cases hpower

/-- A running block stays running: only `boot` writes `run` (R250). -/
theorem exec_run {i : Instr} {s t : State} (h : exec i s = .next t) (hrun : s.run = .running) : t.run = .running := by
  have hfin := (finishAttempt_run s).trans hrun
  cases exec_registerEffect h with
  | kept same => exact same.run.trans hrun
  | throttled p _ eq => rw [eq]; exact hfin
  | serviced _ _ r eq => simp [eq, serviceMotor_spec, hfin]
  | updated x c b _ r eq => simp [eq, updateServo_spec, hfin]
  | applied a _ eq => rw [eq, applyAction_spec]; exact hfin
  | iterated _ eq => simp [eq, iterateState_spec, hrun]
  | booted _ _ eq => rw [eq]; rfl

/-! ## Writers of the command state (R34 to R36, R39) -/

theorem applyAction_rollCmd (a : Action) (s : State) :
    (applyAction a s).sched.rollCmd = s.sched.rollCmd ∨ a = .rollLeft ∨ a = .rollRight := by
  cases a with
  | rollLeft => exact .inr (.inl rfl)
  | rollRight => exact .inr (.inr rfl)
  | noseUp | noseDown | volumeUp | volumeDown | powerToggle | select | numeric | raw => exact .inl rfl

theorem applyAction_engineEnabled (a : Action) (s : State) :
    (applyAction a s).sched.engineEnabled = s.sched.engineEnabled ∨ a = .powerToggle := by
  cases a with
  | powerToggle => exact .inr rfl
  | noseUp | noseDown | rollLeft | rollRight | volumeUp | volumeDown | select | numeric | raw => exact .inl rfl

theorem applyAction_throttleCmd (a : Action) (s : State) :
    (applyAction a s).sched.throttleCmd = s.sched.throttleCmd ∨ a = .volumeUp ∨ a = .volumeDown ∨ a = .powerToggle := by
  cases a with
  | volumeUp => exact .inr (.inl rfl)
  | volumeDown => exact .inr (.inr (.inl rfl))
  | powerToggle => exact .inr (.inr (.inr rfl))
  | noseUp | noseDown | rollLeft | rollRight | select | numeric | raw => exact .inl rfl

/-- An operation leaves the command state as it is, or is an action's row, `apply_action`, `iterate` or `boot` (R39). -/
theorem exec_command {i : Instr} {s t : State} (h : exec i s = .next t) :
    SameCommand s t ∨ (∃ a, (i = .applyAction a ∨ i = a.toInstr) ∧ SameCommand (applyAction a s) t)
    ∨ i = .iterate ∨ i = .boot := by
  cases exec_registerEffect h with
  | kept same => exact .inl (.of_sched_eq same.sched)
  | throttled p _ eq => exact .inl (.of_sched_eq (by rw [eq]; exact finishAttempt_sched s))
  | serviced _ _ r eq => exact .inl (.of_sched_eq (by simp [eq, serviceMotor_spec]))
  | updated x c b _ r eq => exact .inl (.of_sched_eq (by simp [eq, updateServo_spec]))
  | applied a row eq =>
    obtain ⟨hroll, hthrottle, hengine⟩ := applyAction_sameCommand a (finishAttempt_later s).cfg
      (.of_sched_eq (finishAttempt_sched s))
    rw [eq]
    exact .inr (.inl ⟨a, row, hroll, hthrottle, hengine⟩)
  | iterated row _ => exact .inr (.inr (.inl row))
  | booted row _ _ => exact .inr (.inr (.inr row))

theorem exec_rollCmd_writers {i : Instr} {s t : State} (h : exec i s = .next t)
    (hne : t.sched.rollCmd ≠ s.sched.rollCmd) :
    i = .rollLeft ∨ i = .rollRight ∨ i = .applyAction .rollLeft ∨ i = .applyAction .rollRight ∨ i = .iterate
    ∨ i = .boot := by
  rcases exec_command h with same | ⟨a, row, same⟩ | row | row
  · exact absurd same.roll hne
  · rw [same.roll] at hne
    rcases (applyAction_rollCmd a s).resolve_left hne with rfl | rfl <;> rcases row with rfl | rfl <;>
      simp [Action.toInstr]
  · simp [row]
  · simp [row]

theorem exec_engineEnabled_writers {i : Instr} {s t : State} (h : exec i s = .next t)
    (hne : t.sched.engineEnabled ≠ s.sched.engineEnabled) :
    i = .powerToggle ∨ i = .applyAction .powerToggle ∨ i = .iterate ∨ i = .boot := by
  rcases exec_command h with same | ⟨a, row, same⟩ | row | row
  · exact absurd same.engine hne
  · rw [same.engine] at hne
    obtain rfl := (applyAction_engineEnabled a s).resolve_left hne
    rcases row with rfl | rfl <;> simp [Action.toInstr]
  · simp [row]
  · simp [row]

theorem exec_throttleCmd_writers {i : Instr} {s t : State} (h : exec i s = .next t)
    (hne : t.sched.throttleCmd ≠ s.sched.throttleCmd) :
    i = .volumeUp ∨ i = .volumeDown ∨ i = .powerToggle ∨ i = .applyAction .volumeUp ∨ i = .applyAction .volumeDown
    ∨ i = .applyAction .powerToggle ∨ i = .iterate ∨ i = .boot := by
  rcases exec_command h with same | ⟨a, row, same⟩ | row | row
  · exact absurd same.throttle hne
  · rw [same.throttle] at hne
    rcases (applyAction_throttleCmd a s).resolve_left hne with rfl | rfl | rfl <;> rcases row with rfl | rfl <;>
      simp [Action.toInstr]
  · simp [row]
  · simp [row]

/-! ## Writers of the units' registers (R20, R25, R29 to R32) -/

theorem exec_motor_writers {i : Instr} {s t : State} (h : exec i s = .next t) (hne : t.motor ≠ s.motor) :
    (∃ p, i = .setThrottle p) ∨ (∃ n, i = .service n) ∨ i = .iterate ∨ i = .boot := by
  cases exec_registerEffect h with
  | kept same => exact absurd same.motor hne
  | throttled p row _ => exact .inl ⟨p, row⟩
  | serviced n row _ _ => exact .inr (.inl ⟨n, row⟩)
  | updated x c b _ r eq => exact absurd (by simp [eq, updateServo_spec]) hne
  | applied a _ eq => exact absurd (by rw [eq, applyAction_spec]; exact finishAttempt_motor s) hne
  | iterated row _ => exact .inr (.inr (.inl row))
  | booted row _ _ => exact .inr (.inr (.inr row))

theorem exec_servo_writers {i : Instr} {s t : State} (h : exec i s = .next t) (x : Side)
    (hne : t.servo x ≠ s.servo x) : (∃ r b, i = .update x r b) ∨ i = .iterate ∨ i = .boot := by
  have hfin := (finishAttempt_sameRegisters s).servo x
  cases exec_registerEffect h with
  | kept same => exact absurd (same.servo x) hne
  | throttled p _ eq => exact absurd (by rw [eq]; exact hfin) hne
  | serviced n _ r eq =>
    obtain ⟨-, -, -, -, hl, hr, -⟩ := serviceMotor_spec (finishAttempt s)
    exact absurd (by rw [eq]; exact (servo_eq_of_sides hl hr x).trans hfin) hne
  | updated y c b row r eq =>
    by_cases hxy : x = y
    · exact .inl ⟨c, b, by rw [row, hxy]⟩
    · obtain ⟨-, -, -, -, -, -, -, hother, -⟩ := updateServo_spec y c b (finishAttempt s)
      exact absurd (by rw [eq]; exact (hother x hxy).trans hfin) hne
  | applied a _ eq => exact absurd (by rw [eq, applyAction_spec]; exact hfin) hne
  | iterated row _ => exact .inr (.inl row)
  | booted row _ _ => exact .inr (.inr row)

/-- IRDEC is as before, as an attempt in progress leaves it, or written by one of its rows (R25, R141). -/
theorem exec_irdec {i : Instr} {s t : State} (h : exec i s = .next t) :
    t.irdec = s.irdec ∨ WritesDecoder i ∨ i = .boot ∨ t.irdec = (finishAttempt s).irdec := by
  cases exec_effect i s t h with
  | sampled _ _ decoder =>
    rcases decoder with heq | heq | hrow
    · exact .inl heq
    · exact .inr (.inr (.inr heq))
    · exact .inr (.inl hrow)
  | configured p m _ eq => simp [eq, pinConfigure_spec]
  | wrote o v _ eq => simp [eq, pinWrite_spec]
  | coded code _ eq => simp [eq, writePins_spec]
  | throttled p _ eq => rw [eq]; exact .inr (.inr (.inr rfl))
  | serviced n _ r eq => simp [eq, serviceMotor_spec]
  | updated x c b _ r eq => simp [eq, updateServo_spec]
  | pulsed x _ r eq => simp [eq, emitPulse_spec]
  | applied a _ eq => rw [eq, applyAction_spec]; exact .inr (.inr (.inr rfl))
  | iterated row _ _ => exact .inr (.inl (by simp [WritesDecoder, row]))
  | booted row _ _ => exact .inr (.inr (.inl row))

theorem exec_irdec_writers {i : Instr} {s t : State} (h : exec i s = .next t) (hne : t.irdec ≠ s.irdec) :
    WritesDecoder i ∨ i = .boot ∨ (s.irdec.phase ≠ .idle ∧ t.irdec = (finishAttempt s).irdec) := by
  rcases (exec_irdec h).resolve_left hne with hrow | hrow | heq
  · exact .inl hrow
  · exact .inr (.inl hrow)
  · refine .inr (.inr ⟨fun hidle => hne ?_, heq⟩)
    rw [heq, finishAttempt_idle s hidle]

/-! ## Writers of the pins (R61, R62, R111) -/

theorem pinConfigure_cell_other {p : Pin} {o : OutPin} (h : p ≠ .out o) (m : PinMode) (s : State) :
    (pinConfigure p m s).pins.cell o = s.pins.cell o := by
  cases p with
  | ir => cases o <;> rfl
  | out q =>
    have hoq : o ≠ q := fun e => h (by rw [e])
    cases m with
    | input => exact Pins.cell_setCell_other s.pins hoq _
    | output => exact Pins.cell_setCell_other s.pins hoq _

theorem pinConfigure_out_irMode (o : OutPin) (m : PinMode) (s : State) :
    (pinConfigure (.out o) m s).pins.irMode = s.pins.irMode := by
  cases m with
  | input => exact Pins.irMode_setCell s.pins o _
  | output => exact Pins.irMode_setCell s.pins o _

/-- What `PinConfigure` of an output pin leaves as it was, as one equation (R111). -/
theorem pinConfigure_out_frame (o : OutPin) (m : PinMode) (s : State) :
    pinConfigure (.out o) m s = { s with
      pins := (pinConfigure (.out o) m s).pins,
      env := { s.env with freeUsed := (pinConfigure (.out o) m s).env.freeUsed },
      trace := .pinConfigure (.out o) m :: s.trace } := by
  cases m with
  | input => rfl
  | output => rfl

/-- The rows that write an output pin's cell. -/
abbrev WritesCell (i : Instr) (o : OutPin) : Prop :=
  ((o = .motIn1 ∨ o = .motIn2) ∧ ((∃ n, i = .service n) ∨ i = .motorForward ∨ i = .motorReverse ∨ i = .motorCoast
    ∨ i = .motorUndefined))
  ∨ (∃ x, o = servoPin x ∧ ((∃ r b, i = .update x r b) ∨ i = .servoPulse x))
  ∨ i = .iterate ∨ i = .boot ∨ (∃ v, i = .write (.out o) v) ∨ (∃ m, i = .configure (.out o) m)

theorem exec_cell_writers {i : Instr} {s t : State} (h : exec i s = .next t) (o : OutPin)
    (hne : t.pins.cell o ≠ s.pins.cell o) : WritesCell i o := by
  have hfin := finishAttempt_pins s
  cases exec_effect i s t h with
  | sampled _ units _ => exact absurd (by rw [units.pins]) hne
  | configured p m row eq =>
    by_cases hp : p = .out o
    · exact .inr (.inr (.inr (.inr (.inr ⟨m, by rw [row, hp]⟩))))
    · exact absurd (by rw [eq, ← hfin]; exact pinConfigure_cell_other hp m _) hne
  | wrote q v row eq =>
    by_cases hq : o = q
    · exact .inr (.inr (.inr (.inr (.inl ⟨v, by rw [row, hq]⟩))))
    · exact absurd (by rw [eq, ← hfin]; exact Pins.cell_setCell_other _ hq _) hne
  | coded code row eq =>
    cases o with
    | motIn1 => exact .inl ⟨.inl rfl, .inr row⟩
    | motIn2 => exact .inl ⟨.inr rfl, .inr row⟩
    | srvL | srvR => exact absurd (by simp [eq, writePins_spec, Pins.cell]) hne
  | throttled p _ eq => exact absurd (by rw [eq, ← hfin]; rfl) hne
  | serviced n row r eq =>
    cases o with
    | motIn1 => exact .inl ⟨.inl rfl, .inl ⟨n, row⟩⟩
    | motIn2 => exact .inl ⟨.inr rfl, .inl ⟨n, row⟩⟩
    | srvL | srvR => exact absurd (by simp [eq, serviceMotor_spec, Pins.cell]) hne
  | updated x c b row r eq =>
    by_cases hx : o = servoPin x
    · exact .inr (.inl ⟨x, hx, .inl ⟨c, b, row⟩⟩)
    · exact absurd (by simp [eq, updateServo_spec, Pins.cell_setCell_other _ hx]) hne
  | pulsed x row r eq =>
    by_cases hx : o = servoPin x
    · exact .inr (.inl ⟨x, hx, .inr row⟩)
    · exact absurd (by simp [eq, emitPulse_spec, Pins.cell_setCell_other _ hx]) hne
  | applied a _ eq => exact absurd (by rw [eq, applyAction_spec, ← hfin]; rfl) hne
  | iterated row _ _ => exact .inr (.inr (.inl row))
  | booted row _ _ => exact .inr (.inr (.inr (.inl row)))

theorem servoPin_injective {x y : Side} (h : servoPin x = servoPin y) : x = y := by
  revert h
  cases x <;> cases y <;> decide

/-- A servo's pin is no motor pin, and no other servo's (R61, R71). -/
theorem exec_servoPin_writers {i : Instr} {s t : State} (h : exec i s = .next t) (x : Side)
    (hne : t.pins.cell (servoPin x) ≠ s.pins.cell (servoPin x)) :
    (∃ r b, i = .update x r b) ∨ i = .servoPulse x ∨ i = .iterate ∨ i = .boot
    ∨ (∃ v, i = .write (.out (servoPin x)) v) ∨ (∃ m, i = .configure (.out (servoPin x)) m) := by
  rcases exec_cell_writers h (servoPin x) hne with ⟨hpin, -⟩ | ⟨y, hpin, hrow⟩ | hrest
  · cases x <;> rcases hpin with hpin | hpin <;> cases hpin
  · obtain rfl := servoPin_injective hpin
    rcases hrow with hrow | hrow
    · exact .inl hrow
    · exact .inr (.inl hrow)
  · exact .inr (.inr hrest)

/-- A motor pin is no servo's pin (R61, R71). -/
theorem exec_motorPin_writers {i : Instr} {s t : State} (h : exec i s = .next t) {o : OutPin}
    (ho : o = .motIn1 ∨ o = .motIn2) (hne : t.pins.cell o ≠ s.pins.cell o) :
    (∃ n, i = .service n) ∨ i = .motorForward ∨ i = .motorReverse ∨ i = .motorCoast ∨ i = .motorUndefined
    ∨ i = .iterate ∨ i = .boot
    ∨ (∃ o v, (o = .motIn1 ∨ o = .motIn2) ∧ i = .write (.out o) v)
    ∨ (∃ o m, (o = .motIn1 ∨ o = .motIn2) ∧ i = .configure (.out o) m) := by
  rcases exec_cell_writers h o hne with ⟨-, hrow⟩ | ⟨x, hpin, -⟩ | hrow | hrow | ⟨v, hrow⟩ | ⟨m, hrow⟩
  · rcases hrow with hrow | hrow | hrow | hrow | hrow <;> simp [hrow]
  · cases x <;> rcases ho with rfl | rfl <;> cases hpin
  · simp [hrow]
  · simp [hrow]
  · simp [hrow, ho]
  · simp [hrow, ho]

/-- The mode of `PIN_IR` is not among what a dispatch writes. -/
theorem dispatchServoL_irMode (s : State) : (dispatchServoL s).pins.irMode = s.pins.irMode := by
  unfold dispatchServoL
  split
  · simp [updateServo_spec]
  · rfl

theorem dispatchServoR_irMode (s : State) : (dispatchServoR s).pins.irMode = s.pins.irMode := by
  unfold dispatchServoR
  split
  · simp [updateServo_spec]
  · rfl

theorem dispatchMotor_irMode (s : State) : (dispatchMotor s).pins.irMode = s.pins.irMode := by
  unfold dispatchMotor
  split
  · simp [serviceMotor_spec]
  · rfl

/-- An iteration configures no pin. -/
theorem iterateState_irMode (s : State) : (iterateState s).pins.irMode = s.pins.irMode := by
  have hpolled : (gateThrottle (pollAndApply (readNow s))).pins = s.pins := by
    rw [(gateThrottle_spec _).2.1]
    simp [pollAndApply_spec, readNow_spec]
  rw [iterateState, (sleepToSoonest_spec _).2.1.pins, dispatchMotor_irMode, dispatchServoR_irMode, dispatchServoL_irMode,
    hpolled]

theorem exec_irMode_writers {i : Instr} {s t : State} (h : exec i s = .next t) (hne : t.pins.irMode ≠ s.pins.irMode) :
    (∃ m, i = .configure .ir m) ∨ i = .boot := by
  have hfin := finishAttempt_pins s
  cases exec_effect i s t h with
  | sampled _ units _ => exact absurd (by rw [units.pins]) hne
  | configured p m row eq =>
    cases p with
    | ir => exact .inl ⟨m, row⟩
    | out o => exact absurd (by rw [eq, ← hfin]; exact pinConfigure_out_irMode o m _) hne
  | wrote q v _ eq => exact absurd (by simp [eq, pinWrite_spec]) hne
  | coded code _ eq => exact absurd (by simp [eq, writePins_spec]) hne
  | throttled p _ eq => exact absurd (by rw [eq, ← hfin]; rfl) hne
  | serviced n _ r eq => exact absurd (by simp [eq, serviceMotor_spec]) hne
  | updated x c b _ r eq => exact absurd (by simp [eq, updateServo_spec]) hne
  | pulsed x _ r eq => exact absurd (by simp [eq, emitPulse_spec]) hne
  | applied a _ eq => exact absurd (by rw [eq, applyAction_spec, ← hfin]; rfl) hne
  | iterated _ _ eq => exact absurd (by rw [eq, State.setResult_pins]; exact iterateState_irMode s) hne
  | booted row _ _ => exact .inr row

/-! ## When an operation completes, and in which state -/

theorem exec_configure {s : State} {p : Pin} (m : PinMode) (hidle : s.irdec.phase = .idle) (hmode : s.pins.mode p = none) :
    exec (.configure p m) s = .next ((pinConfigure p m s).setResult .nothing) := by
  simp [exec, execConfigure, afterAttempt, needFresh, hidle, hmode]

theorem exec_write {s : State} {o : OutPin} (v : Level) (hidle : s.irdec.phase = .idle) (hw : writable s o = true) :
    exec (.write (.out o) v) s = .next ((pinWrite o v s).setResult .nothing) := by
  simp [exec, execWrite, afterAttempt, needOutput, hidle, hw]

theorem exec_measureRun {s : State} (level : Level) (cap : Nat) (hr : readable s .ir = true) :
    exec (.measureRun level cap) s
      = .next ((measureRun level cap s).setResult (.count (measureRun level cap s).irdec.count)) := by
  simp [exec, execMeasureRun, needInput, hr]

theorem exec_poll {s : State} (hr : readable s .ir = true) : exec .poll s = .next (runPoll s) := by
  simp [exec, execPoll, needInput, hr]

theorem exec_servoPulse {s : State} (x : Side) (hidle : s.irdec.phase = .idle) (hw : writable s (servoPin x) = true) :
    exec (.servoPulse x) s = .next ((emitPulse x s).setResult
      (.delta (pulseWidthUs s.cfg (s.servo x).positionDeg + lowIntervalUs s.cfg (s.servo x).positionDeg))) := by
  simp [exec, execServoPulse, afterAttempt, needOutput, hidle, hw]

theorem exec_boot_of_fresh {s : State} (hrun : s.run = .powerOn) (hidle : s.irdec.phase = .idle)
    (hmode : ∀ p, s.pins.mode p = none) :
    exec .boot s = .next ((bootRegisters (bootPins s)).setResult .nothing) := by
  simp [exec, execBoot, afterAttempt, needFresh, hrun, hidle, hmode]

/-! ## The servo pulse (R95, R175, R177) -/

/-- No pulse is longer than `SERVO_MAX_US` (R175). -/
theorem pulseWidthUs_le {c : Params} (p : Int) (h : c.servoMinUs ≤ c.servoMaxUs) : pulseWidthUs c p ≤ c.servoMaxUs := by
  have hangle : pseudoAngle p ≤ 180 := by
    have hclamp := clamp_mem (p + 90) 0 180 (by decide)
    unfold pseudoAngle
    omega
  have hproduct := Nat.mul_le_mul_right (c.servoMaxUs - c.servoMinUs) hangle
  unfold pulseWidthUs
  omega

theorem pulseWidthUs_lt_frame {c : Params} (p : Int) (h : c.legal = true) : pulseWidthUs c p < c.servoFrameUs := by
  simp only [Params.legal, Bool.and_eq_true, decide_eq_true_eq] at h
  obtain ⟨⟨⟨⟨⟨⟨-, hminmax⟩, hmaxframe⟩, -⟩, -⟩, -⟩, -⟩ := h
  exact Nat.lt_of_le_of_lt (pulseWidthUs_le p hminmax) hmaxframe

/-- Under legal parameters the low interval is the rest of the frame: it never needs its floor of 1 (R177). -/
theorem lowIntervalUs_eq {c : Params} (p : Int) (h : c.legal = true) :
    lowIntervalUs c p = c.servoFrameUs - pulseWidthUs c p := by
  have hlt := pulseWidthUs_lt_frame p h
  unfold lowIntervalUs
  omega

/-- A pulse under legal parameters: HIGH for the width, LOW for the rest of the frame (R177). -/
theorem emitPulse_eq (x : Side) (s : State) (h : s.cfg.legal = true) :
    emitPulse x s = hold (s.cfg.servoFrameUs - pulseWidthUs s.cfg (s.servo x).positionDeg)
      (pinWrite (servoPin x) .low
        (hold (pulseWidthUs s.cfg (s.servo x).positionDeg) (pinWrite (servoPin x) .high s))) := by
  rw [emitPulse, lowIntervalUs_eq _ h]

/-- What a pulse leaves as it was, as one equation (R30, R31). -/
theorem emitPulse_frame (x : Side) (s : State) (r : Result) :
    (emitPulse x s).setResult r = { s with
      pins := (emitPulse x s).pins, env := (emitPulse x s).env, result := r, trace := (emitPulse x s).trace } := by
  obtain ⟨⟨hcfg, hprogram, -, -⟩, hirdec, hmotor, hl, hr, hsched, hrun, -⟩ := emitPulse_spec x s
  rw [State.setResult, hcfg, hprogram, hirdec, hmotor, hl, hr, hsched, hrun]

end Sys2Proof.Machine

section
open Sys2Proof Sys2Proof.Machine

/-- Settles O55: a step is an operation, and each writer of a register with a range keeps it there. -/
theorem stepKeepsRegistersInRange : Obligations.StepKeepsRegistersInRange := by
  intro s t hs h
  obtain ⟨i, rest, hexec⟩ := step_exec h
  exact exec_inRange hexec hs

/-- Settles O58: whatever the writers of SCHED do, they add to the deadlines, and only `boot`, which a running block refuses,
writes them anew. -/
theorem deadlinesNeverFall : Obligations.DeadlinesNeverFall := by
  intro s t hrun h
  obtain ⟨i, rest, hexec⟩ := step_exec h
  have hle := exec_deadlinesLe hexec hrun
  exact ⟨exec_run hexec hrun, hle.servoL, hle.servoR, hle.motor⟩

/-- Settles O59, register by register. -/
theorem onlyActionsChangeTheCommand : Obligations.OnlyActionsChangeTheCommand := by
  intro i s t h
  refine ⟨exec_rollCmd_writers h, fun hne => ?_, exec_engineEnabled_writers h⟩
  rcases hne with hne | hne
  · exact exec_throttleCmd_writers h hne
  · rcases exec_engineEnabled_writers h hne with hrow | hrow | hrow | hrow <;> simp [hrow]

/-- Settles O60, unit by unit and pin by pin. -/
theorem unitsHaveTheirOwnWriters : Obligations.UnitsHaveTheirOwnWriters := by
  intro i s t h
  refine ⟨exec_motor_writers h, exec_servo_writers h, fun hne => ?_, fun hne => ?_, exec_servoPin_writers h,
    exec_irMode_writers h⟩
  · simpa only [WritesDecoder, or_assoc] using exec_irdec_writers h hne
  · rcases hne with hne | hne
    · exact exec_motorPin_writers h (.inl rfl) hne
    · exact exec_motorPin_writers h (.inr rfl) hne

/-- Settles O14, from what `measure_run` can do on any line. -/
theorem measureRunIsBounded : Obligations.MeasureRunIsBounded := by
  intro s level cap hr
  obtain ⟨n, hn, hd, hirdec, -⟩ := measureRun_spec level cap s
  refine ⟨_, n, exec_measureRun level cap hr, hn, by simp [hirdec], hirdec, hd.sleeps, hd.time, ?_⟩
  exact congrArg (State.setResult · _) hd.frame

/-- Settles O19: `poll` ends in every phase, and neither a new attempt nor the rest of one leaves IRDEC. -/
theorem pollChangesOnlyTheDecoder : Obligations.PollChangesOnlyTheDecoder := by
  intro s hr
  obtain ⟨n, hd⟩ := runPoll_spec s
  obtain ⟨hidle, o, ho⟩ := runPoll_ends s
  exact ⟨_, o, exec_poll hr, ho, hidle, hd.later.clock, hd.frame⟩

/-- Settles O43: under legal parameters the low interval is the rest of the frame. -/
theorem servoPulseIsHighThenLow : Obligations.ServoPulseIsHighThenLow := by
  intro s x hlegal hidle hw width up
  have hexec := exec_servoPulse x hidle hw
  rw [lowIntervalUs_eq _ hlegal, Nat.add_sub_cancel' (pulseWidthUs_lt_frame _ hlegal).le] at hexec
  have hpulse : emitPulse x s = hold (s.cfg.servoFrameUs - width) (pinWrite (servoPin x) .low up) :=
    emitPulse_eq x s hlegal
  obtain ⟨-, -, -, -, -, -, -, hline, hpins, -⟩ := emitPulse_spec x s
  obtain ⟨-, -, -, hhigh, -⟩ := hold_spec width (pinWrite (servoPin x) .high s)
  obtain ⟨-, -, -, hrest, -⟩ := hold_spec (s.cfg.servoFrameUs - width) (pinWrite (servoPin x) .low up)
  refine ⟨_, hexec, ?_, rfl, hhigh, ?_, ?_, ?_, hpins, hline, emitPulse_frame x s _⟩
  · exact Pins.cell_setCell_same _ _ _
  · rw [hpulse]
  · rw [hpulse]
    exact hrest
  · rw [hpulse]
    rfl

/-- Settles O52: the boot sequence's pin lines, then its registers; a second boot is refused. -/
theorem bootLeavesTheResetValues : Obligations.BootLeavesTheResetValues := by
  refine ⟨fun s hrun hidle hmode => ?_, exec_boot_of_running⟩
  obtain ⟨later, henv, hirdec, -, -, -, hsched, -, hpins, htrace⟩ := bootPins_spec s
  obtain ⟨-, hirdec', -, -, -, hsched', hpins', hline, htrace'⟩ := bootRegisters_spec (bootPins s)
  have booted := later.trans (bootRegisters_later (bootPins s))
  refine ⟨_, (bootRegisters (bootPins s)).env.clock, exec_boot_of_fresh hrun hidle hmode, booted.clock, rfl, rfl, ?_, rfl,
    rfl, rfl, ?_, ?_, fun o => ?_, booted.cfg, booted.program, rfl, ?_, ?_⟩
  · rw [State.setResult_irdec, hirdec', hirdec, ← hidle]
  · rw [State.setResult_sched, hsched', hsched]
    rfl
  · rw [State.setResult_pins, hpins', hpins]
    rfl
  · rw [State.setResult_pins, hpins', hpins]
    cases o <;> rfl
  · rw [State.setResult_env, hline, henv]
  · rw [State.setResult_trace, htrace', htrace]
    rfl

/-- Settles O6, from `PinConfigure` alone: an idle decoder has no attempt to finish. -/
theorem configureSetsTheMode : Obligations.ConfigureSetsTheMode := by
  refine ⟨fun s m hidle hmode => exec_configure m hidle hmode, fun s o m hidle hmode => ?_⟩
  refine ⟨_, exec_configure m hidle hmode, ?_, fun q hq => ?_, pinConfigure_out_irMode o m s, ?_, ?_⟩
  · obtain ⟨-, -, -, -, -, -, -, hset⟩ := pinConfigure_spec (.out o) m s
    exact hset
  · exact pinConfigure_cell_other (fun e => hq (Pin.out.inj e).symm) m s
  · rw [State.setResult_env, pinConfigure_out_frame]
  · rw [pinConfigure_out_frame]
    rfl

/-- Settles O9, from `PinWrite` alone. -/
theorem writeSetsOneLatch : Obligations.WriteSetsOneLatch := by
  intro s o v d hidle hmode
  have hw : writable s o = true := by simp [writable, hmode, PinMode.isInput]
  obtain ⟨-, -, -, -, -, -, -, -, hpins⟩ := pinWrite_spec o v s
  refine ⟨_, exec_write v hidle hw, ?_, fun q hq => ?_, ?_, rfl⟩
  · simp [hpins, hmode]
  · rw [State.setResult_pins, hpins, Pins.cell_setCell_other _ hq]
  · rw [State.setResult_pins, hpins, Pins.irMode_setCell]

/-- Settles O53: the values of R46 as `State.afterBoot` lists them. -/
theorem resetIsAsListed : Obligations.ResetIsAsListed :=
  ⟨rfl, rfl, rfl, rfl, rfl, rfl, rfl, rfl, rfl, Nat.le_refl _, fun o => by cases o <;> rfl, afterBoot_pinsReady _ _⟩

end

namespace Sys2Proof.Machine

/-! ## Reads, clock readings and sleeps (R66, R68) -/

theorem readable_of_input {s : State} {p : Pin} {q : Pull} (hmode : s.pins.mode p = some (.input q)) :
    readable s p = true := by
  simp [readable, hmode, PinMode.isInput]

theorem exec_read {s : State} {p : Pin} (hr : readable s p = true) :
    exec (.read p) s = .next ((pinRead p s).2.setResult (.level (pinRead p s).1)) := by
  simp [exec, execRead, needInput, hr]

theorem exec_now {s : State} (hidle : s.irdec.phase = .idle) :
    exec .now s = .next ((clockRead s).2.setResult (.time (clockRead s).1)) := by
  simp [exec, execNow, afterAttempt, hidle]

/-- `sleep_for` completes in every phase of the decoder, since a `poll` in progress makes it itself. -/
theorem exec_sleepFor (d : Nat) (s : State) : exec (.sleepFor d) s = .next ((sleepFor d s).setResult .nothing) := rfl

theorem exec_sleepUntil {s : State} (u : Nat) (hidle : s.irdec.phase = .idle) :
    exec (.sleepUntil u) s = .next ((sleepUntil u s).setResult .nothing) := by
  simp [exec, execSleepUntil, afterAttempt, hidle]

theorem nextLevel_nil {e : Env} (h : e.line = []) :
    nextLevel e = (Config.freeLevel e.freeUsed, { e with freeUsed := e.freeUsed + 1 }) := by
  simp [nextLevel, h]

/-- A read with no level given for it takes one free value: of `PIN_IR` when the line is used up, of another pin always (R66,
R112). -/
theorem pinRead_free {s : State} {p : Pin} (h : p = .ir → s.env.line = []) :
    pinRead p s = (Config.freeLevel s.env.freeUsed,
      record (.pinRead p (Config.freeLevel s.env.freeUsed)) (useFree 1 s)) := by
  cases p with
  | ir => simp [pinRead, readIr, useFree, nextLevel_nil (h rfl)]
  | out o => rfl

end Sys2Proof.Machine

section
open Sys2Proof Sys2Proof.Machine

/-- Settles O8: the level read is the next one of the line where there is one, else the next free value. -/
theorem readReturnsALevel : Obligations.ReadReturnsALevel := by
  refine ⟨fun s v rest q hmode hline => ?_, fun s p q hmode hfree => ⟨Config.freeLevel s.env.freeUsed, ?_⟩⟩
  · have hr : readable s .ir = true := readable_of_input hmode
    rw [exec_read hr, pinRead, readIr_cons s v rest hline]
    rfl
  · rw [exec_read (readable_of_input hmode), pinRead_free hfree]
    rfl

/-- Settles O10, from what `Now()` leaves. -/
theorem nowIsMonotone : Obligations.NowIsMonotone := by
  intro s hidle
  obtain ⟨later, -, -, hline, hclock, -⟩ := clockRead_spec s
  exact ⟨_, (clockRead s).1, exec_now hidle, rfl, later.clock.trans_eq hclock, hclock, hline, rfl⟩

/-- Settles O11, from what the two sleeps leave. -/
theorem sleepsLastAtLeastAsAsked : Obligations.SleepsLastAtLeastAsAsked := by
  refine ⟨fun s d => ?_, fun s u hidle => ?_⟩
  · obtain ⟨-, -, -, hline, hasked, -⟩ := sleepFor_spec d s
    exact ⟨_, exec_sleepFor d s, hasked, hline, rfl⟩
  · obtain ⟨later, -, -, hline, hasked, -⟩ := sleepUntil_spec u s
    exact ⟨_, exec_sleepUntil u hidle, hasked, later.clock, hline, rfl⟩

end

/-! # Proofs of the family 30_encoding: the operation word, whole frames on the line, and the motor pins -/

namespace Sys2Proof

/-! ## Fields of a word: what was put in is read out, and reading out all fields gives the word back -/

/-- The field below `k`, under whatever stands above it. -/
theorem bitField_low {a k : Nat} (b : Nat) (ha : a < 2 ^ k) : bitField (a + 2 ^ k * b) 0 k = a := by
  simp [bitField, Nat.mod_eq_of_lt ha]

/-- A field from `k` on, above whatever stands below it, is a field of the upper part. -/
theorem bitField_above {a k : Nat} (b i n : Nat) (ha : a < 2 ^ k) : bitField (a + 2 ^ k * b) (k + i) n = bitField b i n := by
  rw [bitField, bitField, Nat.pow_add, ← Nat.div_div_eq_div_mul, Nat.add_mul_div_left _ _ (Nat.two_pow_pos k),
    Nat.div_eq_of_lt ha, Nat.zero_add]

/-- The field from `k` on, above whatever stands below it. -/
theorem bitField_high {a b k n : Nat} (ha : a < 2 ^ k) (hb : b < 2 ^ n) : bitField (a + 2 ^ k * b) k n = b :=
  (bitField_above b 0 n ha).trans (bitField_zero_of_lt b n hb)

/-- Two neighbouring fields fit in both widths. -/
theorem join_lt {a b k n : Nat} (ha : a < 2 ^ k) (hb : b < 2 ^ n) : a + 2 ^ k * b < 2 ^ (k + n) := by
  rw [Nat.pow_add]
  calc a + 2 ^ k * b < 2 ^ k * (b + 1) := by rw [Nat.mul_succ]; omega
    _ ≤ 2 ^ k * 2 ^ n := Nat.mul_le_mul_left _ hb

theorem bitField_lt (x lo n : Nat) : bitField x lo n < 2 ^ n := Nat.mod_lt _ (Nat.two_pow_pos n)

/-- Two neighbouring fields are one field of both widths. -/
theorem bitField_add (x lo m n : Nat) : bitField x lo m + 2 ^ m * bitField x (lo + m) n = bitField x lo (m + n) := by
  rw [bitField, bitField, bitField, Nat.pow_add, Nat.pow_add, ← Nat.div_div_eq_div_mul, Nat.mod_mul]

/-- A byte keeps all of an eight bit field. -/
theorem toNat_ofNat_bitField (x lo n : Nat) : (BitVec.ofNat n (bitField x lo n)).toNat = bitField x lo n := by
  rw [BitVec.toNat_ofNat, Nat.mod_eq_of_lt (bitField_lt x lo n)]

/-- Two sixteen bit fields are two run counts. -/
theorem isCount_pair (x lo lo' : Nat) : (isCount (bitField x lo 16) && isCount (bitField x lo' 16)) = true := by
  simp only [isCount, Bool.and_eq_true, decide_eq_true_eq]
  exact ⟨bitField_lt x lo 16, bitField_lt x lo' 16⟩

theorem Level.code_ofCode {n : Nat} (h : n < 2 ^ 1) : (Level.ofCode n).code = n := by
  interval_cases n <;> rfl

theorem Side.code_ofCode {n : Nat} (h : n < 2 ^ 1) : (Side.ofCode n).code = n := by
  interval_cases n <;> rfl

theorem codeOfBool_boolOfCode {n : Nat} (h : n < 2 ^ 1) : codeOfBool (boolOfCode n) = n := by
  interval_cases n <;> rfl

/-- An `i32` is read from its low 32 bits, and is an `i32` (R10). -/
theorem low32_sext32 {n : Nat} (h : n < 2 ^ 32) : low32 (sext32 n) = n := by
  unfold low32 sext32
  split <;> omega

theorem isI32_sext32 {n : Nat} (h : n < 2 ^ 32) : isI32 (sext32 n) = true := by
  simp only [isI32, Bool.and_eq_true, decide_eq_true_eq]
  unfold sext32
  split <;> omega

theorem Pin.code_of_ofCode {n : Nat} {p : Pin} (h : Pin.ofCode n = .ok p) : p.code = n := by
  unfold Pin.ofCode at h
  split at h <;> cases h <;> rfl

theorem Pin.writeCode_of_ofWriteCode {n : Nat} {p : Pin} (h : Pin.ofWriteCode n = .ok p) : p.writeCode = n := by
  unfold Pin.ofWriteCode at h
  split at h <;> cases h <;> rfl

theorem PinMode.code_of_ofCode {n : Nat} {m : PinMode} (h : PinMode.ofCode n = .ok m) : m.code = n := by
  unfold PinMode.ofCode at h
  split at h <;> cases h <;> rfl

/-- The two action fields are those of the action read from them: only `Numeric` and `Raw` carry a value (R88). -/
theorem Action.codes_of_ofCode {c v : Nat} {a : Action} (hv : v < 2 ^ 8) (h : Action.ofCode c v = .ok a) :
    a.ctorCode = c ∧ a.valueCode = v := by
  unfold Action.ofCode at h
  split at h
  · split at h <;> cases h
    exact ⟨rfl, rfl⟩
  · cases h
    exact ⟨rfl, by simpa [Action.valueCode] using hv⟩
  · split at h
    · next hzero => subst hzero; split at h <;> cases h <;> exact ⟨rfl, rfl⟩
    · cases h

/-- A row of an action is that action's opcode and fields. -/
theorem Action.toInstr_encoding (a : Action) :
    a.toInstr.opcode = 0x5F ∧ a.toInstr.operands = actionOperand a.ctorCode a.valueCode
      ∧ a.toInstr.wellFormed = true := by
  cases a <;> exact ⟨rfl, rfl, rfl⟩

/-- A motor pin code is its row's operand (R92). -/
theorem motorRow_encoding {a b : Nat} (ha : a < 2 ^ 1) (hb : b < 2 ^ 1) :
    (motorRow a b).opcode = 0x6F ∧ (motorRow a b).operands = b + 2 ^ 1 * a ∧ (motorRow a b).wellFormed = true := by
  interval_cases a <;> interval_cases b <;> exact ⟨rfl, rfl, rfl⟩

/-! ## The decoder on the opcode byte and the operands of a row -/

theorem withOperands_eq_ok {op x n : Nat} {k : Except DecodeError Instr} {i : Instr} :
    withOperands op x n k = .ok i ↔ x < 2 ^ n ∧ k = .ok i := by
  unfold withOperands
  split <;> simp [*]

theorem except_bind_eq_ok {α β ε : Type} {m : Except ε α} {f : α → Except ε β} {b : β} :
    (m >>= f) = .ok b ↔ ∃ a, m = .ok a ∧ f a = .ok b := by
  cases m <;> simp [bind, Except.bind]

/-- A row that decodes has the opcode and the operands it was decoded from, and is well formed: a field is as wide as its
operand's range, and a bit above the fields is refused. -/
theorem encoding_of_decodeFields {op x : Nat} {i : Instr} (h : decodeFields op x = .ok i) :
    i.opcode = op ∧ i.operands = x ∧ i.wellFormed = true := by
  unfold decodeFields at h
  split at h <;> simp only [withOperands_eq_ok, except_bind_eq_ok, reduceCtorEq] at h <;> obtain ⟨hx, h⟩ := h
  next => -- configure
    obtain ⟨p, hp, m, hm, ⟨⟩⟩ := h
    refine ⟨rfl, ?_, rfl⟩
    rw [Instr.operands, Pin.code_of_ofCode hp, PinMode.code_of_ofCode hm]
    exact (bitField_add x 0 3 3).trans (bitField_zero_of_lt _ _ hx)
  next => -- read
    obtain ⟨p, hp, ⟨⟩⟩ := h
    exact ⟨rfl, (Pin.code_of_ofCode hp).trans (bitField_zero_of_lt _ _ hx), rfl⟩
  next => -- write
    obtain ⟨p, hp, ⟨⟩⟩ := h
    refine ⟨rfl, ?_, rfl⟩
    rw [Instr.operands, Pin.writeCode_of_ofWriteCode hp, Level.code_ofCode (bitField_lt _ _ _)]
    exact (bitField_add x 0 3 1).trans (bitField_zero_of_lt _ _ hx)
  next => -- now
    cases h
    exact ⟨rfl, (Nat.lt_one_iff.1 hx).symm, rfl⟩
  next => -- sleep_for
    cases h
    exact ⟨rfl, bitField_zero_of_lt _ _ hx, decide_eq_true (bitField_lt _ _ _)⟩
  next => -- sleep_until
    cases h
    exact ⟨rfl, bitField_zero_of_lt _ _ hx, decide_eq_true (bitField_lt _ _ _)⟩
  next => -- measure_run
    cases h
    have hcap := bitField_lt x 1 32
    refine ⟨rfl, ?_, by simp only [Instr.wellFormed, isCap, Bool.and_eq_true, decide_eq_true_eq]; omega⟩
    rw [Instr.operands, Level.code_ofCode (bitField_lt _ _ _)]
    exact (bitField_add x 0 1 32).trans (bitField_zero_of_lt _ _ hx)
  next => -- poll
    cases h
    exact ⟨rfl, (Nat.lt_one_iff.1 hx).symm, rfl⟩
  next => -- action_for
    cases h
    exact ⟨rfl, (toNat_ofNat_bitField x 0 8).trans (bitField_zero_of_lt _ _ hx), rfl⟩
  next => -- set_throttle
    cases h
    exact ⟨rfl, (low32_sext32 (bitField_lt _ _ _)).trans (bitField_zero_of_lt _ _ hx), isI32_sext32 (bitField_lt _ _ _)⟩
  next => -- service
    cases h
    exact ⟨rfl, bitField_zero_of_lt _ _ hx, decide_eq_true (bitField_lt _ _ _)⟩
  next => -- update
    cases h
    refine ⟨rfl, ?_, isI32_sext32 (bitField_lt _ _ _)⟩
    rw [Instr.operands, low32_sext32 (bitField_lt _ _ _), codeOfBool_boolOfCode (bitField_lt _ _ _),
      Side.code_ofCode (bitField_lt _ _ _)]
    exact (congrArg (· + 2 ^ 33 * bitField x 33 1) (bitField_add x 0 32 1)).trans
      ((bitField_add x 0 33 1).trans (bitField_zero_of_lt _ _ hx))
  next => -- apply_action
    obtain ⟨a, ha, ⟨⟩⟩ := h
    obtain ⟨hctor, hvalue⟩ := Action.codes_of_ofCode (bitField_lt _ _ _) ha
    refine ⟨rfl, ?_, rfl⟩
    rw [Instr.operands, hctor, hvalue]
    exact (bitField_add x 0 4 8).trans (bitField_zero_of_lt _ _ hx)
  next => -- iterate
    cases h
    exact ⟨rfl, (Nat.lt_one_iff.1 hx).symm, rfl⟩
  next => -- boot
    cases h
    exact ⟨rfl, (Nat.lt_one_iff.1 hx).symm, rfl⟩
  next => -- NEC_FRAME
    cases h
    refine ⟨rfl, ?_, rfl⟩
    simp only [Instr.operands, toNat_ofNat_bitField]
    have h16 := bitField_add x 0 8 8
    have h24 := bitField_add x 0 16 8
    have h32 := (bitField_add x 0 24 8).trans (bitField_zero_of_lt _ _ hx)
    simp only [Nat.zero_add, Nat.reduceAdd] at h16 h24 h32
    rw [h16, h24, h32]
  next => -- START
    cases h
    exact ⟨rfl, (bitField_add x 0 16 16).trans (bitField_zero_of_lt _ _ hx), isCount_pair x 0 16⟩
  next => -- BIT0
    cases h
    exact ⟨rfl, (bitField_add x 0 16 16).trans (bitField_zero_of_lt _ _ hx), isCount_pair x 0 16⟩
  next => -- BIT1
    cases h
    exact ⟨rfl, (bitField_add x 0 16 16).trans (bitField_zero_of_lt _ _ hx), isCount_pair x 0 16⟩
  next => -- NO_SYMBOL
    cases h
    refine ⟨rfl, ?_, decide_eq_true (bitField_lt _ _ _)⟩
    rw [Instr.operands, Level.code_ofCode (bitField_lt _ _ _)]
    exact (bitField_add x 0 1 16).trans (bitField_zero_of_lt _ _ hx)
  next => -- the actions
    obtain ⟨a, ha, ⟨⟩⟩ := h
    obtain ⟨hctor, hvalue⟩ := Action.codes_of_ofCode (bitField_lt _ _ _) ha
    obtain ⟨hopcode, hoperands, hwf⟩ := a.toInstr_encoding
    refine ⟨hopcode, ?_, hwf⟩
    rw [hoperands, hctor, hvalue]
    exact (bitField_add x 0 4 8).trans (bitField_zero_of_lt _ _ hx)
  next => -- the motor pin codes
    cases h
    obtain ⟨hopcode, hoperands, hwf⟩ := motorRow_encoding (bitField_lt x 1 1) (bitField_lt x 0 1)
    exact ⟨hopcode, hoperands.trans ((bitField_add x 0 1 1).trans (bitField_zero_of_lt _ _ hx)), hwf⟩
  next => -- SERVO_PULSE
    cases h
    exact ⟨rfl, (Side.code_ofCode (bitField_lt _ _ _)).trans (bitField_zero_of_lt _ _ hx), rfl⟩

/-- No row has more than 64 operand bits. -/
theorem operands_lt_of_decodeFields {op x : Nat} {i : Instr} (h : decodeFields op x = .ok i) : x < 2 ^ 64 := by
  unfold decodeFields at h
  split at h <;> simp only [withOperands_eq_ok, reduceCtorEq] at h <;> omega

/-- The two fields of an action (R88). -/
theorem bitField_actionOperand (a : Action) :
    bitField (actionOperand a.ctorCode a.valueCode) 0 4 = a.ctorCode
      ∧ bitField (actionOperand a.ctorCode a.valueCode) 4 8 = a.valueCode
      ∧ actionOperand a.ctorCode a.valueCode < 2 ^ 12 :=
  ⟨bitField_low _ a.ctorCode_lt, bitField_high a.ctorCode_lt a.valueCode_lt,
    join_lt (k := 4) (n := 8) a.ctorCode_lt a.valueCode_lt⟩

theorem decodeFields_toInstr (a : Action) :
    decodeFields 0x5F (actionOperand a.ctorCode a.valueCode) = .ok a.toInstr := by
  obtain ⟨hctor, hvalue, hx⟩ := bitField_actionOperand a
  refine withOperands_eq_ok.2 ⟨hx, ?_⟩
  rw [hctor, hvalue, Action.ofCode_code]
  rfl

/-- Two run counts stand in the two halves of a symbol row's operands (R81). -/
theorem bitField_counts {cl ch : Nat} (h : (isCount cl && isCount ch) = true) :
    bitField (cl + 2 ^ 16 * ch) 0 16 = cl ∧ bitField (cl + 2 ^ 16 * ch) 16 16 = ch ∧ cl + 2 ^ 16 * ch < 2 ^ 32 := by
  simp only [isCount, Bool.and_eq_true, decide_eq_true_eq] at h
  obtain ⟨hl, hh⟩ := h
  exact ⟨bitField_low ch hl, bitField_high hl hh, join_lt hl hh⟩

/-- The opcode and the operands of a well-formed row decode to that row, field by field. -/
theorem decodeFields_encoding (i : Instr) (h : i.wellFormed = true) : decodeFields i.opcode i.operands = .ok i := by
  cases i with
  | now | poll | iterate | boot | motorForward | motorReverse | motorCoast | motorUndefined => rfl
  | noseUp => exact decodeFields_toInstr .noseUp
  | noseDown => exact decodeFields_toInstr .noseDown
  | rollLeft => exact decodeFields_toInstr .rollLeft
  | rollRight => exact decodeFields_toInstr .rollRight
  | volumeUp => exact decodeFields_toInstr .volumeUp
  | volumeDown => exact decodeFields_toInstr .volumeDown
  | powerToggle => exact decodeFields_toInstr .powerToggle
  | select => exact decodeFields_toInstr .select
  | numeric d => exact decodeFields_toInstr (.numeric d)
  | raw b => exact decodeFields_toInstr (.raw b)
  | configure p m =>
    refine withOperands_eq_ok.2 ⟨join_lt (k := 3) (n := 3) p.code_lt m.code_lt, ?_⟩
    rw [Instr.operands, bitField_low _ p.code_lt, bitField_high p.code_lt m.code_lt, Pin.ofCode_code, PinMode.ofCode_code]
    rfl
  | read p =>
    refine withOperands_eq_ok.2 ⟨p.code_lt, ?_⟩
    rw [Instr.operands, bitField_zero_of_lt _ _ p.code_lt, Pin.ofCode_code]
    rfl
  | write p v =>
    refine withOperands_eq_ok.2 ⟨join_lt (k := 3) (n := 1) p.writeCode_lt v.code_lt, ?_⟩
    rw [Instr.operands, bitField_low _ p.writeCode_lt, bitField_high p.writeCode_lt v.code_lt, Pin.ofWriteCode_writeCode,
      Level.ofCode_code]
    rfl
  | sleepFor d | sleepUntil d | service d =>
    have hd : d < 2 ^ 64 := of_decide_eq_true h
    refine withOperands_eq_ok.2 ⟨hd, ?_⟩
    rw [Instr.operands, bitField_zero_of_lt _ _ hd]
  | measureRun v cap =>
    simp only [Instr.wellFormed, isCap, Bool.and_eq_true, decide_eq_true_eq] at h
    have hcap : cap - 1 < 2 ^ 32 := by omega
    refine withOperands_eq_ok.2 ⟨join_lt (k := 1) v.code_lt hcap, ?_⟩
    have hlow : bitField (Instr.measureRun v cap).operands 0 1 = v.code := bitField_low (k := 1) _ v.code_lt
    have hhigh : bitField (Instr.measureRun v cap).operands 1 32 = cap - 1 := bitField_high (k := 1) v.code_lt hcap
    rw [hlow, hhigh, Level.ofCode_code, Nat.sub_add_cancel h.1]
  | actionFor code =>
    refine withOperands_eq_ok.2 ⟨code.isLt, ?_⟩
    rw [Instr.operands, bitField_zero_of_lt _ _ code.isLt, BitVec.ofNat_toNat, BitVec.setWidth_eq]
  | setThrottle percent =>
    refine withOperands_eq_ok.2 ⟨low32_lt percent, ?_⟩
    rw [Instr.operands, bitField_zero_of_lt _ _ (low32_lt percent), sext32_low32 percent h]
  | update x rollCmd isLeft =>
    have hop : (Instr.update x rollCmd isLeft).operands
        = low32 rollCmd + 2 ^ 32 * (codeOfBool isLeft + 2 ^ 1 * x.code) := by
      rw [Instr.operands]
      omega
    have hb := codeOfBool_lt isLeft
    have hroll := low32_lt rollCmd
    refine withOperands_eq_ok.2 ⟨?_, ?_⟩
    · rw [hop]
      exact join_lt (n := 2) hroll (join_lt (k := 1) (n := 1) hb x.code_lt)
    · rw [hop, bitField_low _ hroll, bitField_above _ 0 1 hroll, bitField_above _ 1 1 hroll, bitField_low _ hb,
        bitField_high hb x.code_lt, sext32_low32 rollCmd h, boolOfCode_codeOfBool, Side.ofCode_code]
  | applyAction a =>
    obtain ⟨hctor, hvalue, hx⟩ := bitField_actionOperand a
    refine withOperands_eq_ok.2 ⟨hx, ?_⟩
    rw [Instr.operands, hctor, hvalue, Action.ofCode_code]
    rfl
  | necFrame a an c cn =>
    have hop : (Instr.necFrame a an c cn).operands
        = a.toNat + 2 ^ 8 * (an.toNat + 2 ^ 8 * (c.toNat + 2 ^ 8 * cn.toNat)) := by
      rw [Instr.operands]
      omega
    refine withOperands_eq_ok.2 ⟨?_, ?_⟩
    · rw [hop]
      exact join_lt (n := 24) a.isLt (join_lt (n := 16) an.isLt (join_lt c.isLt cn.isLt))
    · rw [hop, bitField_low _ a.isLt, bitField_above _ 0 8 a.isLt, bitField_above _ 8 8 a.isLt,
        bitField_above _ 16 8 a.isLt, bitField_low _ an.isLt, bitField_above _ 0 8 an.isLt, bitField_above _ 8 8 an.isLt,
        bitField_low _ c.isLt, bitField_high c.isLt cn.isLt]
      simp only [BitVec.ofNat_toNat, BitVec.setWidth_eq]
  | start cl ch | bit0 cl ch | bit1 cl ch =>
    obtain ⟨hl, hh, hx⟩ := bitField_counts h
    refine withOperands_eq_ok.2 ⟨hx, ?_⟩
    rw [Instr.operands, hl, hh]
  | noSymbol v cl =>
    have hcl : cl < 2 ^ 16 := of_decide_eq_true h
    refine withOperands_eq_ok.2 ⟨join_lt (k := 1) v.code_lt hcl, ?_⟩
    have hlow : bitField (Instr.noSymbol v cl).operands 0 1 = v.code := bitField_low (k := 1) _ v.code_lt
    have hhigh : bitField (Instr.noSymbol v cl).operands 1 16 = cl := bitField_high (k := 1) v.code_lt hcl
    rw [hlow, hhigh, Level.ofCode_code]
  | servoPulse x =>
    refine withOperands_eq_ok.2 ⟨x.code_lt, ?_⟩
    rw [Instr.operands, bitField_zero_of_lt _ _ x.code_lt, Side.ofCode_code]

theorem Instr.opcode_lt (i : Instr) : i.opcode < 256 := by
  cases i <;> simp [Instr.opcode]

/-- A word is split into the opcode byte and the operands above it. -/
theorem decode_ofNat {op x : Nat} (hop : op < 256) (hx : x < 2 ^ 64) :
    decode (BitVec.ofNat 72 (op + 256 * x)) = decodeFields op x := by
  have hw : op + 256 * x < 2 ^ 72 := by omega
  rw [decode, BitVec.toNat_ofNat, Nat.mod_eq_of_lt hw]
  congr 1 <;> omega

end Sys2Proof

section
open Sys2Proof Sys2Proof.Machine

/-- Settles O1: the fields of a well-formed row fit in the word and are read back. -/
theorem decodeOfEncode : Obligations.DecodeOfEncode := by
  intro i h
  have hfields := decodeFields_encoding i h
  exact (decode_ofNat i.opcode_lt (operands_lt_of_decodeFields hfields)).trans hfields

/-- Settles O2: the opcode byte and the operands that decoded are those of the row read from them. -/
theorem encodeOfDecode : Obligations.EncodeOfDecode := by
  intro w i h
  obtain ⟨hopcode, hoperands, hwf⟩ := encoding_of_decodeFields h
  refine ⟨hwf, ?_⟩
  rw [encode, hopcode, hoperands, Nat.mod_add_div, BitVec.ofNat_toNat, BitVec.setWidth_eq]

/-- Settles O3: each word decodes as it stands. -/
theorem wordsOfTheTableDecode : Obligations.WordsOfTheTableDecode := by
  refine ⟨?_, ?_, ?_, ?_, ?_, ?_, ?_⟩ <;> rfl

/-- Settles O5: the placed word is the first one waiting, and the words behind it are those that waited before. -/
theorem fetchWordRunsNext : Obligations.FetchWordRunsNext := by
  intro s nbits w i h
  have hdecode : decode (tableWord nbits w) = .ok i := by
    unfold decodeTableWord at h
    split at h <;> cases h
    assumption
  have hfetch : fetch (s.withFetchWord nbits w) = .given i s.program := by
    simp [fetch, State.withFetchWord, hdecode]
  rw [step, hfetch]
  rfl

end

namespace Sys2Proof.Machine

/-! ## The check of the frame's two pairs (R85, R138) -/

theorem checkPair_eq_true {a b : Byte} : checkPair a b = true ↔ a + b = 0xFF := by
  simp [checkPair, add8]

/-- The three outcomes of the check: both pairs add up, the address pair does not, or only the command pair does not. -/
theorem checkPayload_of_pairs (c : Params) {d : Payload} (ha : d.d0 + d.d1 = 0xFF) (hc : d.d2 + d.d3 = 0xFF) :
    checkPayload c d = .decoded (actionFor c d.d2) := by
  simp [checkPayload, checkPair_eq_true.2 ha, checkPair_eq_true.2 hc]

theorem checkPayload_of_address (c : Params) {d : Payload} (ha : d.d0 + d.d1 ≠ 0xFF) :
    checkPayload c d = .aborted .checksumAddress := by
  simp [checkPayload, mt checkPair_eq_true.1 ha]

theorem checkPayload_of_command (c : Params) {d : Payload} (ha : d.d0 + d.d1 = 0xFF) (hc : d.d2 + d.d3 ≠ 0xFF) :
    checkPayload c d = .aborted .checksumCommand := by
  simp [checkPayload, checkPair_eq_true.2 ha, mt checkPair_eq_true.1 hc]

/-- A byte and another add up to `0xFF` when one is the other's complement (R85). -/
theorem byte_add_eq_ff_iff (a b : Byte) : a + b = 0xFF ↔ b = ~~~a := by
  rw [← BitVec.toNat_inj, ← BitVec.toNat_inj]
  have ha := a.isLt
  have hb := b.isLt
  have hff : (0xFF : Byte).toNat = 255 := rfl
  rw [BitVec.toNat_add, BitVec.toNat_not, hff]
  omega

/-! ## Bits by their run counts (R81) -/

/-- The counts of a bit's symbol are below the caps, and the high count tells the bit. -/
theorem bit_of_counts {c : Params} {v : Bool} {cl ch : Nat}
    (h : if v then isBit1 c cl ch = true else isBit0 c cl ch = true) :
    (cl < c.bitLowMax ∧ ch < c.bitHighMax) ∧ decide (ch > c.bitThreshold) = v := by
  cases v <;> simp [isBit0, isBit1] at h ⊢ <;> omega

/-- The free counts of a `NEC_FRAME` are those of a start mark and of the symbols of its bits (R81). -/
theorem freeStart_isStart {c : Params} (hc : c.legal = true) (k : Nat) :
    isStart c (Config.freeCount k % c.startLowMax) (Config.freeCount (k + 1) % c.startHighMax) = true := by
  simp only [Params.legal, Bool.and_eq_true, decide_eq_true_eq] at hc
  simp only [isStart, Bool.and_eq_true, decide_eq_true_eq]
  exact ⟨Nat.mod_lt _ (by omega), Nat.mod_lt _ (by omega)⟩

theorem freeBitRuns_isBit {c : Params} (hc : c.legal = true) (k j : Nat) (v : Bool) :
    if v then isBit1 c (freeBitRuns c k j v).1 (freeBitRuns c k j v).2 = true
      else isBit0 c (freeBitRuns c k j v).1 (freeBitRuns c k j v).2 = true := by
  simp only [Params.legal, Bool.and_eq_true, decide_eq_true_eq] at hc
  have hlow : Config.freeCount (k + 2 * j) % c.bitLowMax < c.bitLowMax := Nat.mod_lt _ (by omega)
  have hone : Config.freeCount (k + 2 * j + 1) % (c.bitHighMax - (c.bitThreshold + 1))
      < c.bitHighMax - (c.bitThreshold + 1) := Nat.mod_lt _ (by omega)
  have hzero : Config.freeCount (k + 2 * j + 1) % (c.bitThreshold + 1) < c.bitThreshold + 1 := Nat.mod_lt _ (by omega)
  cases v <;> simp [isBit0, isBit1, freeBitRuns, hlow] <;> omega

/-! ## A whole frame in one `poll` (R82, R136, R138) -/

/-- Where an attempt stands is the same from an earlier state, with the samples in between. -/
theorem StandsAt.from_earlier {m n : Nat} {s t u : State} {ph : IrPhase} {i : Fin 32} {d : Payload} {line : List Level}
    (h : StandsAt t n u ph i d line) (hd : Decoded m s t) : StandsAt s (m + n) u ph i d line :=
  ⟨hd.trans h.dec, h.phase, h.idx, h.data, h.line⟩

/-- The last bit's two runs are followed by the check, which ends the attempt. -/
theorem decodePhase_lastBit (s : State) (cl ch : Nat) (rest) (hp : s.irdec.phase = .bitLow) (hi : s.irdec.bitIdx = 31)
    (h1 : cl < s.cfg.bitLowMax) (h2 : ch < s.cfg.bitHighMax) (h : s.env.line = runPair cl ch ++ rest) :
    (decodePhase (decodePhase s)).irdec.phase = .check
    ∧ ∃ d, d = s.irdec.data.setBit 31 (decide (ch > s.cfg.bitThreshold))
      ∧ StandsAt s (cl + ch) (decodePhase (decodePhase (decodePhase s))) .idle 31 d rest
      ∧ (decodePhase (decodePhase (decodePhase s))).result = .polled (checkPayload s.cfg d) := by
  obtain ⟨t, ht, hd, hline, -, hdata, -, hlast⟩ := decodePhase_bit s cl ch rest hp h1 h2 h
  obtain ⟨hphase, hidx⟩ := hlast (by rw [hi]; decide)
  have hcheck : decodePhase t = returnPoll (checkPayload t.cfg t.irdec.data) t := by rw [decodePhase, hphase]
  rw [ht, hcheck, hd.later.cfg, hdata, hi]
  rw [hi] at hdata
  refine ⟨hphase, _, rfl, ⟨hd.trans (returnPoll_decoded _ t), rfl, hidx.trans hi, hdata, hline⟩, rfl⟩

/-- A `poll` on a frame whose counts are those of the bits of `d` assembles `d` and checks it (R82, R136, R138). -/
theorem poll_frame (s : State) (sl sh : Nat) (runs : Nat → Nat × Nat) (d : Payload) (rest : List Level)
    (hidle : s.irdec.phase = .idle) (hstart : isStart s.cfg sl sh = true)
    (hbits : ∀ j, j < 32 → if d.bit j then isBit1 s.cfg (runs j).1 (runs j).2 = true
      else isBit0 s.cfg (runs j).1 (runs j).2 = true)
    (hline : s.env.line = frameSamples sl sh runs ++ rest) :
    StandsAt s (sl + sh + ((List.range 32).map fun j => (runs j).1 + (runs j).2).sum) (poll s) .idle 31 d rest
      ∧ (poll s).result = .polled (checkPayload s.cfg d) := by
  have hcaps : ∀ j, j < 32 → (runs j).1 < s.cfg.bitLowMax ∧ (runs j).2 < s.cfg.bitHighMax :=
    fun j hj => (bit_of_counts (hbits j hj)).1
  have hline' : s.env.line
      = .low :: (runPair sl sh ++ bitSamples runs 0 31 ++ (runPair (runs 31).1 (runs 31).2 ++ rest)) := by
    rw [hline, frameSamples, bitSamples_append runs 0 31 1]
    simp [bitSamples]
  obtain ⟨t, hpoll, hd, hphase, hidx, htline, hdata⟩ :=
    poll_up_to_bit s sl sh runs 31 _ (Nat.le_refl 31) hidle hstart (fun j hj => hcaps j (by omega)) hline'
  have hcfg : t.cfg = s.cfg := hd.later.cfg
  have hlow : (runs 31).1 < t.cfg.bitLowMax := by rw [hcfg]; exact (hcaps 31 (by decide)).1
  have hhigh : (runs 31).2 < t.cfg.bitHighMax := by rw [hcfg]; exact (hcaps 31 (by decide)).2
  have hgoes := decodePhase_low_goes_on t _ _ _ (.inr ⟨hphase, hlow⟩) htline
  obtain ⟨hcheck, e, he, hstands, hresult⟩ := decodePhase_lastBit t _ _ _ hphase (Fin.ext hidx) hlow hhigh htline
  have hrun : poll s = decodePhase (decodePhase (decodePhase t)) := by
    rw [hpoll, runPhases_step _ _ (by rw [hphase]; decide), runPhases_step _ _ hgoes,
      runPhases_step _ _ (by rw [hcheck]; decide), runPhases]
  have hed : e = d := by
    refine Payload.ext_bits e d fun j hj => ?_
    rw [he, Payload.bit_setBit _ _ _ _ (by decide) hj, hdata j hj, hcfg, ← (bit_of_counts (hbits j hj)).2]
    by_cases hlast : j = 31
    · rw [if_pos hlast, hlast]
    · rw [if_neg hlast, if_pos (by omega)]
  subst hed
  have hsum : bitCounts runs 0 31 + ((runs 31).1 + (runs 31).2)
      = ((List.range 32).map fun j => (runs j).1 + (runs j).2).sum := by
    rw [bitCounts_range, List.range_succ (n := 31)]
    simp only [List.map_append, List.map_cons, List.map_nil, List.sum_append, List.sum_singleton, Nat.zero_add]
  rw [hrun, ← hsum, ← Nat.add_assoc]
  exact ⟨hstands.from_earlier hd, by rw [hresult, hcfg]⟩

theorem exec_poll_of_idle {s : State} (hidle : s.irdec.phase = .idle) (hr : readable s .ir = true) :
    exec .poll s = .next (poll s) := by
  rw [exec_poll hr, runPoll, if_pos hidle]

theorem exec_necFrame {s : State} (a an c cn : Byte) (hidle : s.irdec.phase = .idle) (hr : readable s .ir = true) :
    exec (.necFrame a an c cn) s = .next (poll (useFree 66
      (present (freeFrame s.cfg s.env.freeUsed { d0 := a, d1 := an, d2 := c, d3 := cn }) s))) := by
  simp [exec, execNecFrame, afterAttempt, needInput, hidle, hr]

end Sys2Proof.Machine

section
open Sys2Proof Sys2Proof.Machine

/-- Settles O18: the frame's 32 bits are assembled one by one, and the three outcomes are those of the check. -/
theorem pollDecodesEveryFrame : Obligations.PollDecodesEveryFrame := by
  intro s sl sh runs d rest hidle hr hstart hbits hline
  obtain ⟨⟨hd, hphase, -, hdata, htline⟩, hresult⟩ := poll_frame s sl sh runs d rest hidle hstart hbits hline
  refine ⟨_, exec_poll_of_idle hidle hr, hdata, hphase, htline, fun ha hc => ?_, fun ha => ?_, fun ha hc => ?_, hd.time,
    hd.frame⟩
  · rw [hresult, checkPayload_of_pairs _ ha hc]
  · rw [hresult, checkPayload_of_address _ ha]
  · rw [hresult, checkPayload_of_command _ ha hc]

/-- Settles O28: the free counts lie in their symbols' ranges, so the row's one `poll` decodes the frame they make. -/
theorem necFrameIsDecoded : Obligations.NecFrameIsDecoded := by
  intro s a an c cn hlegal hidle hr
  obtain ⟨⟨hd, hphase, -, hdata, htline⟩, hresult⟩ :=
    poll_frame (useFree 66 (present (freeFrame s.cfg s.env.freeUsed { d0 := a, d1 := an, d2 := c, d3 := cn }) s)) _ _ _
      { d0 := a, d1 := an, d2 := c, d3 := cn } s.env.line hidle (freeStart_isStart hlegal _)
      (fun j _ => freeBitRuns_isBit hlegal _ j _) rfl
  have hpresented := ((present_decoded _ s).trans (useFree_decoded 66 _)).trans hd
  refine ⟨_, exec_necFrame a an c cn hidle hr, hdata, hphase, htline, fun ha hc => ?_, fun ha => ?_, fun ha hc => ?_,
    hpresented.later.clock, hpresented.frame⟩
  · rw [hresult, checkPayload_of_pairs _ ((byte_add_eq_ff_iff a an).2 ha) ((byte_add_eq_ff_iff c cn).2 hc)]
    rfl
  · rw [hresult, checkPayload_of_address _ (mt (byte_add_eq_ff_iff a an).1 ha)]
  · rw [hresult, checkPayload_of_command _ ((byte_add_eq_ff_iff a an).2 ha) (mt (byte_add_eq_ff_iff c cn).1 hc)]

end

namespace Sys2Proof.Machine

/-! ## The motor's rows (R92, R151, R156) -/

/-- The clamp leaves the sign of a percentage, which is its direction (R151). -/
theorem directionOf_eq (percent : Int) : directionOf percent = if percent < 0 then .reverse else .forward := by
  have hsign : clampPercent percent < 0 ↔ percent < 0 := by
    rw [clampPercent, clamp_eq_max_min _ _ _ (by decide)]
    omega
  simp only [directionOf, hsign]

/-- The duty of a percentage, whose size counts up to 100 (R94, R151). -/
theorem dutyOf_eq (c : Params) (percent : Int) : dutyOf c percent = c.motorPeriodUs * min percent.natAbs 100 / 100 := by
  have hsize : (clampPercent percent).natAbs = min percent.natAbs 100 := by
    rw [clampPercent, clamp_eq_max_min _ _ _ (by decide)]
    omega
  rw [dutyOf, hsize]

theorem exec_setThrottle {s : State} (percent : Int) (hidle : s.irdec.phase = .idle) :
    exec (.setThrottle percent) s = .next ((setThrottle percent s).setResult .nothing) := by
  simp [exec, execSetThrottle, afterAttempt, hidle]

theorem exec_service {s : State} (n : Nat) (hidle : s.irdec.phase = .idle) (hw1 : writable s .motIn1 = true)
    (hw2 : writable s .motIn2 = true) :
    exec (.service n) s = .next ((serviceMotor s).2.setResult (.delta (serviceMotor s).1)) := by
  simp [exec, execService, afterAttempt, needOutput, hidle, hw1, hw2]

/-- A pin code row is the two writes of its code (R92, R156). -/
theorem putCode_of_idle {s : State} (code : Level × Level) (hidle : s.irdec.phase = .idle)
    (hw1 : writable s .motIn1 = true) (hw2 : writable s .motIn2 = true) :
    putCode code s = .next ((writePins code s).setResult .nothing) := by
  simp [putCode, afterAttempt, needOutput, hidle, hw1, hw2]

/-- What the two writes of a code leave as it was, as one equation (R156). -/
theorem writePins_frame (code : Level × Level) (s : State) (r : Result) :
    (writePins code s).setResult r
      = { s with pins := (writePins code s).pins, result := r, trace := (writePins code s).trace } := by
  obtain ⟨⟨hcfg, hprogram, -, -⟩, henv, hirdec, hmotor, hl, hr, hsched, hrun, -⟩ := writePins_spec code s
  rw [State.setResult, hcfg, hprogram, henv, hirdec, hmotor, hl, hr, hsched, hrun]

/-- The code a `service` writes, by the phase it enters (R92, R152). -/
theorem serviceCode_of_driving {c : Params} {m : Motor} (h : servicePhase c m = .driving) :
    serviceCode c m = if m.direction = .forward then (.high, .low) else (.low, .high) := by
  rw [serviceCode, h]
  cases m.direction <;> rfl

theorem serviceCode_of_coasting {c : Params} {m : Motor} (h : servicePhase c m = .coasting) :
    serviceCode c m = (.low, .low) := by
  rw [serviceCode, h]
  rfl

end Sys2Proof.Machine

section
open Sys2Proof Sys2Proof.Machine

/-- Settles O31, from the sign and the size of the clamped percentage. -/
theorem setThrottleStoresTheDuty : Obligations.SetThrottleStoresTheDuty := by
  intro s percent hidle
  rw [exec_setThrottle percent hidle, setThrottle, directionOf_eq, dutyOf_eq]
  rfl

/-- Settles O35: the code written is that of the phase entered, and its two writes stand in the parameter's order. -/
theorem serviceWritesBothPinsInOrder : Obligations.ServiceWritesBothPinsInOrder := by
  intro s n hidle hw1 hw2
  obtain ⟨-, -, -, hmotor, -, -, -, -, hpins⟩ := serviceMotor_spec s
  have htrace := serviceMotor_trace s
  refine ⟨_, (serviceCode s.cfg s.motor).1, (serviceCode s.cfg s.motor).2, exec_service n hidle hw1 hw2, ?_, ?_,
    fun horder => ?_, fun horder => ?_, fun hphase => ?_, fun hphase => ?_⟩
  · simp [hpins]
  · simp [hpins]
  · simpa [motorWrites, horder] using htrace
  · simpa [motorWrites, horder] using htrace
  · rw [State.setResult_motor, hmotor] at hphase
    exact serviceCode_of_driving hphase
  · rw [State.setResult_motor, hmotor] at hphase
    exact serviceCode_of_coasting hphase

/-- Settles O37: each code's row makes the two writes of its levels. -/
theorem motorCodesStandOnThePins : Obligations.MotorCodesStandOnThePins := by
  intro s i a b hidle hw1 hw2 hcode
  have hexec : exec i s = .next ((writePins (a, b) s).setResult .nothing) := by
    rw [← putCode_of_idle (a, b) hidle hw1 hw2]
    rcases hcode with ⟨rfl, rfl, rfl⟩ | ⟨rfl, rfl, rfl⟩ | ⟨rfl, rfl, rfl⟩ | ⟨rfl, rfl, rfl⟩ <;> rfl
  obtain ⟨-, -, -, -, -, -, -, -, hpins⟩ := writePins_spec (a, b) s
  refine ⟨_, hexec, hpins, ?_, writePins_frame (a, b) s .nothing⟩
  rw [State.setResult_trace, writePins_trace, motorWrites]
  cases s.cfg.motorWriteOrder <;> simp

end

namespace Sys2Proof.Machine

/-! ## When a symbol row completes (R81) -/

/-- A symbol row whose counts are its symbol's presents its two runs to the decoder. -/
theorem exec_symbol {s : State} {i : Instr} {cl ch : Nat} (h : IsSymbol s.cfg i cl ch) (hr : readable s .ir = true) :
    exec i s = .next (receive (present (leadIn s ++ runPair cl ch) s)) := by
  rcases h with ⟨rfl, hs⟩ | ⟨rfl, hs⟩ | ⟨rfl, hs⟩
  · simp [exec, execStart, needInput, hr, hs]
  · simp [exec, execBit0, needInput, hr, hs]
  · simp [exec, execBit1, needInput, hr, hs]

theorem exec_noSymbol {s : State} (stuck : Level) (cl : Nat) (hr : readable s .ir = true) :
    exec (.noSymbol stuck cl) s = .next (receive (present (leadIn s ++ stuckSamples stuck cl s) s)) := by
  simp [exec, execNoSymbol, needInput, hr]

theorem exec_start_refused {s : State} {cl ch : Nat} (hr : readable s .ir = true) (h : isStart s.cfg cl ch = false) :
    exec (.start cl ch) s = .refused .notThatSymbol := by
  simp [exec, execStart, needInput, hr, h]

theorem exec_bit0_refused {s : State} {cl ch : Nat} (hr : readable s .ir = true) (h : isBit0 s.cfg cl ch = false) :
    exec (.bit0 cl ch) s = .refused .notThatSymbol := by
  simp [exec, execBit0, needInput, hr, h]

theorem exec_bit1_refused {s : State} {cl ch : Nat} (hr : readable s .ir = true) (h : isBit1 s.cfg cl ch = false) :
    exec (.bit1 cl ch) s = .refused .notThatSymbol := by
  simp [exec, execBit1, needInput, hr, h]

/-- The threshold that assembles a bit is the one that tells BIT1 from BIT0 (R81). -/
theorem bitOfRun_of_bit0 {c : Params} {i : Instr} {cl ch : Nat} (h : IsSymbol c i cl ch) (hi : i = .bit0 cl ch) :
    bitOfRun c ch = false := by
  subst hi
  simp [IsSymbol, isBit0, bitOfRun] at h ⊢
  omega

theorem bitOfRun_of_bit1 {c : Params} {i : Instr} {cl ch : Nat} (h : IsSymbol c i cl ch) (hi : i = .bit1 cl ch) :
    bitOfRun c ch = true := by
  subst hi
  simp [IsSymbol, isBit1, bitOfRun] at h ⊢
  omega

/-! ## Samples presented to the decoder -/

/-- `s` with `samples` to come before whatever else is on the line, and with `r` for the last result. -/
def presented (samples : List Level) (r : Result) (s : State) : State := (present samples s).setResult r

theorem presented_decoded (samples : List Level) (r : Result) (s : State) : Decoded 0 s (presented samples r s) :=
  (present_decoded samples s).trans (Decoded.of_irdec _ _ rfl)

@[simp] theorem presented_irdec (samples : List Level) (r : Result) (s : State) :
    (presented samples r s).irdec = s.irdec := rfl

@[simp] theorem presented_cfg (samples : List Level) (r : Result) (s : State) : (presented samples r s).cfg = s.cfg := rfl

@[simp] theorem presented_line (samples : List Level) (r : Result) (s : State) :
    (presented samples r s).env.line = samples ++ s.env.line := rfl

/-- The decoder's state before it measures the runs of a symbol row: an attempt is in progress, the lead-in read. -/
def attemptOn (samples : List Level) (s : State) : State :=
  beginAttempt (presented (leadIn s ++ samples) .nothing s)

theorem attemptOn_of_attempt (samples : List Level) {s : State} (h : s.irdec.phase ≠ .idle) :
    attemptOn samples s = presented samples .nothing s := by
  rw [attemptOn, leadIn, if_neg h, beginAttempt, presented_irdec, if_neg h]
  rfl

theorem attemptOn_of_idle (samples : List Level) {s : State} (h : s.irdec.phase = .idle) :
    attemptOn samples s = setPhase .startLow (presented samples .nothing (record (.pinRead .ir .low) s)) := by
  rw [attemptOn, leadIn, if_pos h, beginAttempt, presented_irdec, if_pos h]
  rfl

/-- A row's attempt stands before its first run: nothing has been sampled, and only an idle decoder's phase differs. -/
theorem attemptOn_spec (samples : List Level) (s : State) :
    StandsAt s 0 (attemptOn samples s) (if s.irdec.phase = .idle then .startLow else s.irdec.phase) s.irdec.bitIdx
        s.irdec.data (samples ++ s.env.line)
      ∧ (attemptOn samples s).result = .nothing := by
  have hd : Decoded 0 s (attemptOn samples s) := (presented_decoded _ _ s).trans (beginAttempt_spec _)
  by_cases h : s.irdec.phase = .idle
  · rw [attemptOn_of_idle samples h] at hd ⊢
    rw [if_pos h]
    exact ⟨⟨hd, rfl, rfl, rfl, rfl⟩, rfl⟩
  · rw [attemptOn_of_attempt samples h] at hd ⊢
    rw [if_neg h]
    exact ⟨⟨hd, rfl, rfl, rfl, rfl⟩, rfl⟩

/-- A symbol row runs one phase, a second one if the attempt goes on, and the check after the last bit. -/
theorem receive_eq (samples : List Level) (s : State) :
    receive (present (leadIn s ++ samples) s)
      = let s1 := decodePhase (attemptOn samples s)
        let s2 := if s1.irdec.phase = .idle then s1 else decodePhase s1
        if s2.irdec.phase = .check then decodePhase s2 else s2 := rfl

theorem receive_of_aborted {samples : List Level} {s : State} (h : (decodePhase (attemptOn samples s)).irdec.phase = .idle) :
    receive (present (leadIn s ++ samples) s) = decodePhase (attemptOn samples s) := by
  simp [receive_eq, h]

theorem receive_of_second {samples : List Level} {s : State} (h1 : (decodePhase (attemptOn samples s)).irdec.phase ≠ .idle)
    (h2 : (decodePhase (decodePhase (attemptOn samples s))).irdec.phase ≠ .check) :
    receive (present (leadIn s ++ samples) s) = decodePhase (decodePhase (attemptOn samples s)) := by
  simp [receive_eq, h1, h2]

theorem receive_of_check {samples : List Level} {s : State} (h1 : (decodePhase (attemptOn samples s)).irdec.phase ≠ .idle)
    (h2 : (decodePhase (decodePhase (attemptOn samples s))).irdec.phase = .check) :
    receive (present (leadIn s ++ samples) s) = decodePhase (decodePhase (decodePhase (attemptOn samples s))) := by
  simp [receive_eq, h1, h2]

/-- A symbol received as a bit before the last: the bit is stored and the next one awaited (R81, R83, R136). -/
theorem receive_bit {s : State} {cl ch : Nat} (hphase : s.irdec.phase = .bitLow) (hidx : s.irdec.bitIdx.val < 31)
    (h1 : cl < s.cfg.bitLowMax) (h2 : ch < s.cfg.bitHighMax) :
    ∃ t, receive (present (leadIn s ++ runPair cl ch) s) = t
      ∧ decodePhase (decodePhase (presented (runPair cl ch) .nothing s)) = t
      ∧ Decoded (cl + ch) s t ∧ t.irdec.phase = .bitLow ∧ t.irdec.bitIdx.val = s.irdec.bitIdx.val + 1
      ∧ t.irdec.data = s.irdec.data.setBit s.irdec.bitIdx.val (decide (ch > s.cfg.bitThreshold))
      ∧ t.result = .nothing ∧ t.env.line = s.env.line := by
  have hattempt := attemptOn_of_attempt (runPair cl ch) (s := s) (by rw [hphase]; decide)
  have hgoes := decodePhase_low_goes_on (presented (runPair cl ch) .nothing s) cl ch s.env.line (.inr ⟨hphase, h1⟩) rfl
  obtain ⟨t, ht, hd, hline, hresult, hdata, hnext, -⟩ :=
    decodePhase_bit (presented (runPair cl ch) .nothing s) cl ch s.env.line hphase h1 h2 rfl
  obtain ⟨htphase, htidx⟩ := hnext (by rw [presented_irdec]; omega)
  refine ⟨t, ?_, ht, ?_, htphase, by rw [htidx]; rfl, hdata, hresult, hline⟩
  · rw [← hattempt] at ht hgoes
    rw [receive_of_second hgoes (by rw [ht, htphase]; decide), ht]
  · simpa using (presented_decoded _ _ s).trans hd

/-- The symbol received as the last bit: the bit is stored and the payload checked (R82, R138). -/
theorem receive_lastBit {s : State} {cl ch : Nat} (hphase : s.irdec.phase = .bitLow) (hidx : s.irdec.bitIdx.val = 31)
    (h1 : cl < s.cfg.bitLowMax) (h2 : ch < s.cfg.bitHighMax) :
    (decodePhase (decodePhase (presented (runPair cl ch) .nothing s))).irdec.phase = .check
    ∧ ∃ t d, receive (present (leadIn s ++ runPair cl ch) s) = t
      ∧ decodePhase (decodePhase (decodePhase (presented (runPair cl ch) .nothing s))) = t
      ∧ d = s.irdec.data.setBit 31 (decide (ch > s.cfg.bitThreshold))
      ∧ StandsAt s (cl + ch) t .idle 31 d s.env.line ∧ t.result = .polled (checkPayload s.cfg d) := by
  have hattempt := attemptOn_of_attempt (runPair cl ch) (s := s) (by rw [hphase]; decide)
  have hgoes := decodePhase_low_goes_on (presented (runPair cl ch) .nothing s) cl ch s.env.line (.inr ⟨hphase, h1⟩) rfl
  obtain ⟨hcheck, d, hd, hstands, hresult⟩ :=
    decodePhase_lastBit (presented (runPair cl ch) .nothing s) cl ch s.env.line hphase (Fin.ext hidx) h1 h2 rfl
  refine ⟨hcheck, _, d, ?_, rfl, hd, by simpa using hstands.from_earlier (presented_decoded _ _ s), hresult⟩
  rw [← hattempt] at hgoes hcheck ⊢
  exact receive_of_check hgoes hcheck

/-! ## Runs at their caps (R133) -/

/-- The reasons of the two runs the decoder awaits, beside their caps in `awaitedCaps` (R221). -/
def awaitedReasons (s : State) : AbortReason × AbortReason :=
  match s.irdec.phase with
  | .idle | .startLow | .startHigh => (.startLowTimeout, .startHighTimeout)
  | .bitLow | .bitHigh | .check => (.bitLowTimeout s.irdec.bitIdx, .bitHighTimeout s.irdec.bitIdx)

/-- The phase after the low run of a start mark or a bit (R135, R136). -/
def highRunOf : IrPhase → IrPhase
  | .startLow => .startHigh
  | .bitLow => .bitHigh
  | p => p

/-- What an accepted high run leads to (R136, R138). -/
def acceptHigh (s : State) : State → State := if s.irdec.phase = .startHigh then beginPayload else storeBit

theorem decodePhase_lowRun {s : State} (h : s.irdec.phase = .startLow ∨ s.irdec.phase = .bitLow) :
    decodePhase s
      = measureOrAbort .low (awaitedCaps s).1 (awaitedReasons s).1 (setPhase (highRunOf s.irdec.phase)) s := by
  rcases h with h | h <;> simp only [decodePhase, awaitedCaps, awaitedReasons, highRunOf, h]

theorem decodePhase_highRun {s : State} (h : s.irdec.phase = .startHigh ∨ s.irdec.phase = .bitHigh) :
    decodePhase s = measureOrAbort .high (awaitedCaps s).2 (awaitedReasons s).2 (acceptHigh s) s := by
  rcases h with h | h <;> simp [decodePhase, awaitedCaps, awaitedReasons, acceptHigh, h]

/-- A run at its cap ends the attempt for its reason, and keeps the payload and the bit's index (R133, R221). -/
theorem measureOrAbort_capped {level : Level} {cap : Nat} {rest : List Level} {s : State} (r : AbortReason)
    (k : State → State) (h : s.env.line = List.replicate cap level ++ rest) :
    StandsAt s cap (measureOrAbort level cap r k s) .idle s.irdec.bitIdx s.irdec.data rest
      ∧ (measureOrAbort level cap r k s).result = .polled (.aborted r) := by
  obtain ⟨hd, hirdec, -, hline, -⟩ := measureRun_cap level rest cap s h
  rw [measureOrAbort_cap level cap r k rest s h]
  refine ⟨⟨hd.trans (Decoded.of_irdec _ _ rfl), rfl, ?_, ?_, hline⟩, rfl⟩
  · rw [abortPoll, setPhase, hirdec]
    rfl
  · rw [abortPoll, setPhase, hirdec]
    rfl

/-- A low run below its cap leads to the phase of the high run (R134, R136). -/
theorem measureOrAbort_low_accepted {n cap : Nat} {rest : List Level} {s : State} (r : AbortReason) (p : IrPhase)
    (hn : n < cap) (h : s.env.line = List.replicate n .low ++ .high :: rest) :
    StandsAt s n (measureOrAbort .low cap r (setPhase p) s) p s.irdec.bitIdx s.irdec.data rest := by
  obtain ⟨hd, hirdec, -, hline, -⟩ := measureRun_ends .low .high (by decide) rest n cap hn s h
  rw [measureOrAbort_ends .low .high cap r (setPhase p) (by decide) rest n hn s h]
  refine ⟨hd.trans (setPhase_decoded p _), rfl, ?_, ?_, hline⟩
  · rw [setPhase, hirdec]
    rfl
  · rw [setPhase, hirdec]
    rfl

/-- The attempt of a symbol row awaits the runs that the decoder awaited before it. -/
theorem attemptOn_awaited (samples : List Level) (s : State) :
    awaitedCaps (attemptOn samples s) = awaitedCaps s ∧ awaitedReasons (attemptOn samples s) = awaitedReasons s := by
  by_cases h : s.irdec.phase = .idle
  · rw [attemptOn_of_idle samples h]
    simp [awaitedCaps, awaitedReasons, setPhase, record, h]
  · rw [attemptOn_of_attempt samples h]
    exact ⟨rfl, rfl⟩

theorem stuckSamples_low {stuck : Level} {cl : Nat} {s : State} (h : stuck = .low ∨ (awaitedCaps s).1 ≤ cl) :
    stuckSamples stuck cl s = List.replicate (awaitedCaps s).1 .low := by
  cases stuck with
  | low => rfl
  | high => rw [stuckSamples, if_neg (by simpa using h)]

theorem stuckSamples_high {stuck : Level} {cl : Nat} {s : State} (h : ¬(stuck = .low ∨ (awaitedCaps s).1 ≤ cl)) :
    stuckSamples stuck cl s = List.replicate cl .low ++ .high :: List.replicate (awaitedCaps s).2 .high := by
  cases stuck with
  | low => exact absurd (.inl rfl) h
  | high => rw [stuckSamples, if_pos (by simpa using h), List.append_assoc]; rfl

/-- The low run awaited reaches its cap. -/
theorem decodePhase_low_capped {s : State} {rest : List Level} (hp : s.irdec.phase = .startLow ∨ s.irdec.phase = .bitLow)
    (hline : s.env.line = List.replicate (awaitedCaps s).1 .low ++ rest) :
    StandsAt s (awaitedCaps s).1 (decodePhase s) .idle s.irdec.bitIdx s.irdec.data rest
      ∧ (decodePhase s).result = .polled (.aborted (awaitedReasons s).1) := by
  rw [decodePhase_lowRun hp]
  exact measureOrAbort_capped _ _ hline

/-- The low run awaited is accepted: the high run after it is awaited, with its own cap and reason. -/
theorem decodePhase_low_accepted {s : State} {cl : Nat} {rest : List Level}
    (hp : s.irdec.phase = .startLow ∨ s.irdec.phase = .bitLow) (hcl : cl < (awaitedCaps s).1)
    (hline : s.env.line = List.replicate cl .low ++ .high :: rest) :
    StandsAt s cl (decodePhase s) (highRunOf s.irdec.phase) s.irdec.bitIdx s.irdec.data rest
      ∧ ((decodePhase s).irdec.phase = .startHigh ∨ (decodePhase s).irdec.phase = .bitHigh)
      ∧ awaitedCaps (decodePhase s) = awaitedCaps s ∧ awaitedReasons (decodePhase s) = awaitedReasons s := by
  have hstands := measureOrAbort_low_accepted (awaitedReasons s).1 (highRunOf s.irdec.phase) hcl hline
  rw [← decodePhase_lowRun hp] at hstands
  refine ⟨hstands, ?_⟩
  obtain ⟨hd, hphase, hidx, -, -⟩ := hstands
  rcases hp with h | h <;> simp [awaitedCaps, awaitedReasons, hphase, highRunOf, h, hidx, hd.later.cfg]

/-- The low run awaited is accepted, and the high run after it reaches its cap. -/
theorem decodePhase_high_capped {s : State} {cl : Nat} {rest : List Level}
    (hp : s.irdec.phase = .startLow ∨ s.irdec.phase = .bitLow) (hcl : cl < (awaitedCaps s).1)
    (hline : s.env.line = List.replicate cl .low ++ .high :: (List.replicate (awaitedCaps s).2 .high ++ rest)) :
    (decodePhase s).irdec.phase ≠ .idle
      ∧ StandsAt s (cl + (awaitedCaps s).2) (decodePhase (decodePhase s)) .idle s.irdec.bitIdx s.irdec.data rest
      ∧ (decodePhase (decodePhase s)).result = .polled (.aborted (awaitedReasons s).2) := by
  obtain ⟨⟨hd, -, hidx, hdata, hline'⟩, hhigh, hcaps, hreasons⟩ := decodePhase_low_accepted hp hcl hline
  rw [← hcaps] at hline'
  obtain ⟨hstands, hresult⟩ :=
    measureOrAbort_capped (awaitedReasons (decodePhase s)).2 (acceptHigh (decodePhase s)) hline'
  rw [← decodePhase_highRun hhigh] at hstands hresult
  rw [hidx, hdata, hcaps] at hstands
  exact ⟨by rcases hhigh with h | h <;> simp [h], hstands.from_earlier hd, by rw [hresult, hreasons]⟩

/-- `NO_SYMBOL` ends the attempt at the run that reaches its cap (R133). -/
theorem receive_stuck (stuck : Level) (cl : Nat) {s : State} (hp : s.irdec.phase = .idle ∨ s.irdec.phase = .bitLow) :
    ∃ n t, receive (present (leadIn s ++ stuckSamples stuck cl s) s) = t
      ∧ StandsAt s n t .idle s.irdec.bitIdx s.irdec.data s.env.line
      ∧ t.result = .polled (.aborted
          (if stuck = .low ∨ (awaitedCaps s).1 ≤ cl then (awaitedReasons s).1 else (awaitedReasons s).2)) := by
  obtain ⟨⟨hd, hphase, hidx, hdata, hline⟩, -⟩ := attemptOn_spec (stuckSamples stuck cl s) s
  obtain ⟨hcaps, hreasons⟩ := attemptOn_awaited (stuckSamples stuck cl s) s
  have hlow : (attemptOn (stuckSamples stuck cl s) s).irdec.phase = .startLow
      ∨ (attemptOn (stuckSamples stuck cl s) s).irdec.phase = .bitLow := by
    rcases hp with h | h <;> simp [hphase, h]
  have haborted := receive_of_aborted (samples := stuckSamples stuck cl s) (s := s)
  have hsecond := receive_of_second (samples := stuckSamples stuck cl s) (s := s)
  generalize attemptOn (stuckSamples stuck cl s) s = u at *
  rw [← hcaps, ← hreasons, ← hidx, ← hdata]
  by_cases h : stuck = .low ∨ (awaitedCaps s).1 ≤ cl
  · rw [stuckSamples_low h, ← hcaps] at hline
    rw [← hcaps] at h
    obtain ⟨hstands, hresult⟩ := decodePhase_low_capped hlow hline
    rw [if_pos h]
    exact ⟨_, _, haborted hstands.phase, hstands.from_earlier hd, hresult⟩
  · rw [stuckSamples_high h, ← hcaps, List.append_assoc] at hline
    rw [← hcaps] at h
    obtain ⟨hgoes, hstands, hresult⟩ := decodePhase_high_capped hlow (by omega) hline
    rw [if_neg h]
    exact ⟨_, _, hsecond hgoes (by rw [hstands.phase]; decide), hstands.from_earlier hd, hresult⟩

end Sys2Proof.Machine

section
open Sys2Proof Sys2Proof.Machine

/-- Settles O27, row by row: the ranges of R81 are what each row asks for. -/
theorem symbolOutOfRangeIsRefused : Obligations.SymbolOutOfRangeIsRefused := by
  refine fun s cl ch hr => ⟨fun h => exec_start_refused hr ?_, fun h => exec_bit0_refused hr ?_,
    fun h => exec_bit1_refused hr ?_⟩
  · simpa [isStart] using h
  · simpa [isBit0, and_assoc] using h
  · simpa [isBit1, and_assoc] using h

/-- Settles O23: the row's two runs are the two phases of one bit. -/
theorem symbolStoresItsBit : Obligations.SymbolStoresItsBit := by
  intro s i cl ch hsymbol hphase hidx hr h1 h2
  obtain ⟨t, ht, -, hd, htphase, htidx, hdata, hresult, hline⟩ := receive_bit hphase hidx h1 h2
  have hbit : ∀ j, j < 32 → t.irdec.data.bit j
      = if j = s.irdec.bitIdx.val then bitOfRun s.cfg ch else s.irdec.data.bit j := fun j hj => by
    rw [hdata, Payload.bit_setBit _ _ _ _ s.irdec.bitIdx.isLt hj, bitOfRun]
  have hown := (hbit _ s.irdec.bitIdx.isLt).trans (if_pos rfl)
  refine ⟨t, (exec_symbol hsymbol hr).trans (congrArg _ ht), htphase, htidx, fun hi => ?_, fun hi => ?_, hown,
    fun j hj hne => ?_, hresult, hline, hd.time, hd.frame⟩
  · rw [hown, bitOfRun_of_bit0 hsymbol hi]
  · rw [hown, bitOfRun_of_bit1 hsymbol hi]
  · rw [hbit j hj, if_neg hne]

/-- Settles O24: the last bit's row runs the check too. -/
theorem lastSymbolEndsTheFrame : Obligations.LastSymbolEndsTheFrame := by
  intro s i cl ch hsymbol hphase hidx hr h1 h2
  obtain ⟨-, t, d, ht, -, hd, hstands, hresult⟩ := receive_lastBit hphase hidx h1 h2
  have hbit : ∀ j, j < 32 → d.bit j = if j = 31 then decide (ch > s.cfg.bitThreshold) else s.irdec.data.bit j :=
    fun j hj => by rw [hd, Payload.bit_setBit _ _ _ _ (by decide) hj]
  refine ⟨t, d, (exec_symbol hsymbol hr).trans (congrArg _ ht), hstands.phase, hstands.data, hbit 31 (by decide),
    fun j hj => (hbit j (by omega)).trans (if_neg (by omega)), fun ha hc => ?_, fun ha => ?_, fun ha hc => ?_,
    hstands.line, hstands.dec.frame⟩
  · rw [hresult, checkPayload_of_pairs _ ha hc]
  · rw [hresult, checkPayload_of_address _ ha]
  · rw [hresult, checkPayload_of_command _ ha hc]

/-- Settles O26: the caps and the reasons awaited are the start mark's or the bit's. -/
theorem noSymbolAborts : Obligations.NoSymbolAborts := by
  intro s stuck cl hr hp
  obtain ⟨n, t, ht, hstands, hresult⟩ := receive_stuck stuck cl hp
  refine ⟨t, (exec_noSymbol stuck cl hr).trans (congrArg _ ht), hstands.phase, hstands.data, hstands.idx, hstands.line,
    ?_, hstands.dec.frame⟩
  rcases hp with h | h <;> simpa [awaitedCaps, awaitedReasons, h] using hresult

end

namespace Sys2Proof.Machine

/-! ## Samples further back on the line do not matter to the runs in front of them (R131) -/

/-- What was presented before is there no more once its samples are read. -/
theorem presented_presented_nil (rest : List Level) (r r' : Result) (s : State) :
    presented rest r (presented [] r' s) = presented rest r s := rfl

theorem readIr_presented (v : Level) (rest : List Level) (r : Result) (s : State) :
    readIr (presented (v :: rest) r s) = (v, presented rest r (record (.pinRead .ir v) s)) := rfl

theorem sleepFor_presented (d : Nat) (rest : List Level) (r : Result) (s : State) :
    sleepFor d (presented rest r s) = presented rest r (sleepFor d s) := by
  cases h : s.env.delays <;>
    simp [sleepFor, advanceTo, nextDelay, presented, present, record, State.setEnv, State.setTrace, State.setResult, h]

theorem storeBit_presented (rest : List Level) (r : Result) (s : State) :
    storeBit (presented rest r s) = presented rest r (storeBit s) := by
  by_cases h : s.irdec.bitIdx.val + 1 < 32 <;> simp [storeBit, h] <;> rfl

theorem acceptHigh_presented (u : State) (rest : List Level) (r : Result) (s : State) :
    acceptHigh u (presented rest r s) = presented rest r (acceptHigh u s) := by
  unfold acceptHigh
  split
  · rfl
  · exact storeBit_presented rest r s

/-- One sample of the run's own level is counted, and the loop goes on with the samples behind it (R131). -/
theorem measureLoop_sample_presented (level : Level) (fuel : Nat) (rest : List Level) (r : Result) (s : State) :
    measureLoop level (fuel + 1) (presented (level :: rest) r s)
      = measureLoop level fuel (presented rest r
          (sleepFor s.cfg.tSUs (setCount (s.irdec.count + 1) (record (.pinRead .ir level) s)))) := by
  rw [← sleepFor_presented, measureLoop, readIr_presented]
  exact if_neg (by simp)

/-- A run that ends is measured alike whatever stands behind it. -/
theorem measureLoop_presented {level v : Level} (hv : v ≠ level) (rest : List Level) (r r' : Result) (n fuel : Nat)
    (hn : n < fuel) (s : State) :
    measureLoop level fuel (presented (List.replicate n level ++ v :: rest) r s)
      = presented rest r (measureLoop level fuel (presented (List.replicate n level ++ [v]) r' s)) := by
  induction n generalizing fuel s with
  | zero =>
    obtain ⟨f, rfl⟩ : ∃ f, fuel = f + 1 := ⟨fuel - 1, by omega⟩
    simp [measureLoop, readIr_presented, hv, presented_presented_nil]
  | succ n ih =>
    obtain ⟨f, rfl⟩ : ∃ f, fuel = f + 1 := ⟨fuel - 1, by omega⟩
    rw [List.replicate_succ, List.cons_append, List.cons_append, measureLoop_sample_presented,
      measureLoop_sample_presented]
    exact ih f (by omega) _

theorem measureRun_presented {level v : Level} (hv : v ≠ level) (rest : List Level) (r r' : Result) {n cap : Nat}
    (hn : n < cap) (s : State) :
    measureRun level cap (presented (List.replicate n level ++ v :: rest) r s)
      = presented rest r (measureRun level cap (presented (List.replicate n level ++ [v]) r' s)) :=
  measureLoop_presented hv rest r r' n cap hn (setCount 0 s)

theorem measureOrAbort_presented {level v : Level} (hv : v ≠ level) (rest : List Level) (r r' : Result) {n cap : Nat}
    (hn : n < cap) (reason : AbortReason) {k : State → State} (hk : ∀ t, k (presented rest r t) = presented rest r (k t))
    (s : State) :
    measureOrAbort level cap reason k (presented (List.replicate n level ++ v :: rest) r s)
      = presented rest r (measureOrAbort level cap reason k (presented (List.replicate n level ++ [v]) r' s)) := by
  rw [measureOrAbort_ends level v cap reason k hv (rest ++ s.env.line) n hn _ (by simp),
    measureOrAbort_ends level v cap reason k hv s.env.line n hn _ (by simp), measureRun_presented hv rest r r' hn, hk]

theorem decodePhase_low_presented {s : State} (hp : s.irdec.phase = .startLow ∨ s.irdec.phase = .bitLow) {n : Nat}
    (hn : n < (awaitedCaps s).1) (rest : List Level) (r r' : Result) :
    decodePhase (presented (List.replicate n .low ++ .high :: rest) r s)
      = presented rest r (decodePhase (presented (List.replicate n .low ++ [.high]) r' s)) := by
  have hrun (l : List Level) (q : Result) : decodePhase (presented l q s)
      = measureOrAbort .low (awaitedCaps s).1 (awaitedReasons s).1 (setPhase (highRunOf s.irdec.phase)) (presented l q s) :=
    decodePhase_lowRun (s := presented l q s) hp
  rw [hrun, hrun]
  exact measureOrAbort_presented (level := .low) (v := .high) (by decide) rest r r' hn _ (k := setPhase _) (fun _ => rfl) s

theorem decodePhase_high_presented {s : State} (hp : s.irdec.phase = .startHigh ∨ s.irdec.phase = .bitHigh) {n : Nat}
    (hn : n < (awaitedCaps s).2) (rest : List Level) (r r' : Result) :
    decodePhase (presented (List.replicate n .high ++ .low :: rest) r s)
      = presented rest r (decodePhase (presented (List.replicate n .high ++ [.low]) r' s)) := by
  have hrun (l : List Level) (q : Result) : decodePhase (presented l q s)
      = measureOrAbort .high (awaitedCaps s).2 (awaitedReasons s).2 (acceptHigh s) (presented l q s) :=
    decodePhase_highRun (s := presented l q s) hp
  rw [hrun, hrun]
  exact measureOrAbort_presented (level := .high) (v := .low) (by decide) rest r r' hn _ (acceptHigh_presented s rest r) s

/-- Both runs of a symbol are measured alike whatever stands behind them. -/
theorem decodePhase_pair_presented {s : State} (hp : s.irdec.phase = .startLow ∨ s.irdec.phase = .bitLow) {cl ch : Nat}
    (h1 : cl < (awaitedCaps s).1) (h2 : ch < (awaitedCaps s).2) (rest : List Level) (r r' : Result) :
    decodePhase (decodePhase (presented (runPair cl ch ++ rest) r s))
      = presented rest r (decodePhase (decodePhase (presented (runPair cl ch) r' s))) := by
  have hpair (rest : List Level) : runPair cl ch ++ rest
      = List.replicate cl .low ++ .high :: (List.replicate ch .high ++ .low :: rest) := by simp [runPair]
  obtain ⟨-, hhigh, hcaps, -⟩ := decodePhase_low_accepted (s := presented (List.replicate cl .low ++ [.high]) r' s)
    (rest := s.env.line) hp h1 (by simp)
  have h2' : ch < (awaitedCaps (decodePhase (presented (List.replicate cl .low ++ [.high]) r' s))).2 := by
    rw [hcaps]
    exact h2
  have hlow (tail : List Level) (q : Result) : decodePhase (presented (runPair cl ch ++ tail) q s)
      = presented (List.replicate ch .high ++ .low :: tail) q
          (decodePhase (presented (List.replicate cl .low ++ [.high]) r' s)) := by
    rw [hpair, decodePhase_low_presented hp h1 _ q r']
  generalize decodePhase (presented (List.replicate cl .low ++ [.high]) r' s) = t at hlow hhigh h2'
  have hlow' := hlow [] r'
  rw [List.append_nil] at hlow'
  rw [hlow, hlow', decodePhase_high_presented hhigh h2' rest r r']

/-- An attempt goes through both runs of a symbol in two phases. -/
theorem runPhases_pair_presented {s : State} (hp : s.irdec.phase = .startLow ∨ s.irdec.phase = .bitLow) {cl ch : Nat}
    (h1 : cl < (awaitedCaps s).1) (h2 : ch < (awaitedCaps s).2) (n : Nat) (rest : List Level) (r r' : Result) :
    runPhases (n + 2) (presented (runPair cl ch ++ rest) r s)
      = runPhases n (presented rest r (decodePhase (decodePhase (presented (runPair cl ch) r' s)))) := by
  have hfirst : (presented (runPair cl ch ++ rest) r s).irdec.phase ≠ .idle := by
    rcases hp with h | h <;> simp [h]
  obtain ⟨-, hhigh, -, -⟩ := decodePhase_low_accepted (s := presented (runPair cl ch ++ rest) r s)
    (rest := List.replicate ch .high ++ .low :: (rest ++ s.env.line)) hp h1 (by simp [runPair])
  have hsecond : (decodePhase (presented (runPair cl ch ++ rest) r s)).irdec.phase ≠ .idle := by
    rcases hhigh with h | h <;> simp [h]
  rw [runPhases_step _ _ hfirst, runPhases_step _ _ hsecond, decodePhase_pair_presented hp h1 h2 rest r r']

/-! ## A frame row by row (R82, R140) -/

theorem readable_of_sameUnits {s t : State} (h : SameUnits s t) (p : Pin) : readable t p = readable s p := by
  rw [readable, readable, h.pins]

theorem execAll_cons_of_next {i : Instr} {is : List Instr} {s t : State} (h : exec i s = .next t) :
    execAll (i :: is) s = execAll is t := by
  rw [execAll, h]

/-- The row of bit `j` of a frame with these run counts. -/
def bitRow (c : Params) (runs : Nat → Nat × Nat) (j : Nat) : Instr :=
  if bitOfRun c (runs j).2 then .bit1 (runs j).1 (runs j).2 else .bit0 (runs j).1 (runs j).2

theorem bitRows_eq (c : Params) (runs : Nat → Nat × Nat) : bitRows c runs = (List.range' 0 32).map (bitRow c runs) := rfl

/-- Counts below the caps are those of the symbol that the threshold assembles (R81). -/
theorem bitRow_isSymbol {c : Params} {runs : Nat → Nat × Nat} {j : Nat}
    (h : (runs j).1 < c.bitLowMax ∧ (runs j).2 < c.bitHighMax) : IsSymbol c (bitRow c runs j) (runs j).1 (runs j).2 := by
  rw [bitRow]
  by_cases hbit : bitOfRun c (runs j).2 = true
  · rw [if_pos hbit]
    exact .inr (.inr ⟨rfl, by simp [bitOfRun] at hbit; simp [isBit1, h, hbit]⟩)
  · rw [if_neg hbit]
    exact .inr (.inl ⟨rfl, by simp [bitOfRun] at hbit; simp [isBit0, h, hbit]⟩)

/-- The check looks at the payload only, and its outcome is the result (R138). -/
theorem decodePhase_check_presented {s : State} (h : s.irdec.phase = .check) (r : Result) :
    decodePhase (presented [] r s) = decodePhase s := by
  rw [decodePhase, decodePhase, presented_irdec, h]
  rfl

/-- The rows of the bits from `i` to the last are the rest of an attempt on their samples. -/
theorem execAll_bitRows {c : Params} {runs : Nat → Nat × Nat}
    (hruns : ∀ j, j < 32 → (runs j).1 < c.bitLowMax ∧ (runs j).2 < c.bitHighMax) (r : Result) (n : Nat) :
    ∀ (i : Nat) (s : State), s.irdec.phase = .bitLow → s.irdec.bitIdx.val = i → i + n = 31 → s.cfg = c →
      readable s .ir = true →
      execAll ((List.range' i (n + 1)).map (bitRow c runs)) s
        = .next (runPhases (2 * n + 3) (presented (bitSamples runs i (n + 1)) r s)) := by
  induction n with
  | zero =>
    intro i s hphase hidx hi hcfg hr
    subst hcfg
    obtain ⟨h1, h2⟩ := hruns i (by omega)
    obtain ⟨hcheck, t, d, ht, hattempt, -, hstands, -⟩ := receive_lastBit hphase (by omega) h1 h2
    have hexec := (exec_symbol (bitRow_isSymbol (hruns i (by omega))) hr).trans (congrArg _ ht)
    have hcaps : awaitedCaps s = (s.cfg.bitLowMax, s.cfg.bitHighMax) := by simp [awaitedCaps, hphase]
    have hrun := runPhases_pair_presented (.inr hphase) (by rwa [hcaps]) (by rwa [hcaps]) 1 [] r .nothing
    rw [runPhases_step 0 _ (by simp [hcheck]), decodePhase_check_presented hcheck, hattempt, runPhases] at hrun
    rw [List.range'_one, List.map_singleton, execAll_cons_of_next hexec]
    exact congrArg _ hrun.symm
  | succ n ih =>
    intro i s hphase hidx hi hcfg hr
    subst hcfg
    obtain ⟨h1, h2⟩ := hruns i (by omega)
    obtain ⟨t, ht, hattempt, hd, htphase, htidx, -⟩ := receive_bit hphase (by omega) h1 h2
    have hexec := (exec_symbol (bitRow_isSymbol (hruns i (by omega))) hr).trans (congrArg _ ht)
    have hcaps : awaitedCaps s = (s.cfg.bitLowMax, s.cfg.bitHighMax) := by simp [awaitedCaps, hphase]
    have hrun := runPhases_pair_presented (.inr hphase) (by rwa [hcaps]) (by rwa [hcaps]) (2 * n + 3)
      (bitSamples runs (i + 1) (n + 1)) r .nothing
    have hrest := ih (i + 1) t htphase (by omega) (by omega) hd.later.cfg ((readable_of_sameUnits hd.units .ir).trans hr)
    rw [List.range'_succ, List.map_cons, execAll_cons_of_next hexec, hrest, ← hattempt, ← hrun]
    rfl

/-- A `poll` of an idle decoder reads the lead-in and runs an attempt on the samples after it (R132). -/
theorem poll_presented_low (s : State) (rest : List Level) :
    poll (present (.low :: rest) s)
      = runPhases phasesPerPoll (presented rest s.result (setPhase .startLow (record (.pinRead .ir .low) s))) := rfl

/-- A `poll` of an idle decoder on a start mark goes on where the row START leaves off (R134, R135). -/
theorem poll_presented_start {s : State} (hidle : s.irdec.phase = .idle) {sl sh : Nat} (hs : isStart s.cfg sl sh = true)
    (rest : List Level) :
    ∃ t, receive (present (leadIn s ++ runPair sl sh) s) = t ∧ Decoded (sl + sh) s t ∧ t.irdec.phase = .bitLow
      ∧ t.irdec.bitIdx.val = 0
      ∧ poll (present (.low :: (runPair sl sh ++ rest)) s) = runPhases 65 (presented rest s.result t) := by
  simp only [isStart, Bool.and_eq_true, decide_eq_true_eq] at hs
  obtain ⟨h1, h2⟩ := hs
  obtain ⟨⟨hd, hphase, -, -, hline⟩, -⟩ := attemptOn_spec (runPair sl sh) s
  rw [if_pos hidle] at hphase
  have hcfg : (attemptOn (runPair sl sh) s).cfg = s.cfg := hd.later.cfg
  have h1' := h1.trans_eq (congrArg Params.startLowMax hcfg).symm
  have h2' := h2.trans_eq (congrArg Params.startHighMax hcfg).symm
  have hgoes := decodePhase_low_goes_on _ sl sh _ (.inl ⟨hphase, h1'⟩) hline
  obtain ⟨t, ht, hstands, -, -⟩ := decodePhase_start _ sl sh _ hphase h1' h2' hline
  have hreceive := receive_of_second hgoes (by rw [ht, hstands.phase]; decide)
  refine ⟨t, hreceive.trans ht, by simpa using hd.trans hstands.dec, hstands.phase, by rw [hstands.idx]; rfl, ?_⟩
  rw [attemptOn_of_idle _ hidle] at ht
  rw [poll_presented_low, ← ht]
  exact runPhases_pair_presented (.inl rfl) h1 h2 65 rest s.result .nothing

end Sys2Proof.Machine

section
open Sys2Proof Sys2Proof.Machine

/-- Settles O29: START begins the attempt of the `poll`, and each of the 32 rows is two more of its phases, as the samples
further back do not matter to the runs in front. -/
theorem symbolBySymbolIsThePoll : Obligations.SymbolBySymbolIsThePoll := by
  intro s sl sh runs hidle hr hstart hruns
  obtain ⟨t, ht, hd, htphase, htidx, hpoll⟩ := poll_presented_start hidle hstart (bitSamples runs 0 32)
  have hexec := (exec_symbol (.inl ⟨rfl, hstart⟩) hr).trans (congrArg _ ht)
  have hrows := execAll_bitRows hruns s.result 31 0 t htphase htidx rfl hd.later.cfg
    ((readable_of_sameUnits hd.units .ir).trans hr)
  rw [execAll_cons_of_next hexec, bitRows_eq, hrows, exec_poll_of_idle (s := present _ s) hidle hr, frameSamples, hpoll]

end

namespace Sys2Proof.Machine

/-! ## Misuse of the boundary (U3) -/

theorem readable_eq_false {s : State} {p : Pin} (h : s.pins.mode p = none ∨ ∃ d, s.pins.mode p = some (.output d)) :
    readable s p = false := by
  rcases h with hnone | ⟨d, hout⟩
  · simp [readable, hnone]
  · simp [readable, hout, PinMode.isInput]

theorem writable_eq_false {s : State} {o : OutPin}
    (h : s.pins.mode (.out o) = none ∨ ∃ q, s.pins.mode (.out o) = some (.input q)) : writable s o = false := by
  simp only [Pins.mode] at h
  rcases h with hnone | ⟨q, hin⟩
  · simp [writable, hnone]
  · simp [writable, hin, PinMode.isInput]

theorem exec_configure_refused {s : State} {p : Pin} {m' : PinMode} (m : PinMode) (hidle : s.irdec.phase = .idle)
    (hmode : s.pins.mode p = some m') : exec (.configure p m) s = .refused (.pinReconfigured p) := by
  simp [exec, execConfigure, afterAttempt, needFresh, hidle, hmode]

theorem exec_read_refused {s : State} {p : Pin} (hr : readable s p = false) :
    exec (.read p) s = .refused (.pinNotInput p) := by
  simp [exec, execRead, needInput, hr]

/-- No mode of `PIN_IR` and no phase of the decoder makes a write to it legal. -/
theorem exec_write_ir_refused (v : Level) (s : State) : exec (.write .ir v) s = .refused (.pinNotOutput .ir) := rfl

theorem exec_write_refused {s : State} {o : OutPin} (v : Level) (hidle : s.irdec.phase = .idle)
    (hw : writable s o = false) : exec (.write (.out o) v) s = .refused (.pinNotOutput (.out o)) := by
  simp [exec, execWrite, afterAttempt, needOutput, hidle, hw]

end Sys2Proof.Machine

section
open Sys2Proof Sys2Proof.Machine

/-- Settles O7: each guard of the boundary answers for its own misuse, as an idle decoder has no attempt to finish first. -/
theorem pinMisuseIsRefused : Obligations.PinMisuseIsRefused :=
  ⟨fun _ _ m _ hidle hmode => exec_configure_refused m hidle hmode,
    fun _ _ hmode => exec_read_refused (readable_eq_false hmode),
    fun s v => exec_write_ir_refused v s,
    fun _ _ v hidle hmode => exec_write_refused v hidle (writable_eq_false hmode)⟩

end

/-! # Proofs of the family 41_ir_decoder: runs, the ends and the length of a `poll`, symbols, and the iteration for ever -/

namespace Sys2Proof.Machine

/-! ## The pins through an iteration (R28, R31, R198) -/

/-- The pins are ready, the motor is commanded forward only, and each latch is what the recorded phase of its unit says. -/
structure PinsAgree (s : State) : Prop where
  ready : s.PinsReady
  forward : s.motor.direction = .forward
  motIn1 : s.pins.motIn1.latch = levelOfMotor s.motor.phase
  motIn2 : s.pins.motIn2.latch = .low
  srvL : s.pins.srvL.latch = levelOfPulse s.servoL.pulsePhase
  srvR : s.pins.srvR.latch = levelOfPulse s.servoR.pulsePhase

theorem settled_iff (s : State) : s.Settled ↔ s.InRange ∧ s.run = .running ∧ s.program = [] ∧ PinsAgree s := by
  constructor
  · rintro ⟨range, ready, run, program, forward, motIn1, motIn2, srvL, srvR⟩
    exact ⟨range, run, program, ready, forward, motIn1, motIn2, srvL, srvR⟩
  · rintro ⟨range, run, program, ready, forward, motIn1, motIn2, srvL, srvR⟩
    exact ⟨range, ready, run, program, forward, motIn1, motIn2, srvL, srvR⟩

/-- Readiness is a matter of the modes, which no write to a latch changes (R111). -/
theorem State.PinsReady.of_modes {s t : State} (h : s.PinsReady) (hir : t.pins.irMode = s.pins.irMode)
    (hout : ∀ o, (t.pins.cell o).mode = (s.pins.cell o).mode) : t.PinsReady := by
  simpa only [State.PinsReady, readable, writable, Pins.mode, hir, hout] using h

theorem PinsAgree.congr {s t : State} (h : PinsAgree s) (hmotor : t.motor = s.motor) (hl : t.servoL = s.servoL)
    (hr : t.servoR = s.servoR) (hpins : t.pins = s.pins) : PinsAgree t := by
  obtain ⟨ready, forward, motIn1, motIn2, srvL, srvR⟩ := h
  refine ⟨ready.of_modes (by rw [hpins]) fun o => by rw [hpins], ?_, ?_, ?_, ?_, ?_⟩ <;> simpa only [hmotor, hl, hr, hpins]

theorem readNow_pinsAgree {s : State} (h : PinsAgree s) : PinsAgree (readNow s) := by
  obtain ⟨-, -, hmotor, hl, hr, hpins, -⟩ := readNow_spec s
  exact h.congr hmotor hl hr hpins

theorem pollAndApply_pinsAgree {s : State} (h : PinsAgree s) : PinsAgree (pollAndApply s) := by
  obtain ⟨-, -, hmotor, hl, hr, hpins, -⟩ := pollAndApply_spec s
  exact h.congr hmotor hl hr hpins

/-- The throttle command is never negative, so the gate commands forward whether it is open or shut (R198). -/
theorem gateThrottle_pinsAgree {s : State} (hrange : s.InRange) (h : PinsAgree s) : PinsAgree (gateThrottle s) := by
  obtain ⟨-, -, -, -, -, hmin, hmax⟩ := hrange
  rw [gateThrottle_eq s hmin hmax]
  exact ⟨h.ready, rfl, h.motIn1, h.motIn2, h.srvL, h.srvR⟩

/-- An `update` records the level it has just driven (R31, R177). -/
theorem levelOfPulse_emittedPhase (ph : PulsePhase) : levelOfPulse (emittedPhase ph) = emittedLevel ph := by
  cases ph <;> rfl

theorem dispatchServoL_pinsAgree {s : State} (h : PinsAgree s) : PinsAgree (dispatchServoL s) := by
  obtain ⟨-, -, hmotor, hr, -, -, early, due⟩ := dispatchServoL_spec s
  rcases Nat.lt_or_ge s.sched.now s.sched.nextServoL with hnow | hnow
  · rwa [early hnow]
  · obtain ⟨hl, -, hpins, -⟩ := due hnow
    refine ⟨h.ready.of_modes (by rw [hpins]) fun o => ?_, ?_, ?_, ?_, ?_, ?_⟩
    · rw [hpins]
      cases o <;> rfl
    · rw [hmotor, h.forward]
    · rw [hpins, hmotor, h.motIn1]
    · rw [hpins, h.motIn2]
    · rw [hpins, hl, levelOfPulse_emittedPhase]
    · rw [hpins, hr, h.srvR]

theorem dispatchServoR_pinsAgree {s : State} (h : PinsAgree s) : PinsAgree (dispatchServoR s) := by
  obtain ⟨-, -, hmotor, hl, -, -, early, due⟩ := dispatchServoR_spec s
  rcases Nat.lt_or_ge s.sched.now s.sched.nextServoR with hnow | hnow
  · rwa [early hnow]
  · obtain ⟨hr, -, hpins, -⟩ := due hnow
    refine ⟨h.ready.of_modes (by rw [hpins]) fun o => ?_, ?_, ?_, ?_, ?_, ?_⟩
    · rw [hpins]
      cases o <;> rfl
    · rw [hmotor, h.forward]
    · rw [hpins, hmotor, h.motIn1]
    · rw [hpins, h.motIn2]
    · rw [hpins, hl, h.srvL]
    · rw [hpins, hr, levelOfPulse_emittedPhase]

/-- The code a `service` writes for a motor commanded forward leaves `PIN_MOT_IN2` low (R92, R152). -/
theorem serviceCode_of_forward {c : Params} {m : Motor} (h : m.direction = .forward) :
    serviceCode c m = (levelOfMotor (servicePhase c m), .low) := by
  rw [serviceCode]
  cases servicePhase c m with
  | driving => rw [h]; rfl
  | coasting => rfl

theorem dispatchMotor_pinsAgree {s : State} (h : PinsAgree s) : PinsAgree (dispatchMotor s) := by
  obtain ⟨-, -, hl, hr, -, -, early, due⟩ := dispatchMotor_spec s
  rcases Nat.lt_or_ge s.sched.now s.sched.nextMotor with hnow | hnow
  · rwa [early hnow]
  · obtain ⟨hmotor, -, hpins, -⟩ := due hnow
    rw [serviceCode_of_forward h.forward] at hpins
    refine ⟨h.ready.of_modes (by rw [hpins]) fun o => ?_, ?_, ?_, ?_, ?_, ?_⟩
    · rw [hpins]
      cases o <;> rfl
    · rw [hmotor, h.forward]
    · rw [hpins, hmotor]
    · rw [hpins]
    · rw [hpins, hl, h.srvL]
    · rw [hpins, hr, h.srvR]

theorem sleepToSoonest_pinsAgree {s : State} (h : PinsAgree s) : PinsAgree (sleepToSoonest s) := by
  obtain ⟨-, units, -⟩ := sleepToSoonest_spec s
  exact h.congr units.motor units.servoL units.servoR units.pins

/-- Each of the five steps keeps the pins in agreement with the recorded phases (R190). -/
theorem iterateState_pinsAgree {s : State} (hrange : s.InRange) (h : PinsAgree s) : PinsAgree (iterateState s) :=
  have polled := pollAndApply_pinsAgree (readNow_pinsAgree h)
  have gated := gateThrottle_pinsAgree (pollAndApply_inRange (readNow_inRange hrange)) polled
  sleepToSoonest_pinsAgree (dispatchMotor_pinsAgree (dispatchServoR_pinsAgree (dispatchServoL_pinsAgree gated)))

theorem iterateState_settled {s : State} (h : s.Settled) : (iterateState s).Settled := by
  rw [settled_iff] at h ⊢
  obtain ⟨range, run, program, agree⟩ := h
  obtain ⟨later, -, hrun⟩ := iterateState_spec s
  exact ⟨iterateState_inRange range, hrun.trans run, later.program.trans program, iterateState_pinsAgree range agree⟩

theorem State.Settled.setResult {s : State} (h : s.Settled) (r : Result) : (s.setResult r).Settled := h

/-- With no word waiting a running block iterates (R190, R205). -/
theorem step_iterates {s : State} (hprogram : s.program = []) (hrun : s.run = .running) : step s = exec .iterate s := by
  simp only [step, fetch, hprogram, hrun, ownOp]

end Sys2Proof.Machine

section
open Sys2Proof Sys2Proof.Machine

/-- Settles O56: the step is an iteration, which the pins' modes let complete, and each of its five steps keeps what a settled
state asks for. -/
theorem schedulerNeverStops : Obligations.SchedulerNeverStops := by
  intro s h
  obtain ⟨-, hrun, hprogram, hagree⟩ := (settled_iff s).1 h
  obtain ⟨-, hidle, -⟩ := iterateState_spec s
  refine ⟨_, (step_iterates hprogram hrun).trans (exec_iterate s hagree.ready),
    (iterateState_settled h).setResult .nothing, ?_⟩
  rw [State.setResult_irdec, hidle]

end

namespace Sys2Proof.Machine

/-! ## A `poll` on a line seen low (R132), and runs at their caps in it (R133) -/

/-- A `poll` that sees the line low is an attempt from the start mark's low run on. -/
theorem poll_of_low {s : State} {rest : List Level} (hline : s.env.line = .low :: rest) :
    ∃ t, poll s = runPhases phasesPerPoll t ∧ StandsAt s 0 t .startLow s.irdec.bitIdx s.irdec.data rest := by
  have hread := readIr_cons s .low rest hline
  have hd := (readIr_decoded s).trans (setPhase_decoded .startLow (readIr s).2)
  rw [hread] at hd
  exact ⟨_, by rw [poll, hread], hd, rfl, rfl, rfl, rfl⟩

/-- A `poll` on a start mark and `i` accepted bits has the two runs of bit `i` and the check to go at least. -/
theorem poll_before_bit {s : State} {sl sh : Nat} {runs : Nat → Nat × Nat} {i : Fin 32} {rest : List Level}
    (hidle : s.irdec.phase = .idle) (hstart : isStart s.cfg sl sh = true)
    (hruns : ∀ j, j < i.val → (runs j).1 < s.cfg.bitLowMax ∧ (runs j).2 < s.cfg.bitHighMax)
    (hline : s.env.line = .low :: (runPair sl sh ++ bitSamples runs 0 i.val ++ rest)) :
    ∃ k t n d, poll s = runPhases (k + 2) t ∧ StandsAt s n t .bitLow i d rest := by
  have hi := i.isLt
  obtain ⟨t, hpoll, hd, hphase, hidx, htline, -⟩ :=
    poll_up_to_bit s sl sh runs i.val rest (by omega) hidle hstart hruns hline
  rw [show 65 - 2 * i.val = 63 - 2 * i.val + 2 by omega] at hpoll
  exact ⟨_, t, _, _, hpoll, hd, hphase, Fin.ext hidx, rfl, htline⟩

section
variable {s t u : State} {n k : Nat} {i : Fin 32} {d : Payload} {rest line : List Level} {ph : IrPhase}

/-- The caps and reasons awaited in the start mark's low run, and in that of bit `i` (R81, R221). -/
theorem StandsAt.awaited_startLow (h : StandsAt s n t .startLow i d line) :
    awaitedCaps t = (s.cfg.startLowMax, s.cfg.startHighMax)
      ∧ awaitedReasons t = (.startLowTimeout, .startHighTimeout) := by
  simp [awaitedCaps, awaitedReasons, h.phase, h.dec.later.cfg]

theorem StandsAt.awaited_bitLow (h : StandsAt s n t .bitLow i d line) :
    awaitedCaps t = (s.cfg.bitLowMax, s.cfg.bitHighMax)
      ∧ awaitedReasons t = (.bitLowTimeout i, .bitHighTimeout i) := by
  simp [awaitedCaps, awaitedReasons, h.phase, h.idx, h.dec.later.cfg]

variable {capLow capHigh : Nat} {low high : AbortReason} (hp : ph = .startLow ∨ ph = .bitLow)
  (hawaited : awaitedCaps t = (capLow, capHigh) ∧ awaitedReasons t = (low, high)) (hrun : u = runPhases (k + 2) t)
include hp hawaited hrun

/-- An attempt before a low run that reaches its cap ends there (R133). -/
theorem StandsAt.low_capped (h : StandsAt s n t ph i d (List.replicate capLow .low ++ rest)) :
    StandsAt s (n + capLow) u .idle i d rest ∧ u.result = .polled (.aborted low) := by
  obtain ⟨hd, hphase, rfl, rfl, hline⟩ := h
  obtain ⟨hcaps, hreasons⟩ := hawaited
  rw [← hphase] at hp
  obtain ⟨hstands, hresult⟩ := decodePhase_low_capped hp (rest := rest) (by rw [hcaps, hline])
  rw [hcaps] at hstands
  rw [hreasons] at hresult
  rw [hrun, runPhases_step _ t (by rcases hp with h | h <;> simp [h]), runPhases_idle _ _ hstands.phase]
  exact ⟨hstands.from_earlier hd, hresult⟩

/-- An attempt before a low run below its cap and a high run that reaches its own ends there (R133). -/
theorem StandsAt.high_capped {cl : Nat} (hcl : cl < capLow)
    (h : StandsAt s n t ph i d (List.replicate cl .low ++ .high :: (List.replicate capHigh .high ++ rest))) :
    StandsAt s (n + (cl + capHigh)) u .idle i d rest ∧ u.result = .polled (.aborted high) := by
  obtain ⟨hd, hphase, rfl, rfl, hline⟩ := h
  obtain ⟨hcaps, hreasons⟩ := hawaited
  rw [← hphase] at hp
  obtain ⟨hgoes, hstands, hresult⟩ :=
    decodePhase_high_capped hp (cl := cl) (rest := rest) (by rwa [hcaps]) (by rw [hcaps, hline])
  rw [hcaps] at hstands
  rw [hreasons] at hresult
  rw [hrun, runPhases_step _ t (by rcases hp with h | h <;> simp [h]), runPhases_step _ _ hgoes,
    runPhases_idle _ _ hstands.phase]
  exact ⟨hstands.from_earlier hd, hresult⟩

end

/-- The fast path: a line seen high is no signal (R132). -/
theorem poll_of_high {s : State} {rest : List Level} (hline : s.env.line = .high :: rest) :
    poll s = { s with
      env := { s.env with line := rest }, result := .polled .noSignal, trace := .pinRead .ir .high :: s.trace } := by
  rw [poll, readIr_cons s .high rest hline]
  rfl

end Sys2Proof.Machine

section
open Sys2Proof Sys2Proof.Machine

/-- Settles O12, from what `measure_run` does on a run that ends below its cap. -/
theorem measureRunCountsTheRun : Obligations.MeasureRunCountsTheRun := by
  intro s level v n cap rest hr hv hn hline
  obtain ⟨hd, hirdec, -, htline, htrace⟩ := measureRun_ends level v hv rest n cap hn s hline
  refine ⟨_, exec_measureRun level cap hr, by simp [hirdec], hirdec, htline, hd.time, htrace, ?_⟩
  exact congrArg (State.setResult · _) hd.frame

/-- Settles O13, from what `measure_run` does on a run that reaches its cap. -/
theorem measureRunGivesUpAtTheCap : Obligations.MeasureRunGivesUpAtTheCap := by
  intro s level cap rest hr hline
  obtain ⟨hd, hirdec, -, htline, htrace⟩ := measureRun_cap level rest cap s hline
  refine ⟨_, exec_measureRun level cap hr, by simp [hirdec], hirdec, htline, hd.time, htrace, ?_⟩
  exact congrArg (State.setResult · _) hd.frame

/-- Settles O15: the one read is all that `poll` does on an idle line. -/
theorem pollOfAnIdleLineIsOneRead : Obligations.PollOfAnIdleLineIsOneRead := by
  intro s rest hidle hr hline
  rw [exec_poll_of_idle hidle hr, poll_of_high hline]

/-- Settles O16: the attempt ends with the start mark's low run, or with its high run. -/
theorem pollAbortsOnALongStartRun : Obligations.PollAbortsOnALongStartRun := by
  refine ⟨fun s rest hidle hr hline => ?_, fun s n rest hidle hr hn hline => ?_⟩
  · obtain ⟨t, hpoll, hstart⟩ := poll_of_low hline
    obtain ⟨⟨hd, hphase, -, -, htline⟩, hresult⟩ := hstart.low_capped (.inl rfl) hstart.awaited_startLow hpoll
    exact ⟨_, exec_poll_of_idle hidle hr, hresult, hphase, htline, by simpa using hd.time, hd.frame⟩
  · obtain ⟨t, hpoll, hstart⟩ := poll_of_low hline
    obtain ⟨⟨hd, hphase, -, -, htline⟩, hresult⟩ := hstart.high_capped (.inl rfl) hstart.awaited_startLow hpoll hn
    exact ⟨_, exec_poll_of_idle hidle hr, hresult, hphase, htline, by simpa using hd.time, hd.frame⟩

/-- Settles O17: the attempt stands before bit `i`, and ends with its low run or with its high run. -/
theorem pollAbortsOnALongBitRun : Obligations.PollAbortsOnALongBitRun := by
  refine fun s sl sh runs i rest hidle hr hstart hruns => ⟨fun hline => ?_, fun cl hcl hline => ?_⟩
  · obtain ⟨k, t, n, d, hpoll, hbit⟩ := poll_before_bit hidle hstart hruns hline
    obtain ⟨⟨hd, hphase, -, -, htline⟩, hresult⟩ := hbit.low_capped (.inr rfl) hbit.awaited_bitLow hpoll
    exact ⟨_, exec_poll_of_idle hidle hr, hresult, hphase, htline, hd.frame⟩
  · obtain ⟨k, t, n, d, hpoll, hbit⟩ := poll_before_bit hidle hstart hruns hline
    obtain ⟨⟨hd, hphase, -, -, htline⟩, hresult⟩ := hbit.high_capped (.inr rfl) hbit.awaited_bitLow hpoll hcl
    exact ⟨_, exec_poll_of_idle hidle hr, hresult, hphase, htline, hd.frame⟩

end

namespace Sys2Proof.Machine

/-! ## How many samples a `poll` can take (R142) -/

/-- How many samples a decode attempt can still take from a phase at bit `i` if every run stays below its cap. -/
def samplesLeft (c : Params) : IrPhase → Nat → Nat
  | .idle, _ => 0
  | .startLow, _ => (c.startLowMax - 1) + ((c.startHighMax - 1) + 32 * (c.bitLowMax - 1 + (c.bitHighMax - 1)))
  | .startHigh, _ => (c.startHighMax - 1) + 32 * (c.bitLowMax - 1 + (c.bitHighMax - 1))
  | .bitLow, i => (32 - i) * (c.bitLowMax - 1 + (c.bitHighMax - 1))
  | .bitHigh, i => (c.bitHighMax - 1) + (31 - i) * (c.bitLowMax - 1 + (c.bitHighMax - 1))
  | .check, _ => 0

/-- The samples that the attempt in progress can still take. -/
abbrev State.samplesLeft (s : State) : Nat := Machine.samplesLeft s.cfg s.irdec.phase s.irdec.bitIdx.val

/-- `n` samples from `s` on to `t` are within what an attempt can take, or one more when its last run has reached its cap. -/
def WithinBudget (n : Nat) (s t : State) : Prop :=
  n + t.samplesLeft ≤ s.samplesLeft
    ∨ (t.irdec.phase = .idle ∧ (∃ r, t.result = .polled (.aborted r)) ∧ n ≤ s.samplesLeft + 1)

/-- A run is within the budget if its cap is, and the state after an accepted run has its samples left over. -/
theorem measureOrAbort_withinBudget (level : Level) {cap : Nat} (r : AbortReason) {k : State → State} {s : State}
    (hk : ∀ t, Decoded 0 t (k t)) (hcap : cap ≤ s.samplesLeft + 1)
    (hleft : ∀ n s1, n < cap → s1.irdec = { s.irdec with count := n } → s1.cfg = s.cfg →
      n + (k s1).samplesLeft ≤ s.samplesLeft) :
    ∃ n, Decoded n s (measureOrAbort level cap r k s) ∧ WithinBudget n s (measureOrAbort level cap r k s) := by
  obtain ⟨n, hn, hd, ⟨-, hidle, hresult⟩ | ⟨hlt, s1, hirdec, -, hcfg, heq⟩⟩ := measureOrAbort_spec level cap r k s hk
  · exact ⟨n, hd, .inr ⟨hidle, ⟨r, hresult⟩, by omega⟩⟩
  · exact ⟨n, hd, .inl (by rw [heq]; exact hleft n s1 hlt hirdec hcfg)⟩

/-- Two runs more are left before bit `i` than after it. -/
theorem succ_bits_left (i : Fin 32) (m : Nat) : (32 - i.val) * m = (31 - i.val) * m + m := by
  have hi := i.isLt
  rw [show 32 - i.val = 31 - i.val + 1 by omega, Nat.succ_mul]

/-- The budget of a stored bit's successor, or of the check after the last bit. -/
theorem storeBit_samplesLeft_le (s : State) :
    (storeBit s).samplesLeft ≤ (31 - s.irdec.bitIdx.val) * (s.cfg.bitLowMax - 1 + (s.cfg.bitHighMax - 1)) := by
  by_cases h : s.irdec.bitIdx.val + 1 < 32
  · simp [storeBit, h, State.samplesLeft, samplesLeft]
  · simp [storeBit, h, State.samplesLeft, samplesLeft]

/-- One phase is within the budget. -/
theorem decodePhase_withinBudget (s : State) : ∃ n, Decoded n s (decodePhase s) ∧ WithinBudget n s (decodePhase s) := by
  unfold decodePhase
  cases hp : s.irdec.phase with
  | idle => exact ⟨0, .refl s, .inl (by simp)⟩
  | startLow =>
    refine measureOrAbort_withinBudget .low _ (setPhase_decoded .startHigh) ?_ fun n s1 hn hirdec hcfg => ?_
    · simp only [State.samplesLeft, samplesLeft, hp]
      omega
    · simp only [State.samplesLeft, samplesLeft, setPhase, State.setIrdec_irdec, State.setIrdec_cfg, hp, hcfg]
      omega
  | startHigh =>
    refine measureOrAbort_withinBudget .high _ beginPayload_decoded ?_ fun n s1 hn hirdec hcfg => ?_
    · simp only [State.samplesLeft, samplesLeft, hp]
      omega
    · simp only [State.samplesLeft, samplesLeft, beginPayload, State.setIrdec_irdec, State.setIrdec_cfg, hp, hcfg,
        Fin.val_zero, Nat.sub_zero]
      omega
  | bitLow =>
    have hsucc := succ_bits_left s.irdec.bitIdx (s.cfg.bitLowMax - 1 + (s.cfg.bitHighMax - 1))
    refine measureOrAbort_withinBudget .low _ (setPhase_decoded .bitHigh) ?_ fun n s1 hn hirdec hcfg => ?_
    · simp only [State.samplesLeft, samplesLeft, hp]
      omega
    · simp only [State.samplesLeft, samplesLeft, setPhase, State.setIrdec_irdec, State.setIrdec_cfg, hp, hcfg, hirdec]
      omega
  | bitHigh =>
    refine measureOrAbort_withinBudget .high _ storeBit_decoded ?_ fun n s1 hn hirdec hcfg => ?_
    · simp only [State.samplesLeft, samplesLeft, hp]
      omega
    · have hstored := storeBit_samplesLeft_le s1
      rw [hirdec, hcfg] at hstored
      simp only [State.samplesLeft, samplesLeft, hp] at hstored ⊢
      omega
  | check => exact ⟨0, returnPoll_decoded _ s, .inl (by simp [returnPoll, setPhase, State.samplesLeft, samplesLeft])⟩

/-- Phases after a run that was accepted stay within the budget it left. -/
theorem WithinBudget.after {m n : Nat} {s t u : State} (h : m + t.samplesLeft ≤ s.samplesLeft) (k : WithinBudget n t u) :
    WithinBudget (m + n) s u := by
  rcases k with hle | ⟨hidle, haborted, hle⟩
  · exact .inl (by omega)
  · exact .inr ⟨hidle, haborted, by omega⟩

/-- All the phases of an attempt together are within the budget of the first. -/
theorem runPhases_withinBudget (k : Nat) (s : State) :
    ∃ n, Decoded n s (runPhases k s) ∧ WithinBudget n s (runPhases k s) := by
  induction k generalizing s with
  | zero => exact ⟨0, .refl s, .inl (Nat.zero_add _).le⟩
  | succ k ih =>
    by_cases hidle : s.irdec.phase = .idle
    · rw [runPhases_idle _ s hidle]
      exact ⟨0, .refl s, .inl (Nat.zero_add _).le⟩
    · rw [runPhases_step k s hidle]
      obtain ⟨m, hd, hwithin⟩ := decodePhase_withinBudget s
      rcases hwithin with hle | habort
      · obtain ⟨n, hd', hrest⟩ := ih (decodePhase s)
        exact ⟨m + n, hd.trans hd', hrest.after hle⟩
      · rw [runPhases_idle k _ habort.1]
        exact ⟨m, hd, .inr habort⟩

/-- A `poll` takes what an attempt from the start mark on can take, or one sample more and then it reports no action. -/
theorem poll_samples (s : State) :
    ∃ n, Decoded n s (poll s)
      ∧ (n ≤ samplesLeft s.cfg .startLow 0
        ∨ (n ≤ samplesLeft s.cfg .startLow 0 + 1 ∧ ∃ r, (poll s).result = .polled (.aborted r))) := by
  have hread := readIr_decoded s
  unfold poll
  rcases hr : readIr s with ⟨v, s1⟩
  rw [hr] at hread
  cases v with
  | high => exact ⟨0, hread.trans (Decoded.of_irdec _ _ rfl), .inl (Nat.zero_le _)⟩
  | low =>
    obtain ⟨n, hd, hwithin⟩ := runPhases_withinBudget phasesPerPoll (setPhase .startLow s1)
    have hbudget : (setPhase .startLow s1).samplesLeft = samplesLeft s.cfg .startLow 0 := by
      rw [State.samplesLeft, show (setPhase .startLow s1).cfg = s.cfg from hread.later.cfg]
      rfl
    refine ⟨n, by simpa using (hread.trans (setPhase_decoded .startLow s1)).trans hd, ?_⟩
    rw [WithinBudget, hbudget] at hwithin
    rcases hwithin with hle | ⟨-, haborted, hle⟩
    · exact .inl (by omega)
    · exact .inr ⟨hle, haborted⟩

/-- Under legal parameters every run's last sample is saved but the one of a run at its cap. -/
theorem samplesLeft_startLow {c : Params} (h : c.legal = true) :
    samplesLeft c .startLow 0 + 66 = c.startLowMax + c.startHighMax + 32 * (c.bitLowMax + c.bitHighMax) := by
  simp only [Params.legal, Bool.and_eq_true, decide_eq_true_eq] at h
  simp only [samplesLeft]
  omega

/-! ## `action_for` (R139) -/

/-- With pairwise distinct codes the table has one action for each. -/
theorem actionFor_of_mem {c : Params} (h : c.legal = true) {code : Byte} {a : Action} (hmem : (code, a) ∈ c.actionTable) :
    actionFor c code = a := by
  simp only [Params.legal, legalActionTable, Bool.and_eq_true, decide_eq_true_eq] at h
  obtain ⟨-, ⟨-, hnodup⟩, -⟩ := h
  rw [actionFor]
  cases hfind : c.actionTable.find? (fun e => e.1 == code) with
  | none => simpa using List.find?_eq_none.1 hfind _ hmem
  | some e =>
    have hcode : e.1 = code := by simpa using List.find?_some hfind
    rw [List.inj_on_of_nodup_map hnodup (List.mem_of_find?_eq_some hfind) hmem hcode]

theorem actionFor_of_not_mem {c : Params} {code : Byte} (h : ∀ a, (code, a) ∉ c.actionTable) :
    actionFor c code = .raw code := by
  have hnone : c.actionTable.find? (fun e => e.1 == code) = none := by
    rw [List.find?_eq_none]
    rintro ⟨code', a⟩ hmem hcode
    exact h a (by rwa [← eq_of_beq hcode])
  rw [actionFor, hnone]

theorem exec_actionFor (code : Byte) (s : State) :
    exec (.actionFor code) s = .next (s.setResult (.action (actionFor s.cfg code))) := rfl

/-! ## The first symbol, and symbols whose run reaches the awaited cap (R133 to R136, R144) -/

/-- Whatever symbol an idle decoder is given, its runs are taken for those of the start mark. -/
theorem receive_start {s : State} {cl ch : Nat} (hidle : s.irdec.phase = .idle) (h1 : cl < s.cfg.startLowMax)
    (h2 : ch < s.cfg.startHighMax) :
    ∃ t, receive (present (leadIn s ++ runPair cl ch) s) = t
      ∧ StandsAt s (cl + ch) t .bitLow 0 Payload.zero s.env.line ∧ t.irdec.count = ch ∧ t.result = .nothing := by
  obtain ⟨⟨hd, hphase, -, -, hline⟩, hnothing⟩ := attemptOn_spec (runPair cl ch) s
  rw [if_pos hidle] at hphase
  rw [← hd.later.cfg] at h1 h2
  have hgoes := decodePhase_low_goes_on _ cl ch _ (.inl ⟨hphase, h1⟩) hline
  obtain ⟨t, ht, hstands, hcount, hresult⟩ := decodePhase_start _ cl ch _ hphase h1 h2 hline
  have hreceive := receive_of_second hgoes (by rw [ht, hstands.phase]; decide)
  exact ⟨t, hreceive.trans ht, by simpa using hstands.from_earlier hd, hcount, hresult.trans hnothing⟩

/-- A low run at least as long as its cap begins with one that reaches it. -/
theorem runPair_of_cap_le_low {cap cl : Nat} (h : cap ≤ cl) (ch : Nat) :
    ∃ rest, runPair cl ch = List.replicate cap .low ++ rest := by
  obtain ⟨m, rfl⟩ := Nat.exists_eq_add_of_le h
  exact ⟨_, by rw [runPair, List.replicate_add, List.append_assoc, List.append_assoc, List.append_assoc]⟩

theorem runPair_of_cap_le_high (cl : Nat) {cap ch : Nat} (h : cap ≤ ch) :
    ∃ rest, runPair cl ch = List.replicate cl .low ++ .high :: (List.replicate cap .high ++ rest) := by
  obtain ⟨m, rfl⟩ := Nat.exists_eq_add_of_le h
  exact ⟨List.replicate m .high ++ [.low], by simp [runPair, ← List.replicate_append_replicate]⟩

/-- A symbol ends the attempt at the first of its runs that reaches the cap awaited. -/
theorem receive_capped {s : State} {cl ch : Nat} (hp : s.irdec.phase = .idle ∨ s.irdec.phase = .bitLow)
    (hcap : (awaitedCaps s).1 ≤ cl ∨ (awaitedCaps s).2 ≤ ch) :
    ∃ n t rest, receive (present (leadIn s ++ runPair cl ch) s) = t
      ∧ StandsAt s n t .idle s.irdec.bitIdx s.irdec.data rest
      ∧ t.result = .polled (.aborted
          (if (awaitedCaps s).1 ≤ cl then (awaitedReasons s).1 else (awaitedReasons s).2)) := by
  obtain ⟨⟨hd, hphase, hidx, hdata, hline⟩, -⟩ := attemptOn_spec (runPair cl ch) s
  obtain ⟨hcaps, hreasons⟩ := attemptOn_awaited (runPair cl ch) s
  have hlow : (attemptOn (runPair cl ch) s).irdec.phase = .startLow
      ∨ (attemptOn (runPair cl ch) s).irdec.phase = .bitLow := by
    rcases hp with h | h <;> simp [hphase, h]
  have haborted := receive_of_aborted (samples := runPair cl ch) (s := s)
  have hsecond := receive_of_second (samples := runPair cl ch) (s := s)
  generalize attemptOn (runPair cl ch) s = u at *
  rw [← hcaps] at hcap
  rw [← hcaps, ← hreasons, ← hidx, ← hdata]
  by_cases h : (awaitedCaps u).1 ≤ cl
  · obtain ⟨rest, hruns⟩ := runPair_of_cap_le_low h ch
    rw [hruns, List.append_assoc] at hline
    obtain ⟨hstands, hresult⟩ := decodePhase_low_capped hlow hline
    rw [if_pos h]
    exact ⟨_, _, _, haborted hstands.phase, hstands.from_earlier hd, hresult⟩
  · obtain ⟨rest, hruns⟩ := runPair_of_cap_le_high cl (hcap.resolve_left h)
    rw [hruns, List.append_assoc, List.cons_append, List.append_assoc] at hline
    obtain ⟨hgoes, hstands, hresult⟩ := decodePhase_high_capped hlow (by omega) hline
    rw [if_neg h]
    exact ⟨_, _, _, hsecond hgoes (by rw [hstands.phase]; decide), hstands.from_earlier hd, hresult⟩

end Sys2Proof.Machine

section
open Sys2Proof Sys2Proof.Machine

/-- Settles O20: an attempt all of whose runs stay below their caps takes 66 samples less than the caps, and only a run at its
cap, which aborts it, adds one. -/
theorem pollSamplesAreBounded : Obligations.PollSamplesAreBounded := by
  intro s hlegal hidle hr
  have hbudget := samplesLeft_startLow hlegal
  obtain ⟨n, hd, hn⟩ := poll_samples s
  refine ⟨_, n, exec_poll_of_idle hidle hr, hd.sleeps, by omega, fun a ha => ?_, hd.time⟩
  rcases hn with hle | ⟨-, r, haborted⟩
  · omega
  · rw [haborted] at ha
    cases ha

/-- Settles O21: codes are pairwise distinct in a legal table. -/
theorem actionForLooksUpTheTable : Obligations.ActionForLooksUpTheTable := by
  refine fun s code => ⟨fun a hlegal hmem => ?_, fun hnone => ?_⟩
  · rw [exec_actionFor, actionFor_of_mem hlegal hmem]
    rfl
  · rw [exec_actionFor, actionFor_of_not_mem hnone]
    rfl

/-- Settles O22: the row's runs are the two phases of the start mark, whatever its name. -/
theorem firstSymbolIsTheStart : Obligations.FirstSymbolIsTheStart := by
  intro s i cl ch hsymbol hidle hr h1 h2
  obtain ⟨t, ht, ⟨hd, hphase, hidx, hdata, hline⟩, hcount, hresult⟩ := receive_start hidle h1 h2
  refine ⟨t, (exec_symbol hsymbol hr).trans (congrArg _ ht), ?_, hresult, hline, hd.time, hd.frame⟩
  rw [← hphase, ← hcount, ← hidx]
  exact congrArg (Irdec.mk _ _ _) hdata

/-- Settles O25: the caps and the reasons awaited are the start mark's or the bit's. -/
theorem symbolAtTheCapAborts : Obligations.SymbolAtTheCapAborts := by
  intro s i cl ch hsymbol hr hp hcap
  have hcaps : (awaitedCaps s).1 ≤ cl ∨ (awaitedCaps s).2 ≤ ch := by
    rcases hp with h | h <;> simpa [awaitedCaps, h] using hcap
  obtain ⟨n, t, rest, ht, hstands, hresult⟩ := receive_capped hp hcaps
  refine ⟨t, (exec_symbol hsymbol hr).trans (congrArg _ ht), hstands.phase, hstands.data, ?_, hstands.dec.frame⟩
  rcases hp with h | h <;> simpa [awaitedCaps, awaitedReasons, h] using hresult

end

/-! # Proofs of the family 42_motor: what one `service` does at each duty, and what two in a row do -/

namespace Sys2Proof.Machine

/-! ## The phase and the delta of a `service`, by the duty (R153 to R155) -/

section
variable {c : Params} {m : Motor}

theorem servicePhase_of_zero (h : m.dutyUs = 0) : servicePhase c m = .coasting := if_pos h

theorem serviceDelta_of_zero (h : m.dutyUs = 0) : serviceDelta c m = c.motorPeriodUs := if_pos h

theorem servicePhase_of_full (h0 : m.dutyUs ≠ 0) (hfull : m.dutyUs ≥ c.motorPeriodUs) : servicePhase c m = .driving := by
  rw [servicePhase, if_neg h0, if_pos hfull]

theorem serviceDelta_of_full (h0 : m.dutyUs ≠ 0) (hfull : m.dutyUs ≥ c.motorPeriodUs) :
    serviceDelta c m = c.motorPeriodUs := by
  rw [serviceDelta, if_neg h0, if_pos hfull]

theorem servicePhase_of_partial (h0 : 0 < m.dutyUs) (hpart : m.dutyUs < c.motorPeriodUs) :
    servicePhase c m = if m.phase = .coasting then .driving else .coasting := by
  rw [servicePhase, if_neg (by omega), if_neg (by omega)]

/-- The floor of R155 at 1 never counts: a partial duty leaves some of the period. -/
theorem serviceDelta_of_partial (h0 : 0 < m.dutyUs) (hpart : m.dutyUs < c.motorPeriodUs) :
    serviceDelta c m = if m.phase = .coasting then m.dutyUs else c.motorPeriodUs - m.dutyUs := by
  rw [serviceDelta, if_neg (by omega), if_neg (by omega), Nat.max_eq_right (by omega)]

/-- The phases alternate, so the second `service` records the phase that stood before the first (R155). -/
theorem servicePhase_servicePhase (h0 : 0 < m.dutyUs) (hpart : m.dutyUs < c.motorPeriodUs) :
    servicePhase c { m with phase := servicePhase c m } = m.phase := by
  rw [servicePhase_of_partial (m := { m with phase := servicePhase c m }) h0 hpart, servicePhase_of_partial h0 hpart]
  cases m.phase <;> rfl

/-- One of the two phases lasts the duty, the other the rest of the period (R155). -/
theorem serviceDelta_add_serviceDelta (h0 : 0 < m.dutyUs) (hpart : m.dutyUs < c.motorPeriodUs) :
    serviceDelta c m + serviceDelta c { m with phase := servicePhase c m } = c.motorPeriodUs := by
  rw [serviceDelta_of_partial (m := { m with phase := servicePhase c m }) h0 hpart, serviceDelta_of_partial h0 hpart,
    servicePhase_of_partial h0 hpart]
  cases m.phase with
  | driving => exact Nat.sub_add_cancel hpart.le
  | coasting => exact Nat.add_sub_cancel' hpart.le

end

/-! ## One `service` (R152) -/

/-- The levels of `PIN_MOT_IN1` and `PIN_MOT_IN2` in a phase (R92, R152). -/
def phaseCode (m : Motor) : MotorPhase → Level × Level
  | .driving => (if m.direction = .forward then .high else .low, if m.direction = .forward then .low else .high)
  | .coasting => (.low, .low)

theorem serviceCode_eq_phaseCode (c : Params) (m : Motor) : serviceCode c m = phaseCode m (servicePhase c m) := by
  rw [serviceCode]
  cases servicePhase c m with
  | driving => cases h : m.direction <;> simp [phaseCode, dirCode, h]
  | coasting => rfl

/-- `t` is `s` after a `service` that enters the phase `ph` and returns `d` (R152). -/
structure Serviced (ph : MotorPhase) (d : Nat) (s t : State) : Prop where
  result : t.result = .delta d
  pins : t.pins = { s.pins with
    motIn1 := { s.pins.motIn1 with latch := (phaseCode s.motor ph).1 },
    motIn2 := { s.pins.motIn2 with latch := (phaseCode s.motor ph).2 } }
  motor : t.motor = { s.motor with phase := ph }
  frame : t = { s with motor := t.motor, pins := t.pins, result := t.result, trace := t.trace }

/-- A `service` that is not refused enters the phase and returns the delta of its duty (R152). -/
theorem exec_service_serviced {s : State} (n : Nat) {ph : MotorPhase} {d : Nat} (hidle : s.irdec.phase = .idle)
    (hw1 : writable s .motIn1 = true) (hw2 : writable s .motIn2 = true)
    (hphase : servicePhase s.cfg s.motor = ph) (hdelta : serviceDelta s.cfg s.motor = d) :
    ∃ t, exec (.service n) s = .next t ∧ Serviced ph d s t := by
  obtain ⟨-, -, -, hmotor, -, -, -, -, hpins⟩ := serviceMotor_spec s
  rw [serviceCode_eq_phaseCode, hphase] at hpins
  rw [hphase] at hmotor
  exact ⟨_, exec_service n hidle hw1 hw2, congrArg Result.delta hdelta, hpins, hmotor, serviceMotor_frame s _⟩

section
variable {s t : State} {ph : MotorPhase} {d : Nat}

theorem Serviced.cfg (h : Serviced ph d s t) : t.cfg = s.cfg := by rw [h.frame]

theorem Serviced.irdec (h : Serviced ph d s t) : t.irdec = s.irdec := by rw [h.frame]

/-- A `service` writes latches only, and no pin's mode (R113). -/
theorem Serviced.writable (h : Serviced ph d s t) (o : OutPin) : writable t o = writable s o := by
  rw [Machine.writable, Machine.writable, h.pins]
  cases o <;> rfl

end

end Sys2Proof.Machine

section
open Sys2Proof Sys2Proof.Machine

/-- Settles O36: the second `service` finds the pins' modes and the parameters of the first, and the other phase. -/
theorem driveAndCoastFillOnePeriod : Obligations.DriveAndCoastFillOnePeriod := by
  intro s n m hidle hw1 hw2 h0 hpart
  have hperiod : 1 ≤ s.cfg.motorPeriodUs := by omega
  obtain ⟨t, ht, first⟩ := exec_service_serviced n hidle hw1 hw2 rfl rfl
  obtain ⟨u, hu, second⟩ := exec_service_serviced (s := t) m (by rw [first.irdec, hidle])
    (by rw [first.writable, hw1]) (by rw [first.writable, hw2])
    (by rw [first.cfg, first.motor, servicePhase_servicePhase h0 hpart]) (by rw [first.cfg, first.motor])
  exact ⟨t, u, _, _, ht, first.result, hu, second.result, serviceDelta_add_serviceDelta h0 hpart,
    serviceDelta_pos _ _ hperiod, serviceDelta_pos _ _ hperiod, by rw [second.motor, first.motor]⟩

/-- Settles O32: no duty is the coast phase, for the period. -/
theorem serviceAtZeroDutyCoasts : Obligations.ServiceAtZeroDutyCoasts := by
  intro s n hidle hw1 hw2 h0
  obtain ⟨t, ht, h⟩ := exec_service_serviced n hidle hw1 hw2 (servicePhase_of_zero h0) (serviceDelta_of_zero h0)
  exact ⟨t, ht, h.result, h.pins, h.motor, h.frame⟩

/-- Settles O33: full duty is the drive phase, for the period. -/
theorem serviceAtFullDutyDrives : Obligations.ServiceAtFullDutyDrives := by
  intro s n hidle hw1 hw2 h0 hfull
  obtain ⟨t, ht, h⟩ := exec_service_serviced n hidle hw1 hw2 (servicePhase_of_full h0 hfull)
    (serviceDelta_of_full h0 hfull)
  exact ⟨t, ht, h.result, h.pins, h.motor, h.frame⟩

/-- Settles O34: the recorded phase says which of the two is entered. -/
theorem serviceAtPartialDutyAlternates : Obligations.ServiceAtPartialDutyAlternates := by
  intro s n hidle hw1 hw2 h0 hpart
  have hphase := servicePhase_of_partial h0 hpart
  have hdelta := serviceDelta_of_partial h0 hpart
  cases hm : s.motor.phase with
  | coasting =>
    rw [if_pos hm] at hphase hdelta
    obtain ⟨t, ht, h⟩ := exec_service_serviced n hidle hw1 hw2 hphase hdelta
    exact ⟨t, ht, fun _ => ⟨h.motor, h.result, h.pins⟩, nofun, h.frame⟩
  | driving =>
    rw [if_neg (by rw [hm]; decide)] at hphase hdelta
    obtain ⟨t, ht, h⟩ := exec_service_serviced n hidle hw1 hw2 hphase hdelta
    exact ⟨t, ht, nofun, fun _ => ⟨h.motor, h.result, h.pins⟩, h.frame⟩

end

/-! # Proofs of the family 43_servo: the slew and the pulse width, what one `update` does, and what two in a row do -/

namespace Sys2Proof.Machine

/-! ## Target and slew (R172 to R174) -/

/-- At the target there is nothing to slew (R174). -/
theorem slewToward_self (c : Params) (p : Int) : slewToward c p p = p := by
  rw [slewToward, if_neg (lt_irrefl p), if_neg (lt_irrefl p)]

/-- A slew treats the two directions alike (R174). -/
theorem slewToward_neg (c : Params) (p target : Int) : slewToward c (-p) (-target) = -slewToward c p target := by
  rw [slewToward_eq, slewToward_eq]
  rcases lt_trichotomy p target with h | h | h
  · rw [if_neg (by omega), if_pos h]; omega
  · subst h; simp
  · rw [if_pos (by omega), if_neg (by omega)]; omega

/-- The sign of the command passes through the truncating division and the clamp (R172, R173). -/
theorem targetDeg_right (c : Params) (rollCmd : Int) : targetDeg c rollCmd false = -targetDeg c rollCmd true := by
  rw [targetDeg_eq, targetDeg_eq, if_neg Bool.false_ne_true, if_pos rfl, Int.neg_mul, Int.neg_tdiv]
  omega

/-! ## The pulse width (R175) -/

theorem servoMinUs_le_servoMaxUs {c : Params} (h : c.legal = true) : c.servoMinUs ≤ c.servoMaxUs := by
  simp only [Params.legal, Bool.and_eq_true, decide_eq_true_eq] at h
  obtain ⟨⟨⟨⟨⟨⟨-, hminmax⟩, -⟩, -⟩, -⟩, -⟩, -⟩ := h
  exact hminmax

theorem one_le_servoMinUs {c : Params} (h : c.legal = true) : 1 ≤ c.servoMinUs := by
  simp only [Params.legal, Bool.and_eq_true, decide_eq_true_eq] at h
  obtain ⟨⟨⟨⟨⟨⟨⟨-, hmin⟩, -⟩, -⟩, -⟩, -⟩, -⟩, -⟩ := h
  exact hmin

theorem pseudoAngle_mono {p q : Int} (h : p ≤ q) : pseudoAngle p ≤ pseudoAngle q := by
  rw [pseudoAngle, pseudoAngle, clamp_eq_max_min _ _ _ (by decide), clamp_eq_max_min _ _ _ (by decide)]
  omega

/-- Scaling by the pulse range and the floor division both keep the order of the angles (R175). -/
theorem pulseWidthUs_mono (c : Params) {p q : Int} (h : p ≤ q) : pulseWidthUs c p ≤ pulseWidthUs c q :=
  Nat.add_le_add_left (Nat.div_le_div_right (Nat.mul_le_mul_right _ (pseudoAngle_mono h))) _

theorem servoMinUs_le_pulseWidthUs (c : Params) (p : Int) : c.servoMinUs ≤ pulseWidthUs c p := Nat.le_add_right _ _

theorem pulseWidthUs_of_le {c : Params} {p : Int} (h : p ≤ -90) : pulseWidthUs c p = c.servoMinUs := by
  have hangle : (max 0 (min 180 (p + 90))).toNat = 0 := by omega
  rw [pulseWidthUs_eq, hangle, Nat.zero_mul, Nat.zero_div, Nat.add_zero]

/-- From 90 up the angle is 180, so the floor division is exact (R175). -/
theorem pulseWidthUs_of_ge {c : Params} {p : Int} (hminmax : c.servoMinUs ≤ c.servoMaxUs) (h : 90 ≤ p) :
    pulseWidthUs c p = c.servoMaxUs := by
  have hangle : (max 0 (min 180 (p + 90))).toNat = 180 := by omega
  rw [pulseWidthUs_eq, hangle, Nat.mul_div_cancel_left _ (by decide), Nat.add_sub_cancel' hminmax]

/-! ## The two sub-phases (R177) -/

theorem emittedPhase_emittedPhase (ph : PulsePhase) : emittedPhase (emittedPhase ph) = ph := by
  cases ph <;> rfl

theorem emittedDelta_pos {c : Params} (p : Int) (ph : PulsePhase) (h : c.legal = true) : 1 ≤ emittedDelta c p ph := by
  cases ph with
  | lowPhase => exact (one_le_servoMinUs h).trans (servoMinUs_le_pulseWidthUs c p)
  | highPhase => exact Nat.le_max_left _ _

/-- At one position the two sub-phases are the pulse and the rest of the frame, in either order (R179). -/
theorem emittedDelta_add_emittedDelta {c : Params} (p : Int) (ph : PulsePhase) (h : c.legal = true) :
    emittedDelta c p ph + emittedDelta c p (emittedPhase ph) = c.servoFrameUs := by
  have hlt := pulseWidthUs_lt_frame p h
  cases ph with
  | lowPhase => exact (congrArg _ (lowIntervalUs_eq p h)).trans (Nat.add_sub_cancel' hlt.le)
  | highPhase => exact (congrArg (· + _) (lowIntervalUs_eq p h)).trans (Nat.sub_add_cancel hlt.le)

/-! ## One `update` (R171) -/

theorem exec_update {s : State} {x : Side} (rollCmd : Int) (isLeft : Bool) (hidle : s.irdec.phase = .idle)
    (hw : writable s (servoPin x) = true) : exec (.update x rollCmd isLeft) s
      = .next ((updateServo x rollCmd isLeft s).2.setResult (.delta (updateServo x rollCmd isLeft s).1)) := by
  simp [exec, execUpdate, afterAttempt, needOutput, hidle, hw]

/-- `t` is `s` after an `update` of side `x` that ends at position `p` (R171, R177). -/
structure Updated (x : Side) (p : Int) (s t : State) : Prop where
  servo : t.servo x = { positionDeg := p, pulsePhase := emittedPhase (s.servo x).pulsePhase }
  others : ∀ y, y ≠ x → t.servo y = s.servo y
  result : t.result = .delta (emittedDelta s.cfg p (s.servo x).pulsePhase)
  pins : t.pins = s.pins.setCell (servoPin x)
    { (s.pins.cell (servoPin x)) with latch := emittedLevel (s.servo x).pulsePhase }
  trace : t.trace = .pinWrite (.out (servoPin x)) (emittedLevel (s.servo x).pulsePhase) :: s.trace
  frame : t = { s with servoL := t.servoL, servoR := t.servoR, pins := t.pins, result := t.result, trace := t.trace }

/-- An `update` that is not refused ends one slew step nearer its target (R171, R174). -/
theorem exec_update_updated {s : State} {x : Side} {p : Int} (rollCmd : Int) (isLeft : Bool)
    (hidle : s.irdec.phase = .idle) (hw : writable s (servoPin x) = true)
    (hslew : slewToward s.cfg (s.servo x).positionDeg (targetDeg s.cfg rollCmd isLeft) = p) :
    ∃ t, exec (.update x rollCmd isLeft) s = .next t ∧ Updated x p s t := by
  subst hslew
  obtain ⟨-, -, -, -, -, -, hservo, hothers, hpins⟩ := updateServo_spec x rollCmd isLeft s
  refine ⟨_, exec_update rollCmd isLeft hidle hw, ?_, ?_, rfl, hpins, ?_, updateServo_frame x rollCmd isLeft s _⟩
  · cases x <;> exact hservo
  · exact fun y hy => by cases y <;> exact hothers _ hy
  · cases x <;> rfl

section
variable {x : Side} {p : Int} {s t : State}

theorem Updated.cfg (h : Updated x p s t) : t.cfg = s.cfg := by rw [h.frame]

theorem Updated.irdec (h : Updated x p s t) : t.irdec = s.irdec := by rw [h.frame]

theorem Updated.position (h : Updated x p s t) : (t.servo x).positionDeg = p := by rw [h.servo]

theorem Updated.phase (h : Updated x p s t) : (t.servo x).pulsePhase = emittedPhase (s.servo x).pulsePhase := by
  rw [h.servo]

theorem Updated.latch (h : Updated x p s t) :
    (t.pins.cell (servoPin x)).latch = emittedLevel (s.servo x).pulsePhase := by
  rw [h.pins, Pins.cell_setCell_same]

theorem Updated.cell_other (h : Updated x p s t) {q : OutPin} (hq : q ≠ servoPin x) : t.pins.cell q = s.pins.cell q := by
  rw [h.pins, Pins.cell_setCell_other _ hq]

/-- An `update` writes a latch only, and no pin's mode (R113). -/
theorem Updated.mode (h : Updated x p s t) (o : OutPin) : (t.pins.cell o).mode = (s.pins.cell o).mode := by
  rw [h.pins, Pins.mode_setLatch]

theorem Updated.irMode (h : Updated x p s t) : t.pins.irMode = s.pins.irMode := by rw [h.pins, Pins.irMode_setCell]

theorem Updated.writable (h : Updated x p s t) (o : OutPin) : writable t o = writable s o := by
  rw [Machine.writable, Machine.writable, h.mode]

end

end Sys2Proof.Machine

section
open Sys2Proof Sys2Proof.Machine

/-- Settles O38: the closed forms of the target, the slew and the width are the pseudocode's, and the recorded phase says
which level is driven. -/
theorem updateTracksAndEmits : Obligations.UpdateTracksAndEmits := by
  intro s x rollCmd isLeft hidle hw raw target p p' width
  have hslew : slewToward s.cfg (s.servo x).positionDeg (targetDeg s.cfg rollCmd isLeft) = p' := by
    rw [slewToward_eq, targetDeg_eq]
  have hwidth : pulseWidthUs s.cfg p' = width := pulseWidthUs_eq s.cfg p'
  obtain ⟨t, ht, h⟩ := exec_update_updated rollCmd isLeft hidle hw hslew
  refine ⟨t, ht, h.position, fun hph => ?_, fun hph => ?_, h.others, fun _ => h.cell_other, h.mode _, h.irMode, h.frame⟩
  · rw [h.phase, h.result, h.latch, h.trace, hph, emittedDelta, hwidth]
    exact ⟨rfl, rfl, rfl, rfl⟩
  · rw [h.phase, h.result, h.latch, h.trace, hph, emittedDelta, lowIntervalUs, hwidth]
    exact ⟨rfl, rfl, rfl, rfl⟩

/-- Settles O39: a slew step ends between the position and the target, and both are within the hard limit. -/
theorem updateSlewsWithinItsBounds : Obligations.UpdateSlewsWithinItsBounds := by
  intro s x rollCmd isLeft hidle hw hlimit
  obtain ⟨t, ht, h⟩ := exec_update_updated rollCmd isLeft hidle hw rfl
  have htarget := targetDeg_mem s.cfg rollCmd isLeft
  obtain ⟨hlow, hhigh, hstep⟩ := slewToward_spec s.cfg (s.servo x).positionDeg (targetDeg s.cfg rollCmd isLeft)
  refine ⟨t, ht, ?_, ?_⟩
  · rw [h.position]
    exact hstep
  · rw [h.position]
    omega

/-- Settles O40: the angle is monotone and clamped to 0 and 180, where the floor division is exact. -/
theorem pulseWidthIsMonotone : Obligations.PulseWidthIsMonotone := by
  intro c hlegal
  have hminmax := servoMinUs_le_servoMaxUs hlegal
  exact ⟨fun _ _ => pulseWidthUs_mono c, fun _ => pulseWidthUs_of_le, fun _ => pulseWidthUs_of_ge hminmax,
    fun p => ⟨servoMinUs_le_pulseWidthUs c p, pulseWidthUs_le p hminmax⟩⟩

/-- Settles O41: the right target is the left one negated, and a slew step from a negated position to a negated target
ends at the negated position. -/
theorem surfacesDeflectOppositely : Obligations.SurfacesDeflectOppositely := by
  intro s rollCmd hidle hwL hwR hopposite
  obtain ⟨t, ht, left⟩ := exec_update_updated (x := .left) rollCmd true hidle hwL rfl
  obtain ⟨u, hu, right⟩ := exec_update_updated (s := t) (x := .right) rollCmd false (by rw [left.irdec, hidle])
    ((left.writable .srvR).trans hwR) rfl
  refine ⟨t, u, ht, hu, ?_⟩
  calc u.servoR.positionDeg
      = slewToward t.cfg (t.servo .right).positionDeg (targetDeg t.cfg rollCmd false) := right.position
    _ = slewToward s.cfg (-s.servoL.positionDeg) (-targetDeg s.cfg rollCmd true) := by
        rw [left.others .right (by decide), left.cfg, targetDeg_right, State.servo_right, hopposite]
    _ = -(t.servo .left).positionDeg := by rw [slewToward_neg, left.position, State.servo_left]
    _ = -u.servoL.positionDeg := by rw [← right.others .left (by decide), State.servo_left]

/-- Settles O42: neither `update` moves, so the second emits the other sub-phase of the same position. -/
theorem servoFrameIsConstantAtRest : Obligations.ServoFrameIsConstantAtRest := by
  intro s x rollCmd isLeft hlegal hidle hw hrest
  obtain ⟨t, ht, first⟩ := exec_update_updated rollCmd isLeft hidle hw (by rw [← hrest, slewToward_self])
  obtain ⟨u, hu, second⟩ := exec_update_updated (s := t) rollCmd isLeft (by rw [first.irdec, hidle])
    (by rw [first.writable, hw]) (by rw [first.position, first.cfg, ← hrest, slewToward_self])
  have hresult := second.result
  have hservo := second.servo
  rw [first.cfg, first.phase] at hresult
  rw [first.phase, emittedPhase_emittedPhase] at hservo
  exact ⟨t, u, _, _, ht, first.result, hu, hresult, emittedDelta_add_emittedDelta _ _ hlegal,
    emittedDelta_pos _ _ hlegal, emittedDelta_pos _ _ hlegal, hservo⟩

end

/-! # Proofs of the family 44_scheduler: what a step runs, the actions, and the five steps of an iteration -/

namespace Sys2Proof.Machine

/-! ## A step runs the waiting word, or else the block's own operation (R190, R205, R252) -/

section
variable {s : State} {w : Word} {rest : List Word}

theorem step_given {i : Instr} (hprogram : s.program = w :: rest) (hdecode : decode w = .ok i) :
    step s = exec i (s.setProgram rest) := by
  simp only [step, fetch, hprogram, hdecode]

theorem step_undecodable {e : DecodeError} (hprogram : s.program = w :: rest) (hdecode : decode w = .error e) :
    step s = .refused (.undecodable e) := by
  simp only [step, fetch, hprogram, hdecode]

theorem step_boots (hprogram : s.program = []) (hrun : s.run = .powerOn) : step s = exec .boot s := by
  simp only [step, fetch, hprogram, hrun, ownOp]

end

/-! ## Actions (R193 to R197) -/

theorem exec_applyAction {s : State} (a : Action) (hidle : s.irdec.phase = .idle) :
    exec (.applyAction a) s = .next ((applyAction a s).setResult .nothing) := by
  simp [exec, execApplyAction, afterAttempt, hidle]

/-- In every phase of the decoder the row of an action is the application of the action. -/
theorem exec_toInstr (a : Action) (s : State) : exec a.toInstr s = exec (.applyAction a) s := by
  cases a <;> rfl

/-- The row of an action completes when the decoder is idle. -/
theorem exec_toInstr_of_idle {s : State} (a : Action) (hidle : s.irdec.phase = .idle) :
    exec a.toInstr s = .next ((applyAction a s).setResult .nothing) :=
  (exec_toInstr a s).trans (exec_applyAction a hidle)

end Sys2Proof.Machine

section
open Sys2Proof Sys2Proof.Machine

/-- Settles O4: the fetch finds the waiting word, or else the block's own operation in its run phase. -/
theorem stepRunsTheNextOperation : Obligations.StepRunsTheNextOperation :=
  ⟨fun _ _ _ _ hprogram hdecode => step_given hprogram hdecode,
    fun _ _ _ _ hprogram hdecode => step_undecodable hprogram hdecode,
    fun _ hprogram hrun => step_iterates hprogram hrun, fun _ hprogram hrun => step_boots hprogram hrun⟩

/-- Settles O44: the clamp of the stepped throttle is the nearest value in 0..100. -/
theorem volumeStepsTheThrottle : Obligations.VolumeStepsTheThrottle := by
  intro s hidle
  rw [exec_applyAction _ hidle, exec_applyAction _ hidle, applyAction, applyAction, volumeUp, volumeDown,
    clamp_eq_max_min _ _ _ (by decide), clamp_eq_max_min _ _ _ (by decide)]
  exact ⟨rfl, rfl⟩

/-- Settles O45, by the engine's state before the toggle. -/
theorem powerToggleArmsOrZeroes : Obligations.PowerToggleArmsOrZeroes := by
  intro s hidle
  have hrow : exec .powerToggle s = .next ((powerToggle s).setResult .nothing) := exec_toInstr_of_idle .powerToggle hidle
  constructor
  · intro hoff
    rw [hrow, powerToggle, hoff]
    rfl
  · intro hon
    rw [hrow, powerToggle, hon]
    rfl

/-- Settles O46: the clamp of the stepped command is the nearest value in -100..100. -/
theorem rollStepsTheCommand : Obligations.RollStepsTheCommand := by
  intro s hidle
  have hleft : exec .rollLeft s = .next ((rollLeft s).setResult .nothing) := exec_toInstr_of_idle .rollLeft hidle
  have hright : exec .rollRight s = .next ((rollRight s).setResult .nothing) := exec_toInstr_of_idle .rollRight hidle
  rw [hleft, hright, rollLeft, rollRight, clamp_eq_max_min _ _ _ (by decide), clamp_eq_max_min _ _ _ (by decide)]
  exact ⟨rfl, rfl⟩

/-- Settles O47, one case for each action that this control scheme does not use. -/
theorem otherActionsAreNoOps : Obligations.OtherActionsAreNoOps := by
  intro s a hidle ha
  rw [exec_applyAction a hidle]
  obtain rfl | rfl | rfl | ⟨d, rfl⟩ | ⟨b, rfl⟩ := ha
  all_goals rfl

/-- Settles O48: a row is the application of its action, which is framed to the command state. -/
theorem applyActionIsTheActionsRow : Obligations.ApplyActionIsTheActionsRow := by
  intro s a hidle
  exact ⟨_, exec_applyAction a hidle, exec_toInstr_of_idle a hidle, (applyAction_engineEnabled a s).resolve_right,
    congrArg (State.setResult · .nothing) (applyAction_spec a s)⟩

end

namespace Sys2Proof.Machine

/-! ## The steps of an iteration as states (R190) -/

/-- Step 1 with the lateness given: what the clock reading leaves (R191). -/
theorem readNow_of_delays {s : State} {late : Nat} {delays : List Nat} (hdelays : s.env.delays = late :: delays) :
    readNow s = { s with
      sched := { s.sched with now := s.env.clock + late },
      env := { s.env with clock := s.env.clock + late, delays := delays },
      trace := .now (s.env.clock + late) :: s.trace } := by
  simp only [readNow, clockRead, advanceTo_clock_given _ _ _ _ hdelays, Nat.max_self]
  rfl

theorem runPoll_of_idle {s : State} (hidle : s.irdec.phase = .idle) : runPoll s = poll s := if_pos hidle

/-- Step 2 on an idle line: one read, and no action (R132, R192). -/
theorem pollAndApply_of_high {s : State} {rest : List Level} (hidle : s.irdec.phase = .idle)
    (hline : s.env.line = .high :: rest) :
    pollAndApply s = { s with
      env := { s.env with line := rest }, result := .polled .noSignal, trace := .pinRead .ir .high :: s.trace } := by
  rw [pollAndApply, runPoll_of_idle hidle, poll_of_high hline]
  rfl

/-- Step 4 with nothing due (R199). -/
theorem dispatches_of_early {s : State} (hl : s.sched.now < s.sched.nextServoL) (hr : s.sched.now < s.sched.nextServoR)
    (hm : s.sched.now < s.sched.nextMotor) : dispatchMotor (dispatchServoR (dispatchServoL s)) = s := by
  rw [dispatchServoL, if_neg (by omega), dispatchServoR, if_neg (by omega), dispatchMotor, if_neg (by omega)]

/-- Step 5 with the lateness given and the soonest deadline ahead of the clock (R201). -/
theorem sleepToSoonest_of_delays {s : State} {late : Nat} {delays : List Nat} (hnow : s.sched.now < soonest s.sched)
    (hclock : s.env.clock ≤ soonest s.sched) (hdelays : s.env.delays = late :: delays) :
    sleepToSoonest s = { s with
      env := { s.env with clock := soonest s.sched + late, delays := delays },
      trace := .sleepUntil (soonest s.sched) :: s.trace } := by
  rw [sleepToSoonest, if_pos hnow, sleepUntil, advanceTo_clock_given _ _ _ _ hdelays, Nat.max_eq_right hclock]
  rfl

/-! ## What a `poll` returns depends on the decoder, the line and the parameters alone (R130, R192) -/

/-- The decoder cannot tell `s` from `t`. -/
structure SameSight (s t : State) : Prop where
  cfg : t.cfg = s.cfg
  irdec : t.irdec = s.irdec
  env : t.env = s.env

/-- The decoder cannot tell `s` from `t`, and an attempt that has ended left the same result in both. -/
structure SameAttempt (s t : State) : Prop extends SameSight s t where
  result : s.irdec.phase = .idle → t.result = s.result

section
variable {s t : State}

theorem SameSight.readIr (h : SameSight s t) :
    (readIr t).1 = (readIr s).1 ∧ SameSight (readIr s).2 (readIr t).2 := by
  have hnext : nextLevel t.env = nextLevel s.env := by rw [h.env]
  exact ⟨congrArg (·.1) hnext, h.cfg, h.irdec, congrArg (·.2) hnext⟩

theorem SameSight.sleepFor (h : SameSight s t) (d : Nat) : SameSight (sleepFor d s) (sleepFor d t) :=
  ⟨h.cfg, h.irdec, congrArg (fun e : Env => advanceTo (e.clock + d) e) h.env⟩

theorem SameSight.setIrdec (h : SameSight s t) (r : Irdec) : SameSight (s.setIrdec r) (t.setIrdec r) :=
  ⟨h.cfg, rfl, h.env⟩

/-- Both attempts go on in a phase that is not the end of one, with nothing returned yet. -/
theorem SameSight.setIrdec_attempt (h : SameSight s t) {r : Irdec} (hr : r.phase ≠ .idle) :
    SameAttempt (s.setIrdec r) (t.setIrdec r) :=
  ⟨h.setIrdec r, fun hidle => absurd hidle hr⟩

/-- Both attempts end and return the same. -/
theorem SameSight.returnPoll (h : SameSight s t) (o : PollOutcome) : SameAttempt (returnPoll o s) (returnPoll o t) :=
  ⟨⟨h.cfg, congrArg (fun r : Irdec => { r with phase := .idle }) h.irdec, h.env⟩, fun _ => rfl⟩

theorem SameSight.setPhase (h : SameSight s t) {p : IrPhase} (hp : p ≠ .idle) :
    SameAttempt (setPhase p s) (setPhase p t) := by
  rw [Machine.setPhase, Machine.setPhase, h.irdec]
  exact h.setIrdec_attempt hp

theorem SameSight.beginPayload (h : SameSight s t) : SameAttempt (beginPayload s) (beginPayload t) := by
  rw [Machine.beginPayload, Machine.beginPayload, h.irdec]
  exact h.setIrdec_attempt nofun

theorem SameSight.storeBit (h : SameSight s t) : SameAttempt (storeBit s) (storeBit t) := by
  simp only [Machine.storeBit, h.cfg, h.irdec]
  split
  · exact h.setIrdec_attempt nofun
  · exact h.setIrdec_attempt nofun

theorem SameSight.setCount (h : SameSight s t) (n : Nat) : SameSight (setCount n s) (setCount n t) := by
  rw [Machine.setCount, Machine.setCount, h.irdec]
  exact h.setIrdec _

theorem SameSight.measureLoop (level : Level) (fuel : Nat) (h : SameSight s t) :
    SameSight (measureLoop level fuel s) (measureLoop level fuel t) := by
  induction fuel generalizing s t with
  | zero => exact h
  | succ fuel ih =>
    obtain ⟨hlevel, hread⟩ := h.readIr
    simp only [Machine.measureLoop, hlevel, hread.irdec, hread.cfg]
    split
    · exact hread
    · exact ih ((hread.setCount _).sleepFor _)

/-- A run ends alike in both states, at its cap or with the phase that `k` goes on with (R133). -/
theorem SameSight.measureOrAbort (level : Level) (cap : Nat) (r : AbortReason) {k : State → State}
    (hk : ∀ {u v}, SameSight u v → SameAttempt (k u) (k v)) (h : SameSight s t) :
    SameAttempt (measureOrAbort level cap r k s) (measureOrAbort level cap r k t) := by
  have hrun : SameSight (measureRun level cap s) (measureRun level cap t) := (h.setCount 0).measureLoop level cap
  simp only [Machine.measureOrAbort, hrun.irdec]
  split
  · exact hrun.returnPoll (.aborted r)
  · exact hk hrun

theorem SameAttempt.decodePhase (h : SameAttempt s t) : SameAttempt (decodePhase s) (decodePhase t) := by
  simp only [Machine.decodePhase, h.irdec, h.cfg]
  cases s.irdec.phase with
  | idle => exact h
  | startLow => exact h.measureOrAbort _ _ _ (SameSight.setPhase · nofun)
  | startHigh => exact h.measureOrAbort _ _ _ SameSight.beginPayload
  | bitLow => exact h.measureOrAbort _ _ _ (SameSight.setPhase · nofun)
  | bitHigh => exact h.measureOrAbort _ _ _ SameSight.storeBit
  | check => exact h.returnPoll _

theorem SameAttempt.runPhases (n : Nat) (h : SameAttempt s t) : SameAttempt (runPhases n s) (runPhases n t) := by
  induction n generalizing s t with
  | zero => exact h
  | succ n ih =>
    simp only [Machine.runPhases, h.irdec]
    split
    · exact h
    · exact ih h.decodePhase

/-- A `poll` writes its result, so what stood there before it does not matter (R132, R140). -/
theorem SameSight.poll (h : SameSight s t) : SameAttempt (poll s) (poll t) := by
  unfold Machine.poll
  obtain ⟨hlevel, hread⟩ := h.readIr
  rcases hs : Machine.readIr s with ⟨v, u⟩
  rcases ht : Machine.readIr t with ⟨w, x⟩
  rw [hs, ht] at hlevel hread
  obtain rfl : w = v := hlevel
  cases w with
  | high => exact ⟨⟨hread.cfg, hread.irdec, hread.env⟩, fun _ => rfl⟩
  | low => exact (hread.setPhase (p := .startLow) nofun).runPhases phasesPerPoll

end

/-- The poll of an iteration on an idle decoder returns what a `poll` after a `now` returns: the two start from the same
clock reading (R191, R192). -/
theorem runPoll_readNow_result {s s1 s2 : State} (hidle : s.irdec.phase = .idle) (hr : readable s .ir = true)
    (hnow : exec .now s = .next s1) (hpoll : exec .poll s1 = .next s2) : (runPoll (readNow s)).result = s2.result := by
  rw [exec_now hidle, Host.Outcome.next.injEq] at hnow
  subst hnow
  rw [exec_poll_of_idle (by exact hidle) (by exact hr), Host.Outcome.next.injEq] at hpoll
  subst hpoll
  rw [runPoll_of_idle (s := readNow s) hidle]
  have hsame : SameAttempt (poll (readNow s)) (poll ((clockRead s).2.setResult (.time (clockRead s).1))) :=
    SameSight.poll ⟨rfl, rfl, rfl⟩
  exact (hsame.result (poll_ends (readNow s) hidle).1).symm

/-! ## The dispatches (R199) -/

theorem emittedDelta_eq (c : Params) (p : Int) (ph : PulsePhase) : emittedDelta c p ph
    = if ph = .lowPhase then pulseWidthUs c p else max 1 (c.servoFrameUs - pulseWidthUs c p) := by
  cases ph <;> rfl

/-- What a `service` returns in closed form (R153 to R155). -/
theorem serviceDelta_eq (c : Params) (m : Motor) : serviceDelta c m
    = if m.dutyUs = 0 ∨ c.motorPeriodUs ≤ m.dutyUs then c.motorPeriodUs
      else if m.phase = .coasting then m.dutyUs else c.motorPeriodUs - m.dutyUs := by
  by_cases h0 : m.dutyUs = 0
  · rw [serviceDelta_of_zero h0, if_pos (.inl h0)]
  · by_cases hfull : c.motorPeriodUs ≤ m.dutyUs
    · rw [serviceDelta_of_full h0 hfull, if_pos (.inr hfull)]
    · rw [serviceDelta_of_partial (by omega) (by omega), if_neg (not_or.2 ⟨h0, hfull⟩)]

/-- What the dispatch of a servo works on (R199). -/
structure ServoUnit where
  deadline : Nat
  servo : Servo
  cell : OutCell

def State.servoUnit (s : State) : Side → ServoUnit
  | .left => { deadline := s.sched.nextServoL, servo := s.servoL, cell := s.pins.srvL }
  | .right => { deadline := s.sched.nextServoR, servo := s.servoR, cell := s.pins.srvR }

def State.setServoUnit (s : State) (x : Side) (v : ServoUnit) : State :=
  match x with
  | .left => { s with
      servoL := v.servo, sched := { s.sched with nextServoL := v.deadline }, pins := { s.pins with srvL := v.cell } }
  | .right => { s with
      servoR := v.servo, sched := { s.sched with nextServoR := v.deadline }, pins := { s.pins with srvR := v.cell } }

/-- The dispatch at `now` of a servo that turns towards `target` makes `v` of `u`: nothing before the deadline, one
`update` from it on (R177, R199). -/
structure ServoDispatched (c : Params) (now : Nat) (target : Int) (u v : ServoUnit) : Prop where
  early : now < u.deadline → v.deadline = u.deadline ∧ v.servo = u.servo ∧ v.cell = u.cell
  due : u.deadline ≤ now →
    v.deadline = u.deadline + (if u.servo.pulsePhase = .lowPhase then pulseWidthUs c v.servo.positionDeg
      else max 1 (c.servoFrameUs - pulseWidthUs c v.servo.positionDeg))
    ∧ v.servo = {
        positionDeg := slewToward c u.servo.positionDeg target, pulsePhase := emittedPhase u.servo.pulsePhase }
    ∧ v.cell = { u.cell with latch := emittedLevel u.servo.pulsePhase }

section
variable {c : Params} {now : Nat} {target : Int} {u : ServoUnit}

theorem ServoDispatched.of_early (h : now < u.deadline) : ServoDispatched c now target u u :=
  ⟨fun _ => ⟨rfl, rfl, rfl⟩, fun hdue => absurd h hdue.not_gt⟩

theorem ServoDispatched.of_due (h : u.deadline ≤ now) : ServoDispatched c now target u {
    deadline := u.deadline + emittedDelta c (slewToward c u.servo.positionDeg target) u.servo.pulsePhase
    servo := {
      positionDeg := slewToward c u.servo.positionDeg target, pulsePhase := emittedPhase u.servo.pulsePhase }
    cell := { u.cell with latch := emittedLevel u.servo.pulsePhase } } :=
  ⟨fun hearly => absurd hearly h.not_gt, fun _ => ⟨congrArg _ (emittedDelta_eq _ _ _), rfl, rfl⟩⟩

end

/-- Step 4 for one servo (R199). -/
def dispatchServo : Side → State → State
  | .left => dispatchServoL
  | .right => dispatchServoR

/-- The `is_left` that SCHED gives a side (R199). -/
def isLeftOf : Side → Bool
  | .left => true
  | .right => false

/-- The transaction of a servo's dispatch, if it is due (R199). -/
def servoWrites (x : Side) (s : State) : List Txn :=
  if (s.servoUnit x).deadline ≤ s.sched.now
  then [Txn.pinWrite (.out (servoPin x)) (emittedLevel (s.servoUnit x).servo.pulsePhase)] else []

theorem dispatchServo_dispatched (x : Side) (s : State) : ∃ v,
    ServoDispatched s.cfg s.sched.now (targetDeg s.cfg s.sched.rollCmd (isLeftOf x)) (s.servoUnit x) v
    ∧ dispatchServo x s = (s.setServoUnit x v).setTrace (servoWrites x s ++ s.trace) := by
  rcases Nat.lt_or_ge s.sched.now (s.servoUnit x).deadline with h | h
  · refine ⟨_, .of_early h, ?_⟩
    rw [servoWrites, if_neg h.not_ge]
    cases x <;> exact if_neg h.not_ge
  · refine ⟨_, .of_due h, ?_⟩
    rw [servoWrites, if_pos h]
    cases x <;> exact if_pos h

/-- What the dispatch of the motor may write (R199). -/
structure MotorUnit where
  deadline : Nat
  phase : MotorPhase
  in1 : OutCell
  in2 : OutCell

def State.motorUnit (s : State) : MotorUnit :=
  { deadline := s.sched.nextMotor, phase := s.motor.phase, in1 := s.pins.motIn1, in2 := s.pins.motIn2 }

def State.setMotorUnit (s : State) (v : MotorUnit) : State := { s with
  motor := { s.motor with phase := v.phase }, sched := { s.sched with nextMotor := v.deadline },
  pins := { s.pins with motIn1 := v.in1, motIn2 := v.in2 } }

/-- The dispatch at `now` of a motor with registers `m` makes `v` of `u`: nothing before the deadline, one `service` from it on
(R152, R199). -/
structure MotorDispatched (c : Params) (now : Nat) (m : Motor) (u v : MotorUnit) : Prop where
  early : now < u.deadline → v.deadline = u.deadline ∧ v.phase = u.phase ∧ v.in1 = u.in1 ∧ v.in2 = u.in2
  due : u.deadline ≤ now →
    v.deadline = u.deadline + (if m.dutyUs = 0 ∨ c.motorPeriodUs ≤ m.dutyUs then c.motorPeriodUs
      else if m.phase = .coasting then m.dutyUs else c.motorPeriodUs - m.dutyUs)
    ∧ v.phase = servicePhase c m ∧ v.in1 = { u.in1 with latch := (serviceCode c m).1 }
    ∧ v.in2 = { u.in2 with latch := (serviceCode c m).2 }

/-- The transactions of the motor's dispatch, if it is due (R156, R199). -/
def serviceWrites (s : State) : List Txn :=
  if s.sched.nextMotor ≤ s.sched.now then motorWrites s.cfg (serviceCode s.cfg s.motor) else []

theorem writePins_eq (code : Level × Level) (s : State) : writePins code s = { s with
    pins := { s.pins with
      motIn1 := { s.pins.motIn1 with latch := code.1 }, motIn2 := { s.pins.motIn2 with latch := code.2 } }
    trace := motorWrites s.cfg code ++ s.trace } := by
  rw [writePins, motorWrites]
  cases s.cfg.motorWriteOrder <;> rfl

theorem dispatchMotor_dispatched (s : State) : ∃ v,
    MotorDispatched s.cfg s.sched.now s.motor s.motorUnit v
    ∧ dispatchMotor s = (s.setMotorUnit v).setTrace (serviceWrites s ++ s.trace) := by
  rcases Nat.lt_or_ge s.sched.now s.sched.nextMotor with h | h
  · refine ⟨_, ⟨fun _ => ⟨rfl, rfl, rfl, rfl⟩, fun hdue => absurd h hdue.not_gt⟩, ?_⟩
    rw [dispatchMotor, serviceWrites, if_neg h.not_ge, if_neg h.not_ge]
    rfl
  · refine ⟨⟨_, _, _, _⟩, ⟨fun hearly => absurd hearly h.not_gt, fun _ => ⟨rfl, rfl, rfl, rfl⟩⟩, ?_⟩
    rw [dispatchMotor, serviceWrites, if_pos h, if_pos h, serviceMotor, writePins_eq, serviceDelta_eq]
    rfl

/-- The three dispatches, each in the registers and on the pins of its own generator (R199). -/
theorem dispatches_dispatched (s : State) : ∃ l r m,
    ServoDispatched s.cfg s.sched.now (targetDeg s.cfg s.sched.rollCmd true) (s.servoUnit .left) l
    ∧ ServoDispatched s.cfg s.sched.now (targetDeg s.cfg s.sched.rollCmd false) (s.servoUnit .right) r
    ∧ MotorDispatched s.cfg s.sched.now s.motor s.motorUnit m
    ∧ dispatchMotor (dispatchServoR (dispatchServoL s))
      = (((s.setServoUnit .left l).setServoUnit .right r).setMotorUnit m).setTrace
        (serviceWrites s ++ (servoWrites .right s ++ (servoWrites .left s ++ s.trace))) := by
  obtain ⟨l, hleft, hl⟩ := dispatchServo_dispatched .left s
  obtain ⟨r, hright, hr⟩ := dispatchServo_dispatched .right (dispatchServoL s)
  simp only [dispatchServo] at hl hr
  obtain ⟨m, hmotor, hm⟩ := dispatchMotor_dispatched (dispatchServoR (dispatchServoL s))
  refine ⟨l, r, m, hleft, ?_, ?_, ?_⟩
  · rw [hl] at hright
    exact hright
  · rw [hr, hl] at hmotor
    exact hmotor
  · rw [hm, hr, hl]
    rfl

/-! ## Before and after the dispatches (R191, R192, R198, R201) -/

/-- The `poll` of an iteration and its action leave the generators and their deadlines as they were (R130, R192, R193). -/
theorem pollAndApply_sampled (s : State) : ∃ irdec roll throttle engine env result samples,
    pollAndApply s = { s with
      irdec := irdec
      sched := { s.sched with rollCmd := roll, throttleCmd := throttle, engineEnabled := engine }
      env := env
      result := result
      trace := samples ++ s.trace }
    ∧ irdec.phase = .idle ∧ s.env.clock ≤ env.clock ∧ samples.all (isSampling s.cfg) = true := by
  obtain ⟨later, hidle, hmotor, hl, hr, hpins, hrun, ⟨roll, throttle, engine, hsched⟩, -, -, samples, htrace,
    hsamples⟩ := pollAndApply_spec s
  refine ⟨_, roll, throttle, engine, _, (pollAndApply s).result, samples, ?_, hidle, later.clock, hsamples⟩
  rw [← htrace, ← hsched, ← later.cfg, ← later.program, ← hmotor, ← hl, ← hr, ← hpins, ← hrun]

/-- Before the dispatches the clock has been read as `n`, the line has been sampled, and the command state that the `poll` has
left is gated; the generators are as they were but for that (R191, R192, R198). -/
theorem gateThrottle_prepared (s : State) : ∃ n irdec roll throttle engine env result samples,
    gateThrottle (pollAndApply (readNow s)) = setThrottle (if engine then throttle else 0) { s with
      irdec := irdec
      sched := { s.sched with rollCmd := roll, throttleCmd := throttle, engineEnabled := engine, now := n }
      env := env
      result := result
      trace := samples ++ Txn.now n :: s.trace }
    ∧ irdec.phase = .idle ∧ s.env.clock ≤ n ∧ n ≤ env.clock ∧ samples.all (isSampling s.cfg) = true := by
  obtain ⟨irdec, roll, throttle, engine, env, result, samples, hpoll, hidle, hclock, hsamples⟩ :=
    pollAndApply_sampled (readNow s)
  exact ⟨(clockRead s).1, irdec, roll, throttle, engine, env, result, samples, congrArg gateThrottle hpoll, hidle,
    (clockRead_spec s).1.clock, hclock, hsamples⟩

/-- The sleep writes the environment and the record only (R116, R201). -/
theorem sleepToSoonest_slept (s : State) : ∃ env,
    sleepToSoonest s = { s with
      env := env
      trace := (if s.sched.now < soonest s.sched then [Txn.sleepUntil (soonest s.sched)] else []) ++ s.trace }
    ∧ s.env.clock ≤ env.clock ∧ (s.sched.now < soonest s.sched → soonest s.sched ≤ env.clock) := by
  rcases Nat.lt_or_ge s.sched.now (soonest s.sched) with h | h
  · obtain ⟨hclock, hsoonest, -⟩ := advanceTo_spec (soonest s.sched) s.env
    exact ⟨_, by rw [sleepToSoonest, if_pos h, if_pos h]; rfl, hclock, fun _ => hsoonest⟩
  · exact ⟨s.env, by rw [sleepToSoonest, if_neg h.not_gt, if_neg h.not_gt]; rfl, le_rfl,
      fun hahead => absurd hahead h.not_gt⟩

/-! ## The gate through an iteration (R198) -/

/-- After the gate only the phase of MOTOR changes (R199, R201). -/
theorem iterateState_motor (s : State) : (iterateState s).motor
    = { (gateThrottle (pollAndApply (readNow s))).motor with phase := (iterateState s).motor.phase } := by
  obtain ⟨_, _, _, -, -, -, hdispatched⟩ := dispatches_dispatched (gateThrottle (pollAndApply (readNow s)))
  obtain ⟨-, units, -⟩ :=
    sleepToSoonest_spec (dispatchMotor (dispatchServoR (dispatchServoL (gateThrottle (pollAndApply (readNow s))))))
  rw [iterateState, units.motor, hdispatched]
  rfl

/-- With the throttle in range the gate commands forward, at the duty of the command that the iteration leaves (R198). -/
theorem iterateState_gated {s : State} (h : s.InRange) : (iterateState s).motor.direction = .forward
    ∧ (iterateState s).motor.dutyUs = s.cfg.motorPeriodUs
      * (if (iterateState s).sched.engineEnabled then (iterateState s).sched.throttleCmd.toNat else 0) / 100 := by
  obtain ⟨-, -, -, -, -, hmin, hmax⟩ := pollAndApply_inRange (readNow_inRange h)
  obtain ⟨-, hthrottle, hengine⟩ := iterateState_sameCommand s
  have hcfg : (pollAndApply (readNow s)).cfg = s.cfg := (pollAndApply_spec _).1.cfg.trans (readNow_spec s).1.cfg
  rw [iterateState_motor, hthrottle, hengine, gateThrottle_eq _ hmin hmax, hcfg]
  refine ⟨rfl, ?_⟩
  simp only
  split <;> simp

end Sys2Proof.Machine

section
open Sys2Proof Sys2Proof.Machine

/-- Settles O49: the state before the dispatches, what each dispatch does there, and the sleep. -/
theorem iterateAdvancesTheDueDeadlines : Obligations.IterateAdvancesTheDueDeadlines := by
  intro s hready
  obtain ⟨n, irdec, roll, throttle, engine, env, result, samples, hprepared, hidle, hn, henv, hsamples⟩ :=
    gateThrottle_prepared s
  have hiterate : iterateState s
      = sleepToSoonest (dispatchMotor (dispatchServoR (dispatchServoL (gateThrottle (pollAndApply (readNow s)))))) := rfl
  generalize gateThrottle (pollAndApply (readNow s)) = u at hprepared hiterate
  obtain ⟨l, r, m, hleft, hright, hmotor, hdispatched⟩ := dispatches_dispatched u
  obtain ⟨env', hslept, hclock, hahead⟩ := sleepToSoonest_slept (dispatchMotor (dispatchServoR (dispatchServoL u)))
  rw [hslept] at hiterate
  rw [hdispatched] at hclock hahead hiterate
  subst hprepared
  refine ⟨_, n, samples, exec_iterate s hready, hn, ?_⟩
  rw [hiterate]
  refine ⟨rfl, henv.trans hclock, hidle, rfl, rfl, rfl, rfl, rfl,
    hleft.early, hleft.due, hright.early, hright.due, hmotor.early, hmotor.due, hsamples, ?_, rfl, hahead⟩
  simp only [List.append_assoc]
  rfl

/-- Settles O50: each of the five steps as a state, with nothing due and the lateness of the two transactions given. -/
theorem iterateWithNothingDueOnlySleeps : Obligations.IterateWithNothingDueOnlySleeps := by
  intro s late late2 delays rest hidle hready hline hdelays hl hr hm hmin hmax n m
  have hnow : n < m := lt_min (lt_min hl hr) hm
  -- `by exact`: each hypothesis on `s` is one on the state the step starts from, once the rewriting has found that state.
  rw [exec_iterate s hready, iterateState, readNow_of_delays hdelays,
    pollAndApply_of_high (by exact hidle) (by exact hline), gateThrottle_eq _ (by exact hmin) (by exact hmax),
    dispatches_of_early (by exact hl) (by exact hr) (by exact hm),
    sleepToSoonest_of_delays (by exact hnow) (by exact hnow.le) (by rfl)]
  rfl

/-- Settles O51: the iteration's poll returns what the given one returned, and the command state it leaves is the one the
gate has used. -/
theorem iterateAppliesOneActionAndGates : Obligations.IterateAppliesOneActionAndGates := by
  intro s s1 s2 hrange hidle hready hnow hpoll
  have hresult := runPoll_readNow_result hidle hready.1 hnow hpoll
  obtain ⟨hdirection, hduty⟩ := iterateState_gated hrange
  refine ⟨_, exec_iterate s hready, ?_⟩
  rw [State.setResult_sched, State.setResult_motor]
  refine ⟨fun a ha => ?_, fun hnone => ?_, hdirection, hduty⟩
  · obtain ⟨hroll, hthrottle, hengine⟩ := iterateState_command_of_decoded s a (hresult.trans ha)
    exact ⟨_, exec_applyAction a hidle, hroll, hthrottle, hengine⟩
  · obtain ⟨hroll, hthrottle, hengine⟩ := iterateState_command_of_not_decoded s (hresult ▸ hnone)
    exact ⟨hroll, hthrottle, hengine⟩

end
